-- ==== Sys2Proof/Word.lean ====
section
/-! DEFINITION. The value types of the BlueMoon core (spec/00_scope.md R9, R10): 32-bit words, bytes, 5-bit register numbers,
and the text type of assembler tokens. -/

namespace Sys2Proof

/-- `u32` of spec/00_scope.md R10: every register, pc and address value. -/
abbrev Word := BitVec 32

/-- One byte of either memory (spec/10_state.md R43). -/
abbrev Byte := BitVec 8

/-- A register number x0..x31: the 5-bit register fields of spec/30_encoding.md R121. -/
abbrev RegIdx := BitVec 5

/-- A token of assembler source: a list of characters. -/
abbrev Text := List Char

end Sys2Proof
end

