-- ==== Sys2Proof/Config.lean ====
section
/-! DEFINITION. Implementation parameters (spec/00_scope.md R9), fixed constants of the core, and the free values: what the
spec leaves open with no value given, as constants without a body. -/

namespace Sys2Proof

/-- DIV_POLICY of spec/00_scope.md R9: what `div` and `rem` do on the two undefined operand pairs (spec/40_alu.md R221). -/
inductive DivPolicy where
  | fault
  | riscv
deriving DecidableEq, Repr

/-- UNWRITTEN_DATA_READ of spec/00_scope.md R9: what a load of a byte nothing has written gives (spec/20_memory.md R84). -/
inductive UnwrittenDataRead where
  | zero
  | fault
deriving DecidableEq, Repr

/-- The two parameters a model takes as configuration arguments (spec/00_scope.md R9). They stand in the state and no operation
changes them (log entry 1). -/
structure Config where
  divPolicy         : DivPolicy
  unwrittenDataRead : UnwrittenDataRead
deriving DecidableEq, Repr

/-- The defaults of spec/00_scope.md R9: DIV_POLICY = Fault, UNWRITTEN_DATA_READ = Zero. -/
def Config.standard : Config := { divPolicy := .fault, unwrittenDataRead := .zero }

/-- DATA_BASE = 0x10000000 (spec/00_scope.md R9, spec/20_memory.md R80): the first data address. -/
def dataBase : Nat := 0x10000000

/-- TEXT_BASE = 0x00000000 (spec/00_scope.md R9, decision D3): the first instruction's address. -/
def textBase : Word := 0x00000000#32

/-- The halt word (spec/30_encoding.md R135, spec/43_system.md R310). -/
def haltWord : Word := 0x00000073#32

/-- The trace fields `opcode-funct3-funct7-rd-rs1-rs2-imm` of one encoded instruction (spec/30_encoding.md R150); `none` is
'NULL'. -/
structure TraceFields where
  opcode : BitVec 7
  funct3 : Option (BitVec 3)
  funct7 : Option (BitVec 7)
  rd     : Option RegIdx
  rs1    : Option RegIdx
  rs2    : Option RegIdx
  imm    : Option Int
deriving DecidableEq, Repr

/-- FREE VALUE (log entry 2): the address of a label defined in the data segment, which spec/30_encoding.md R154 leaves
unspecified. -/
opaque Config.dataLabelAddress : Text → Nat

/-- FREE VALUE (log entry 3): the byte `.asciz` emits for a character that is not ASCII, and for a raw U+0000; spec/30_encoding.md R161
says one byte per character and gives no value for these, but that none is 0x00: the byte is one more than this value. -/
opaque Config.wideCharByte : Nat → Fin 255

/-- The seven trace fields (spec/30_encoding.md R150). -/
inductive TraceField where
  | opcode | funct3 | funct7 | rd | rs1 | rs2 | imm
deriving DecidableEq, Repr

/-! TRACE_FORMAT, OPEN (spec/30_encoding.md R150, R163, decision D44; log entry 4): the radix, digit count and sign of each rendered
field. What stands between the fields is given by the template of R163 and is no free value (Machine/Assembler.lean). -/

/-- FREE VALUE (log entry 4): `<addr-hex>` of R163. -/
opaque Config.addrText : Word → Text

/-- FREE VALUE (log entry 4): `<word-hex>` of R163. -/
opaque Config.wordText : Word → Text

/-- FREE VALUE (log entry 4): `<byte-hex>` of R163. -/
opaque Config.byteText : Byte → Text

/-- FREE VALUE (log entry 4): the text of a trace field that the format has (R150); one it lacks is `NULL`. -/
opaque Config.traceFieldText : TraceField → Int → Text

end Sys2Proof
end

