-- ==== Sys2Proof/Syntax.lean ====
section
/-! DEFINITION. The instructions: one constructor per row of spec/opcode_table.json (spec/30_encoding.md R134), with the fields
the row's format gives it (R122 to R127). Immediates stand as the format holds them; the branch and `jal` offsets are the
13-bit and 21-bit values of R130 and R132, whose bit 0 is not encoded. -/

namespace Sys2Proof

/-- One instruction of the admitted set, in the order of spec/30_encoding.md R134. -/
inductive Instr where
  | add   (rd rs1 rs2 : RegIdx)
  | sub   (rd rs1 rs2 : RegIdx)
  | sll   (rd rs1 rs2 : RegIdx)
  | slt   (rd rs1 rs2 : RegIdx)
  | xor   (rd rs1 rs2 : RegIdx)
  | srl   (rd rs1 rs2 : RegIdx)
  | sra   (rd rs1 rs2 : RegIdx)
  | or    (rd rs1 rs2 : RegIdx)
  | and   (rd rs1 rs2 : RegIdx)
  | mul   (rd rs1 rs2 : RegIdx)
  | div   (rd rs1 rs2 : RegIdx)
  | rem   (rd rs1 rs2 : RegIdx)
  | addi  (rd rs1 : RegIdx) (imm : BitVec 12)
  | andi  (rd rs1 : RegIdx) (imm : BitVec 12)
  | ori   (rd rs1 : RegIdx) (imm : BitVec 12)
  | lb    (rd rs1 : RegIdx) (imm : BitVec 12)
  | lh    (rd rs1 : RegIdx) (imm : BitVec 12)
  | lw    (rd rs1 : RegIdx) (imm : BitVec 12)
  | ld    (rd rs1 : RegIdx) (imm : BitVec 12)
  | jalr  (rd rs1 : RegIdx) (imm : BitVec 12)
  | sb    (rs2 rs1 : RegIdx) (imm : BitVec 12)
  | sh    (rs2 rs1 : RegIdx) (imm : BitVec 12)
  | sw    (rs2 rs1 : RegIdx) (imm : BitVec 12)
  | sd    (rs2 rs1 : RegIdx) (imm : BitVec 12)
  | beq   (rs1 rs2 : RegIdx) (imm : BitVec 13)
  | bne   (rs1 rs2 : RegIdx) (imm : BitVec 13)
  | blt   (rs1 rs2 : RegIdx) (imm : BitVec 13)
  | bge   (rs1 rs2 : RegIdx) (imm : BitVec 13)
  | lui   (rd : RegIdx) (imm : BitVec 20)
  | auipc (rd : RegIdx) (imm : BitVec 20)
  | jal   (rd : RegIdx) (imm : BitVec 21)
  | halt
deriving DecidableEq, Repr

end Sys2Proof
end

