-- ==== Sys2Proof/WellFormed.lean ====
section
/-! DEFINITION. Well-formedness of an instruction: the branch and `jal` offsets are even, because their bit 0 is not encoded
(spec/30_encoding.md R125, R127, R130, R132). Every other field is bounded by its type. -/

namespace Sys2Proof

/-- Bit 0 of a branch offset is 0 (spec/30_encoding.md R130). -/
def branchOffsetOk (imm : BitVec 13) : Bool := !imm.getLsbD 0

/-- Bit 0 of a `jal` offset is 0 (spec/30_encoding.md R132). -/
def jumpOffsetOk (imm : BitVec 21) : Bool := !imm.getLsbD 0

/-- The instruction has an encoding that holds all of it. -/
def Instr.wellFormed : Instr → Bool
  | .beq _ _ imm => branchOffsetOk imm
  | .bne _ _ imm => branchOffsetOk imm
  | .blt _ _ imm => branchOffsetOk imm
  | .bge _ _ imm => branchOffsetOk imm
  | .jal _ imm   => jumpOffsetOk imm
  | .add _ _ _ | .sub _ _ _ | .sll _ _ _ | .slt _ _ _ | .xor _ _ _ | .srl _ _ _ | .sra _ _ _ | .or _ _ _ | .and _ _ _
  | .mul _ _ _ | .div _ _ _ | .rem _ _ _ => true
  | .addi _ _ _ | .andi _ _ _ | .ori _ _ _ | .lb _ _ _ | .lh _ _ _ | .lw _ _ _ | .ld _ _ _ | .jalr _ _ _ => true
  | .sb _ _ _ | .sh _ _ _ | .sw _ _ _ | .sd _ _ _ => true
  | .lui _ _ | .auipc _ _ | .halt => true

end Sys2Proof
end

