-- ==== Sys2Proof/Decode.lean ====
section
/-! DEFINITION. The decoder and the encoder (spec/30_encoding.md R120 to R138, R148). Both are written from the same tables:
the format layouts of R121 to R127 and the opcode map of R134. -/

namespace Sys2Proof

/-! The fields common to every format (R121). -/

def opcodeOf (w : Word) : BitVec 7 := w.extractLsb' 0 7
def rdOf     (w : Word) : RegIdx   := w.extractLsb' 7 5
def funct3Of (w : Word) : BitVec 3 := w.extractLsb' 12 3
def rs1Of    (w : Word) : RegIdx   := w.extractLsb' 15 5
def rs2Of    (w : Word) : RegIdx   := w.extractLsb' 20 5
def funct7Of (w : Word) : BitVec 7 := w.extractLsb' 25 7

/-! The immediates, before extension to 32 bits (R128 to R132). -/

/-- `inst[31:20]` (R128). -/
def immIOf (w : Word) : BitVec 12 := w.extractLsb' 20 12
/-- `{inst[31:25], inst[11:7]}` (R129). -/
def immSOf (w : Word) : BitVec 12 := w.extractLsb' 25 7 ++ w.extractLsb' 7 5
/-- `{inst[31], inst[7], inst[30:25], inst[11:8], 1'b0}` (R130). -/
def immBOf (w : Word) : BitVec 13 :=
  w.extractLsb' 31 1 ++ w.extractLsb' 7 1 ++ w.extractLsb' 25 6 ++ w.extractLsb' 8 4 ++ 0#1
/-- `inst[31:12]` (R131). -/
def immUOf (w : Word) : BitVec 20 := w.extractLsb' 12 20
/-- `{inst[31], inst[19:12], inst[20], inst[30:21], 1'b0}` (R132). -/
def immJOf (w : Word) : BitVec 21 :=
  w.extractLsb' 31 1 ++ w.extractLsb' 12 8 ++ w.extractLsb' 20 1 ++ w.extractLsb' 21 10 ++ 0#1

/-! The opcode map (R134), one function per opcode. -/

/-- Opcode 0110011: the R-format rows of R134, selected by funct7 and funct3. -/
def decodeOp (w : Word) : Option Instr :=
  let rd := rdOf w
  let rs1 := rs1Of w
  let rs2 := rs2Of w
  if funct7Of w = 0b0000000#7 then
    if funct3Of w = 0b000#3 then some (.add rd rs1 rs2)
    else if funct3Of w = 0b001#3 then some (.sll rd rs1 rs2)
    else if funct3Of w = 0b010#3 then some (.slt rd rs1 rs2)
    else if funct3Of w = 0b100#3 then some (.xor rd rs1 rs2)
    else if funct3Of w = 0b101#3 then some (.srl rd rs1 rs2)
    else if funct3Of w = 0b110#3 then some (.or rd rs1 rs2)
    else if funct3Of w = 0b111#3 then some (.and rd rs1 rs2)
    else none
  else if funct7Of w = 0b0100000#7 then
    if funct3Of w = 0b000#3 then some (.sub rd rs1 rs2)
    else if funct3Of w = 0b101#3 then some (.sra rd rs1 rs2)
    else none
  else if funct7Of w = 0b0000001#7 then
    if funct3Of w = 0b000#3 then some (.mul rd rs1 rs2)
    else if funct3Of w = 0b100#3 then some (.div rd rs1 rs2)
    else if funct3Of w = 0b110#3 then some (.rem rd rs1 rs2)
    else none
  else none

/-- Opcode 0010011: the I-format arithmetic rows of R134. -/
def decodeOpImm (w : Word) : Option Instr :=
  if funct3Of w = 0b000#3 then some (.addi (rdOf w) (rs1Of w) (immIOf w))
  else if funct3Of w = 0b111#3 then some (.andi (rdOf w) (rs1Of w) (immIOf w))
  else if funct3Of w = 0b110#3 then some (.ori (rdOf w) (rs1Of w) (immIOf w))
  else none

/-- Opcode 0000011: the load rows of R134. -/
def decodeLoad (w : Word) : Option Instr :=
  if funct3Of w = 0b000#3 then some (.lb (rdOf w) (rs1Of w) (immIOf w))
  else if funct3Of w = 0b001#3 then some (.lh (rdOf w) (rs1Of w) (immIOf w))
  else if funct3Of w = 0b010#3 then some (.lw (rdOf w) (rs1Of w) (immIOf w))
  else if funct3Of w = 0b011#3 then some (.ld (rdOf w) (rs1Of w) (immIOf w))
  else none

/-- Opcode 0100011: the store rows of R134. -/
def decodeStore (w : Word) : Option Instr :=
  if funct3Of w = 0b000#3 then some (.sb (rs2Of w) (rs1Of w) (immSOf w))
  else if funct3Of w = 0b001#3 then some (.sh (rs2Of w) (rs1Of w) (immSOf w))
  else if funct3Of w = 0b010#3 then some (.sw (rs2Of w) (rs1Of w) (immSOf w))
  else if funct3Of w = 0b011#3 then some (.sd (rs2Of w) (rs1Of w) (immSOf w))
  else none

/-- Opcode 1100011: the branch rows of R134. -/
def decodeBranch (w : Word) : Option Instr :=
  if funct3Of w = 0b000#3 then some (.beq (rs1Of w) (rs2Of w) (immBOf w))
  else if funct3Of w = 0b001#3 then some (.bne (rs1Of w) (rs2Of w) (immBOf w))
  else if funct3Of w = 0b100#3 then some (.blt (rs1Of w) (rs2Of w) (immBOf w))
  else if funct3Of w = 0b101#3 then some (.bge (rs1Of w) (rs2Of w) (immBOf w))
  else none

/-- Opcode 1100111: the `jalr` row of R134. -/
def decodeJalr (w : Word) : Option Instr :=
  if funct3Of w = 0b000#3 then some (.jalr (rdOf w) (rs1Of w) (immIOf w)) else none

/-- Decode of one instruction word: the instruction of the row of R134 the word matches; `none` for every other word (R136,
R137). The halt word is selected by its full pattern only (R135). -/
def decode (w : Word) : Option Instr :=
  if opcodeOf w = 0b0110011#7 then decodeOp w
  else if opcodeOf w = 0b0010011#7 then decodeOpImm w
  else if opcodeOf w = 0b0000011#7 then decodeLoad w
  else if opcodeOf w = 0b0100011#7 then decodeStore w
  else if opcodeOf w = 0b1100011#7 then decodeBranch w
  else if opcodeOf w = 0b1100111#7 then decodeJalr w
  else if opcodeOf w = 0b0110111#7 then some (.lui (rdOf w) (immUOf w))
  else if opcodeOf w = 0b0010111#7 then some (.auipc (rdOf w) (immUOf w))
  else if opcodeOf w = 0b1101111#7 then some (.jal (rdOf w) (immJOf w))
  else if w = haltWord then some .halt
  else none

/-- Why a byte sequence is no instruction. -/
inductive DecodeReject where
  /-- The word matches no row of R134 (R136). -/
  | unknownMnemonic (w : Word)
  /-- Fewer than the four bytes every instruction takes (R120). -/
  | tooShort
deriving DecidableEq, Repr

/-- Four bytes as a word, the byte at the lowest address least significant (spec/20_memory.md R83). -/
def wordOfBytes4 (b0 b1 b2 b3 : Byte) : Word := b3 ++ b2 ++ b1 ++ b0

/-- The byte of a word at offset k, little-endian (spec/20_memory.md R83, R85). -/
def byteOfWord (w : Word) (k : Nat) : Byte := w.extractLsb' (8 * k) 8

/-- Decode from bytes: exactly four bytes are consumed (R120), and a word outside R134 is rejected by name. -/
def decodeBytes : List Byte → Except DecodeReject (Instr × List Byte)
  | b0 :: b1 :: b2 :: b3 :: rest =>
    match decode (wordOfBytes4 b0 b1 b2 b3) with
    | some i => .ok (i, rest)
    | none   => .error (.unknownMnemonic (wordOfBytes4 b0 b1 b2 b3))
  | _ => .error .tooShort

/-! The encoder: the packings of R148 over the layouts of R122 to R127. -/

/-- `{f7, rs2, rs1, f3, rd, op}` (R122). -/
def packR (f7 : BitVec 7) (rs2 rs1 : RegIdx) (f3 : BitVec 3) (rd : RegIdx) (op : BitVec 7) : Word :=
  f7 ++ rs2 ++ rs1 ++ f3 ++ rd ++ op

/-- `{v[11:0], rs1, f3, rd, op}` (R123). -/
def packI (v : BitVec 12) (rs1 : RegIdx) (f3 : BitVec 3) (rd : RegIdx) (op : BitVec 7) : Word :=
  v ++ rs1 ++ f3 ++ rd ++ op

/-- `{v[11:5], rs2, rs1, f3, v[4:0], op}` (R124). -/
def packS (v : BitVec 12) (rs2 rs1 : RegIdx) (f3 : BitVec 3) (op : BitVec 7) : Word :=
  v.extractLsb' 5 7 ++ rs2 ++ rs1 ++ f3 ++ v.extractLsb' 0 5 ++ op

/-- `{v[12], v[10:5], rs2, rs1, f3, v[4:1], v[11], op}` (R125). -/
def packSB (v : BitVec 13) (rs2 rs1 : RegIdx) (f3 : BitVec 3) (op : BitVec 7) : Word :=
  v.extractLsb' 12 1 ++ v.extractLsb' 5 6 ++ rs2 ++ rs1 ++ f3 ++ v.extractLsb' 1 4 ++ v.extractLsb' 11 1 ++ op

/-- `{v[19:0], rd, op}` (R126). -/
def packU (v : BitVec 20) (rd : RegIdx) (op : BitVec 7) : Word := v ++ rd ++ op

/-- `{v[20], v[10:1], v[11], v[19:12], rd, op}` (R127). -/
def packUJ (v : BitVec 21) (rd : RegIdx) (op : BitVec 7) : Word :=
  v.extractLsb' 20 1 ++ v.extractLsb' 1 10 ++ v.extractLsb' 11 1 ++ v.extractLsb' 12 8 ++ rd ++ op

/-- The word of an instruction (R134, R148). Bit 0 of a branch or `jal` offset is dropped by the packing. -/
def encode : Instr → Word
  | .add rd rs1 rs2  => packR 0b0000000#7 rs2 rs1 0b000#3 rd 0b0110011#7
  | .sub rd rs1 rs2  => packR 0b0100000#7 rs2 rs1 0b000#3 rd 0b0110011#7
  | .sll rd rs1 rs2  => packR 0b0000000#7 rs2 rs1 0b001#3 rd 0b0110011#7
  | .slt rd rs1 rs2  => packR 0b0000000#7 rs2 rs1 0b010#3 rd 0b0110011#7
  | .xor rd rs1 rs2  => packR 0b0000000#7 rs2 rs1 0b100#3 rd 0b0110011#7
  | .srl rd rs1 rs2  => packR 0b0000000#7 rs2 rs1 0b101#3 rd 0b0110011#7
  | .sra rd rs1 rs2  => packR 0b0100000#7 rs2 rs1 0b101#3 rd 0b0110011#7
  | .or  rd rs1 rs2  => packR 0b0000000#7 rs2 rs1 0b110#3 rd 0b0110011#7
  | .and rd rs1 rs2  => packR 0b0000000#7 rs2 rs1 0b111#3 rd 0b0110011#7
  | .mul rd rs1 rs2  => packR 0b0000001#7 rs2 rs1 0b000#3 rd 0b0110011#7
  | .div rd rs1 rs2  => packR 0b0000001#7 rs2 rs1 0b100#3 rd 0b0110011#7
  | .rem rd rs1 rs2  => packR 0b0000001#7 rs2 rs1 0b110#3 rd 0b0110011#7
  | .addi rd rs1 imm => packI imm rs1 0b000#3 rd 0b0010011#7
  | .andi rd rs1 imm => packI imm rs1 0b111#3 rd 0b0010011#7
  | .ori rd rs1 imm  => packI imm rs1 0b110#3 rd 0b0010011#7
  | .lb rd rs1 imm   => packI imm rs1 0b000#3 rd 0b0000011#7
  | .lh rd rs1 imm   => packI imm rs1 0b001#3 rd 0b0000011#7
  | .lw rd rs1 imm   => packI imm rs1 0b010#3 rd 0b0000011#7
  | .ld rd rs1 imm   => packI imm rs1 0b011#3 rd 0b0000011#7
  | .jalr rd rs1 imm => packI imm rs1 0b000#3 rd 0b1100111#7
  | .sb rs2 rs1 imm  => packS imm rs2 rs1 0b000#3 0b0100011#7
  | .sh rs2 rs1 imm  => packS imm rs2 rs1 0b001#3 0b0100011#7
  | .sw rs2 rs1 imm  => packS imm rs2 rs1 0b010#3 0b0100011#7
  | .sd rs2 rs1 imm  => packS imm rs2 rs1 0b011#3 0b0100011#7
  | .beq rs1 rs2 imm => packSB imm rs2 rs1 0b000#3 0b1100011#7
  | .bne rs1 rs2 imm => packSB imm rs2 rs1 0b001#3 0b1100011#7
  | .blt rs1 rs2 imm => packSB imm rs2 rs1 0b100#3 0b1100011#7
  | .bge rs1 rs2 imm => packSB imm rs2 rs1 0b101#3 0b1100011#7
  | .lui rd imm      => packU imm rd 0b0110111#7
  | .auipc rd imm    => packU imm rd 0b0010111#7
  | .jal rd imm      => packUJ imm rd 0b1101111#7
  | .halt            => haltWord

/-- The decoder on a word of spec/opcode_table.json: the word's bytes as the hardware stores them (spec/20_memory.md R83), the
bits above `nbits` zero. Every row of the table has 32 bits. -/
def decodeTableWord (nbits w : Nat) : Option Instr :=
  let v : Word := BitVec.ofNat 32 (w % 2 ^ nbits)
  match decodeBytes [byteOfWord v 0, byteOfWord v 1, byteOfWord v 2, byteOfWord v 3] with
  | .ok (i, _) => some i
  | .error _   => none

end Sys2Proof
end

