-- ==== Sys2Proof/Machine/State.lean ====
section
/-! DEFINITION. The state of one engine instance (spec/10_state.md), as plain data, with the reasons a step can stop and the
state after reset (R50). -/

namespace Sys2Proof.Machine

/-- The mnemonic held in the `ins` field of a pipeline buffer: one of R134's 31, or HALT (spec/10_state.md R44). -/
inductive Mnemonic where
  | add | sub | sll | slt | xor | srl | sra | or | and | mul | div | rem
  | addi | andi | ori | lb | lh | lw | ld | jalr
  | sb | sh | sw | sd | beq | bne | blt | bge | lui | auipc | jal | halt
deriving DecidableEq, Repr

/-- The six instruction formats (spec/30_encoding.md R120) and the halt word's own. -/
inductive Format where
  | r | i | s | sb | u | uj | halt
deriving DecidableEq, Repr

/-- The error kinds with their recorded info (spec/60_exceptions.md R401). The kind `UnknownMnemonic` has two constructors: the
encoder records a mnemonic, the decode stage a word. -/
inductive Error where
  /-- Code 0, assembly: the mnemonic. -/
  | unknownMnemonic (name : Text)
  /-- Code 0, decode stage: the word. -/
  | unknownWord (w : Word)
  /-- Code 1: the operand text. -/
  | unknownRegister (t : Text)
  /-- Code 2 (alias `MalformedImmediate`): the literal text. -/
  | malformedNumber (t : Text)
  /-- Code 3 (alias `ImmediateOutOfRange`): the value. -/
  | valueOutOfRange (v : Int)
  /-- Code 4: the label. -/
  | duplicateLabel (l : Text)
  /-- Code 5: the label. -/
  | undefinedLabel (l : Text)
  /-- Code 6: the escape. -/
  | invalidEscapeSequence (t : Text)
  /-- Code 7: the first offending byte address. -/
  | segmentAccessViolation (a : Word)
  /-- Code 8: the instruction's pc. -/
  | unsupportedWidth (pc : Word)
  /-- Code 9, only under DIV_POLICY = Fault: the instruction's pc. -/
  | arithmeticUndefined (pc : Word)
  /-- Code 10, only under UNWRITTEN_DATA_READ = Fault: the byte address. -/
  | unwrittenRead (a : Word)
deriving DecidableEq, Repr

/-- The run status (spec/10_state.md R41). -/
inductive Status where
  | running
  | halted
  | faulted (e : Error)
deriving DecidableEq, Repr

/-- The producer stage named in a hazard event (spec/60_exceptions.md R415). -/
inductive Stage where
  | ex
  | mem
deriving DecidableEq, Repr

/-- The source operand named in a hazard event (spec/60_exceptions.md R415). -/
inductive Source where
  | rs1
  | rs2
deriving DecidableEq, Repr

/-- The event records of spec/60_exceptions.md R415. -/
inductive Event where
  | flush (pc next : Word)
  | hazard (stage : Stage) (operand : Source) (reg : RegIdx)
  | forward (stage : Stage) (operand : Source) (reg : RegIdx) (value : Word)
  | stall (pc : Word)
deriving DecidableEq, Repr

/-- A partial map from 32-bit keys, held as a list of (key, value) pairs with strictly rising keys. A key that is not listed has no
entry. -/
abbrev PMap (β : Type) := List (Nat × β)

/-- One of the two memories (spec/10_state.md R43): a partial map from byte address to byte. An address that is not listed is
empty. -/
abbrev Memory := List Host.Cell

/-- IF/ID, the fetch to decode buffer (spec/10_state.md R44). -/
structure IFID where
  pc     : Word
  nextPc : Word
  word   : Word
deriving DecidableEq, Repr

/-- The fields decode adds to a buffer record (spec/10_state.md R44): the mnemonic, the instruction's fields with `none` where the
format lacks one, and the control flags. -/
structure Decoded where
  ins      : Mnemonic
  opcode   : BitVec 7
  funct3   : Option (BitVec 3)
  funct7   : Option (BitVec 7)
  rd       : Option RegIdx
  rs1      : Option RegIdx
  rs2      : Option RegIdx
  imm      : Option Word
  memRead  : Bool
  memWrite : Bool
  regWrite : Bool
  isBranch : Bool
  isJal    : Bool
  isJalr   : Bool
deriving DecidableEq, Repr

/-- ID/EX, the decode to execute buffer (spec/10_state.md R44). -/
structure IDEX extends IFID, Decoded where
  v1 : Word
  v2 : Word
deriving DecidableEq, Repr

/-- EX/MEM, the execute to memory buffer (spec/10_state.md R44). -/
structure EXMEM extends IDEX where
  result : Word
deriving DecidableEq, Repr

/-- MEM/WB, the memory to write-back buffer (spec/10_state.md R44). -/
structure MEMWB extends EXMEM where
  wbValue : Word
deriving DecidableEq, Repr

/-- The nine statistics counters (spec/10_state.md R47), unbounded. -/
structure Stats where
  cycles      : Nat
  retired     : Nat
  aluCount    : Nat
  memCount    : Nat
  ctrlCount   : Nat
  stalls      : Nat
  dataHazards : Nat
  ctrlHazards : Nat
  mispredicts : Nat
deriving DecidableEq, Repr

/-- The engine (spec/10_state.md, the `Engine` record), and the two parameters of spec/00_scope.md R9, which no operation
changes. -/
structure State where
  /-- DIV_POLICY and UNWRITTEN_DATA_READ (spec/00_scope.md R9; log entry 1). -/
  cfg    : Config
  /-- The register file (R30). Entry 0 is read through `State.readReg`, which gives 0 (R31). -/
  x      : Vector Word 32
  /-- The address of the next fetch (R35). -/
  pc     : Word
  /-- Instruction memory (R43). -/
  imem   : Memory
  /-- Data memory (R43). -/
  dmem   : Memory
  /-- The fetch to decode buffer; `none` is a bubble (R44, R45). -/
  ifid   : Option IFID
  /-- The decode to execute buffer. -/
  idex   : Option IDEX
  /-- The execute to memory buffer. -/
  exmem  : Option EXMEM
  /-- The memory to write-back buffer. -/
  memwb  : Option MEMWB
  /-- Direction history (R46). -/
  bht    : PMap Bool
  /-- Target cache (R46). -/
  btb    : PMap Word
  /-- Forwarding enable (R40). -/
  fwd    : Bool
  /-- The run status (R41). -/
  status : Status
  /-- The counters (R47). -/
  stats  : Stats
  /-- The events of the most recent cycle (R48). -/
  events : List Event
deriving DecidableEq, Repr

/-- Why the model stops without a next state. Both stand only in states that no run from reset reaches: an engine error of the
spec is a NEXT state with status `faulted` (spec/60_exceptions.md R405). -/
inductive Fault where
  /-- Fetch: `bht` predicts taken for an address that has no `btb` entry; the spec says the entry exists
  (spec/45_pipeline.md R331). Raised by `predictNext`. Safe: the machine stops where the spec gives no next address. -/
  | predictorTargetMissing (a : Word)
  /-- Execute or memory: a buffer record whose flags and fields contradict its mnemonic, which decode never produces
  (spec/30_encoding.md R133, R139), so that the spec names no operand, offset or width. Raised by `exStage` and `memStage`. Safe. -/
  | inconsistentBuffer (pc : Word)
deriving DecidableEq, Repr

/-- Why an instruction has no meaning. -/
inductive Refusal where
  /-- Raised by an arm of `exec` for an instruction that has no meaning yet; no arm of this model raises it. Safe. -/
  | notModelled (mnemonic : String)
deriving DecidableEq, Repr

/-- All counters 0 (R47, R50). -/
def Stats.zero : Stats :=
  { cycles := 0, retired := 0, aluCount := 0, memCount := 0, ctrlCount := 0, stalls := 0, dataHazards := 0, ctrlHazards := 0,
    mispredicts := 0 }

/-- The state after reset: the table of spec/10_state.md R50, with the default parameters of spec/00_scope.md R9. -/
def State.reset : State :=
  { cfg := Config.standard
    x := Vector.replicate 32 0#32
    pc := textBase
    imem := []
    dmem := []
    ifid := none
    idex := none
    exmem := none
    memwb := none
    bht := []
    btb := []
    fwd := false
    status := .running
    stats := Stats.zero
    events := [] }

end Sys2Proof.Machine
end

