-- ==== Sys2Proof/Machine/Ops.lean ====
section
/-! DEFINITION. The named operations over registers, memory, predictor and counters, and the one operation by which an error is
taken (spec/60_exceptions.md R405) with the one way out of it, reset (spec/70_reset_and_hazards.md R460). -/

namespace Sys2Proof.Machine

/-! Partial maps. -/

/-- `M[k]?` of spec/00_scope.md R13. -/
def PMap.get {β : Type} : PMap β → Nat → Option β
  | [], _ => none
  | p :: m, k => if p.1 = k then some p.2 else PMap.get m k

/-- `M[k] := v` of spec/00_scope.md R13, keeping the keys strictly rising. -/
def PMap.set {β : Type} : PMap β → Nat → β → PMap β
  | [], k, v => [(k, v)]
  | p :: m, k, v =>
    if k < p.1 then (k, v) :: p :: m
    else if k = p.1 then (k, v) :: m
    else p :: PMap.set m k v

/-- The canonical form of a partial map: strictly rising keys. -/
abbrev PMap.wf {β : Type} (m : PMap β) : Prop := m.Pairwise (fun p q => p.1 < q.1)

/-- The canonical form of a memory: addresses strictly rising. An address that is not listed is empty (spec/10_state.md R43), so no
listed byte equals what an unlisted address reads as. -/
abbrev Memory.wf (m : Memory) : Prop := PMap.wf m

/-- One byte of a memory; `none` is an empty address (spec/10_state.md R43). -/
def Memory.byteAt (m : Memory) (a : Word) : Option Byte := PMap.get m a.toNat

/-! Registers. -/

/-- `x[i]` of spec/00_scope.md R11: register i, and 0 for x0 (spec/10_state.md R31). -/
def State.readReg (s : State) (r : RegIdx) : Word := if r = 0#5 then 0#32 else s.x[r.toNat]

/-- `x[i] <- v` of spec/00_scope.md R11: nothing for x0 (spec/10_state.md R31). -/
def State.writeReg (s : State) (r : RegIdx) (v : Word) : State :=
  if r = 0#5 then s else { s with x := s.x.set r.toNat v }

/-- The read of a source that may be absent: 0 for `none` (spec/00_scope.md R11). -/
def State.readSource (s : State) : Option RegIdx → Word
  | some r => s.readReg r
  | none   => 0#32

/-- The write of a destination that may be absent: a `none` field is not written (spec/30_encoding.md R133). -/
def State.writeDest (s : State) (rd : Option RegIdx) (v : Word) : State :=
  match rd with
  | some r => s.writeReg r v
  | none   => s

/-! Memory (spec/20_memory.md). -/

/-- An address of the data partition (R80). -/
def inDataSegment (a : Word) : Bool := dataBase ≤ a.toNat

/-- The byte addresses of an access, modulo 2^32 (R84, R85). -/
def accessAddrs (a : Word) (n : Nat) : List Word := (List.range n).map fun k => a + BitVec.ofNat 32 k

/-- The first byte address of a data access that lies below DATA_BASE (R81). -/
def firstOutsideData (as : List Word) : Option Word := as.find? fun a => !inDataSegment a

/-- One byte of a data read (R84): a byte nothing has written reads 0x00, or raises under UNWRITTEN_DATA_READ = Fault. -/
def readDataByte (u : UnwrittenDataRead) (m : Memory) (a : Word) : Except Error Byte :=
  match Memory.byteAt m a with
  | some b => .ok b
  | none =>
    match u with
    | .zero  => .ok 0#8
    | .fault => .error (.unwrittenRead a)

/-- The bytes of a data read, lowest address first, and the value they make, little-endian (R83, R84). -/
def readDataBytes (u : UnwrittenDataRead) (m : Memory) : List Word → Except Error Word
  | [] => .ok 0#32
  | a :: as =>
    match readDataByte u m a with
    | .error e => .error e
    | .ok b =>
      match readDataBytes u m as with
      | .error e => .error e
      | .ok v => .ok ((v <<< 8) ||| b.setWidth 32)

/-- `MemRead(addr, n)` (R84): the partition is checked for every byte first, then the bytes are read. The value is
zero-extended. -/
def memRead (u : UnwrittenDataRead) (m : Memory) (a : Word) (n : Nat) : Except Error Word :=
  match firstOutsideData (accessAddrs a n) with
  | some b => .error (.segmentAccessViolation b)
  | none   => readDataBytes u m (accessAddrs a n)

/-- The first n bytes of v stored from address a upwards, least significant byte first (R83, R85). -/
def storeBytes (m : Memory) (a v : Word) : Nat → Memory
  | 0 => m
  | k + 1 => PMap.set (storeBytes m a v k) (a + BitVec.ofNat 32 k).toNat (byteOfWord v k)

/-- `MemWrite(addr, n, v)` (R85): every byte is checked before any byte is written. -/
def memWrite (m : Memory) (a : Word) (n : Nat) (v : Word) : Except Error Memory :=
  match firstOutsideData (accessAddrs a n) with
  | some b => .error (.segmentAccessViolation b)
  | none   => .ok (storeBytes m a v n)

/-- `sext_32` of a value of n bytes (spec/00_scope.md R10; spec/41_loads_stores.md R251 to R253). -/
def extendLoaded (n : Nat) (v : Word) : Word :=
  if n = 1 then (v.setWidth 8).signExtend 32
  else if n = 2 then (v.setWidth 16).signExtend 32
  else v

/-- `IMemReadWord(addr)` (R86): an address of the data partition raises; a misaligned address or a missing byte is a miss. -/
def iMemReadWord (m : Memory) (a : Word) : Except Error (Option Word) :=
  if inDataSegment a then .error (.segmentAccessViolation a)
  else if a.extractLsb' 0 2 ≠ 0#2 then .ok none
  else
    match Memory.byteAt m a, Memory.byteAt m (a + 1#32), Memory.byteAt m (a + 2#32), Memory.byteAt m (a + 3#32) with
    | some b0, some b1, some b2, some b3 => .ok (some (wordOfBytes4 b0 b1 b2 b3))
    | _, _, _, _ => .ok none

/-- Four bytes of instruction memory set to a word, little-endian (spec/70_reset_and_hazards.md R462). -/
def storeInstrWord (m : Memory) (a w : Word) : Memory := storeBytes m a w 4

/-! The branch predictor (spec/45_pipeline.md R327, R331). -/

/-- The address fetched after fa (R331): the cached target when `bht` says taken, else fa + 4. -/
def predictNext (bht : PMap Bool) (btb : PMap Word) (fa : Word) : Except Fault Word :=
  match PMap.get bht fa.toNat with
  | some true =>
    match PMap.get btb fa.toNat with
    | some t => .ok t
    | none   => .error (.predictorTargetMissing fa)
  | _ => .ok (fa + 4#32)

/-- The predictor update of R327: the direction always, the target only if taken. -/
def State.updatePredictor (s : State) (pc : Word) (taken : Bool) (target : Word) : State :=
  { s with
    bht := PMap.set s.bht pc.toNat taken
    btb := if taken then PMap.set s.btb pc.toNat target else s.btb }

/-! Counters and events (spec/60_exceptions.md R414, R415). -/

/-- The three classes `CountRetired` tells apart (R414), as a test on the control flags. -/
def State.countRetired (s : State) (isMem isCtrl : Bool) : State :=
  { s with
    stats := { s.stats with
      retired   := s.stats.retired + 1
      memCount  := s.stats.memCount + (if isMem then 1 else 0)
      ctrlCount := s.stats.ctrlCount + (if !isMem && isCtrl then 1 else 0)
      aluCount  := s.stats.aluCount + (if !isMem && !isCtrl then 1 else 0) } }

/-- `ctrlHazards += 1` (R414). -/
def State.countResolved (s : State) : State :=
  { s with stats := { s.stats with ctrlHazards := s.stats.ctrlHazards + 1 } }

/-- Events appended to the cycle's log (R415). -/
def State.logEvents (s : State) (es : List Event) : State := { s with events := s.events ++ es }

/-! Errors (spec/60_exceptions.md R405) and the way out of them. -/

/-- `raise E(info)` (R405): the state the stages before the raising one left, with status Faulted. Nothing else is written; no
handler runs and nothing is saved (R400, R406). -/
def State.raise (s : State) (e : Error) : State := { s with status := .faulted e }

/-- The host's `reset()` (spec/70_reset_and_hazards.md R460): the only way out of Halted or Faulted. The parameters stay
(log entry 1). -/
def State.resetKeepingConfig (s : State) : State := { State.reset with cfg := s.cfg }

/-! What the meanings of single instructions share. The instruction stands at `s.pc`. -/

/-- Sequential advance: pc + 4 modulo 2^32 (spec/10_state.md R37, R38). -/
def State.advance (s : State) : State := { s with pc := s.pc + 4#32 }

/-- A fetch address set to t. -/
def State.jumpTo (s : State) (t : Word) : State := { s with pc := t }

/-- An instruction ends in a fatal error: it writes nothing but the status, and fetch has moved past its word (log entry 8). -/
def failWith (s : State) (e : Error) : Host.Outcome State Fault Refusal := .next (s.advance.raise e)

/-- An instruction that only writes v to rd: the result reaches x[rd], and it counts as `aluCount` (R414). -/
def finishAlu (s : State) (rd : RegIdx) (v : Word) : Host.Outcome State Fault Refusal :=
  .next ((s.advance.writeReg rd v).countRetired false false)

end Sys2Proof.Machine
end

