-- ==== Sys2Proof/Machine/Flags.lean ====
section
/-! DEFINITION. The core has no status flags and no condition codes (spec/10_state.md R39). What is computed here is the other kind of
flag the spec has: the control flags decode sets (spec/30_encoding.md R139). -/

namespace Sys2Proof.Machine

/-- `memRead` of R139: lb, lh, lw, ld. -/
def Mnemonic.readsMemory : Mnemonic → Bool
  | .lb | .lh | .lw | .ld => true
  | .add | .sub | .sll | .slt | .xor | .srl | .sra | .or | .and | .mul | .div | .rem | .addi | .andi | .ori | .jalr
  | .sb | .sh | .sw | .sd | .beq | .bne | .blt | .bge | .lui | .auipc | .jal | .halt => false

/-- `memWrite` of R139: sb, sh, sw, sd. -/
def Mnemonic.writesMemory : Mnemonic → Bool
  | .sb | .sh | .sw | .sd => true
  | .add | .sub | .sll | .slt | .xor | .srl | .sra | .or | .and | .mul | .div | .rem | .addi | .andi | .ori | .jalr
  | .lb | .lh | .lw | .ld | .beq | .bne | .blt | .bge | .lui | .auipc | .jal | .halt => false

/-- `regWrite` of R139: every instruction with a destination field. -/
def Mnemonic.writesRegister : Mnemonic → Bool
  | .add | .sub | .sll | .slt | .xor | .srl | .sra | .or | .and | .mul | .div | .rem | .addi | .andi | .ori | .lui | .auipc
  | .lb | .lh | .lw | .ld | .jal | .jalr => true
  | .sb | .sh | .sw | .sd | .beq | .bne | .blt | .bge | .halt => false

/-- `isBranch` of R139: beq, bne, blt, bge. -/
def Mnemonic.isBranch : Mnemonic → Bool
  | .beq | .bne | .blt | .bge => true
  | .add | .sub | .sll | .slt | .xor | .srl | .sra | .or | .and | .mul | .div | .rem | .addi | .andi | .ori | .lui | .auipc
  | .lb | .lh | .lw | .ld | .sb | .sh | .sw | .sd | .jal | .jalr | .halt => false

/-- `isJal` of R139. -/
def Mnemonic.isJal (m : Mnemonic) : Bool := m = .jal

/-- `isJalr` of R139. -/
def Mnemonic.isJalr (m : Mnemonic) : Bool := m = .jalr

/-- A control instruction: a branch, `jal` or `jalr` (spec/42_control.md, first paragraph). -/
def Decoded.isControl (d : Decoded) : Bool := d.isBranch || d.isJal || d.isJalr

end Sys2Proof.Machine
end

