-- ==== Sys2Proof/Machine/Operands.lean ====
section
/-! DEFINITION. Operand forms: the fields decode takes from an instruction (spec/30_encoding.md R128 to R133), the ALU operation and
operands execute selects (spec/40_alu.md R200, R202), and the widths of data accesses (spec/20_memory.md R88). -/

namespace Sys2Proof.Machine

/-- The mnemonic of an instruction (R134). -/
def mnemonicOf : Instr → Mnemonic
  | .add _ _ _ => .add
  | .sub _ _ _ => .sub
  | .sll _ _ _ => .sll
  | .slt _ _ _ => .slt
  | .xor _ _ _ => .xor
  | .srl _ _ _ => .srl
  | .sra _ _ _ => .sra
  | .or _ _ _ => .or
  | .and _ _ _ => .and
  | .mul _ _ _ => .mul
  | .div _ _ _ => .div
  | .rem _ _ _ => .rem
  | .addi _ _ _ => .addi
  | .andi _ _ _ => .andi
  | .ori _ _ _ => .ori
  | .lb _ _ _ => .lb
  | .lh _ _ _ => .lh
  | .lw _ _ _ => .lw
  | .ld _ _ _ => .ld
  | .jalr _ _ _ => .jalr
  | .sb _ _ _ => .sb
  | .sh _ _ _ => .sh
  | .sw _ _ _ => .sw
  | .sd _ _ _ => .sd
  | .beq _ _ _ => .beq
  | .bne _ _ _ => .bne
  | .blt _ _ _ => .blt
  | .bge _ _ _ => .bge
  | .lui _ _ => .lui
  | .auipc _ _ => .auipc
  | .jal _ _ => .jal
  | .halt => .halt

/-- The format of a mnemonic (R134). -/
def Mnemonic.format : Mnemonic → Format
  | .add | .sub | .sll | .slt | .xor | .srl | .sra | .or | .and | .mul | .div | .rem => .r
  | .addi | .andi | .ori | .lb | .lh | .lw | .ld | .jalr => .i
  | .sb | .sh | .sw | .sd => .s
  | .beq | .bne | .blt | .bge => .sb
  | .lui | .auipc => .u
  | .jal => .uj
  | .halt => .halt

/-- `opcode` (R134). -/
def Mnemonic.opcode : Mnemonic → BitVec 7
  | .add | .sub | .sll | .slt | .xor | .srl | .sra | .or | .and | .mul | .div | .rem => 0b0110011#7
  | .addi | .andi | .ori => 0b0010011#7
  | .lb | .lh | .lw | .ld => 0b0000011#7
  | .jalr => 0b1100111#7
  | .sb | .sh | .sw | .sd => 0b0100011#7
  | .beq | .bne | .blt | .bge => 0b1100011#7
  | .lui => 0b0110111#7
  | .auipc => 0b0010111#7
  | .jal => 0b1101111#7
  | .halt => 0b1110011#7

/-- `funct3` (R133, R134): `none` for the U and UJ formats and the halt word. -/
def Mnemonic.funct3 : Mnemonic → Option (BitVec 3)
  | .add | .sub | .mul | .addi | .lb | .jalr | .sb | .beq => some 0b000#3
  | .sll | .lh | .sh | .bne => some 0b001#3
  | .slt | .lw | .sw => some 0b010#3
  | .ld | .sd => some 0b011#3
  | .xor | .div | .blt => some 0b100#3
  | .srl | .sra | .bge => some 0b101#3
  | .or | .rem | .ori => some 0b110#3
  | .and | .andi => some 0b111#3
  | .lui | .auipc | .jal | .halt => none

/-- `funct7` (R133, R134): the R format only. -/
def Mnemonic.funct7 : Mnemonic → Option (BitVec 7)
  | .add | .sll | .slt | .xor | .srl | .or | .and => some 0b0000000#7
  | .sub | .sra => some 0b0100000#7
  | .mul | .div | .rem => some 0b0000001#7
  | .addi | .andi | .ori | .lb | .lh | .lw | .ld | .jalr | .sb | .sh | .sw | .sd | .beq | .bne | .blt | .bge | .lui | .auipc
  | .jal | .halt => none

/-- The immediate a U-format field stands for: `{imm, 12'b0}` (R131). -/
def upperImm (imm : BitVec 20) : Word := imm ++ 0#12

/-- The destination register field (R133). -/
def destOf : Instr → Option RegIdx
  | .add rd _ _ | .sub rd _ _ | .sll rd _ _ | .slt rd _ _ | .xor rd _ _ | .srl rd _ _ | .sra rd _ _ | .or rd _ _
  | .and rd _ _ | .mul rd _ _ | .div rd _ _ | .rem rd _ _ => some rd
  | .addi rd _ _ | .andi rd _ _ | .ori rd _ _ | .lb rd _ _ | .lh rd _ _ | .lw rd _ _ | .ld rd _ _ | .jalr rd _ _ => some rd
  | .lui rd _ | .auipc rd _ | .jal rd _ => some rd
  | .sb _ _ _ | .sh _ _ _ | .sw _ _ _ | .sd _ _ _ | .beq _ _ _ | .bne _ _ _ | .blt _ _ _ | .bge _ _ _ | .halt => none

/-- The first source register field (R133). -/
def source1Of : Instr → Option RegIdx
  | .add _ rs1 _ | .sub _ rs1 _ | .sll _ rs1 _ | .slt _ rs1 _ | .xor _ rs1 _ | .srl _ rs1 _ | .sra _ rs1 _ | .or _ rs1 _
  | .and _ rs1 _ | .mul _ rs1 _ | .div _ rs1 _ | .rem _ rs1 _ => some rs1
  | .addi _ rs1 _ | .andi _ rs1 _ | .ori _ rs1 _ | .lb _ rs1 _ | .lh _ rs1 _ | .lw _ rs1 _ | .ld _ rs1 _ | .jalr _ rs1 _ =>
    some rs1
  | .sb _ rs1 _ | .sh _ rs1 _ | .sw _ rs1 _ | .sd _ rs1 _ => some rs1
  | .beq rs1 _ _ | .bne rs1 _ _ | .blt rs1 _ _ | .bge rs1 _ _ => some rs1
  | .lui _ _ | .auipc _ _ | .jal _ _ | .halt => none

/-- The second source register field (R133). -/
def source2Of : Instr → Option RegIdx
  | .add _ _ rs2 | .sub _ _ rs2 | .sll _ _ rs2 | .slt _ _ rs2 | .xor _ _ rs2 | .srl _ _ rs2 | .sra _ _ rs2 | .or _ _ rs2
  | .and _ _ rs2 | .mul _ _ rs2 | .div _ _ rs2 | .rem _ _ rs2 => some rs2
  | .sb rs2 _ _ | .sh rs2 _ _ | .sw rs2 _ _ | .sd rs2 _ _ => some rs2
  | .beq _ rs2 _ | .bne _ rs2 _ | .blt _ rs2 _ | .bge _ rs2 _ => some rs2
  | .addi _ _ _ | .andi _ _ _ | .ori _ _ _ | .lb _ _ _ | .lh _ _ _ | .lw _ _ _ | .ld _ _ _ | .jalr _ _ _ => none
  | .lui _ _ | .auipc _ _ | .jal _ _ | .halt => none

/-- The immediate, extended to 32 bits (R128 to R133). -/
def immOf : Instr → Option Word
  | .addi _ _ imm | .andi _ _ imm | .ori _ _ imm | .lb _ _ imm | .lh _ _ imm | .lw _ _ imm | .ld _ _ imm | .jalr _ _ imm =>
    some (imm.signExtend 32)
  | .sb _ _ imm | .sh _ _ imm | .sw _ _ imm | .sd _ _ imm => some (imm.signExtend 32)
  | .beq _ _ imm | .bne _ _ imm | .blt _ _ imm | .bge _ _ imm => some (imm.signExtend 32)
  | .lui _ imm | .auipc _ imm => some (upperImm imm)
  | .jal _ imm => some (imm.signExtend 32)
  | .add _ _ _ | .sub _ _ _ | .sll _ _ _ | .slt _ _ _ | .xor _ _ _ | .srl _ _ _ | .sra _ _ _ | .or _ _ _ | .and _ _ _
  | .mul _ _ _ | .div _ _ _ | .rem _ _ _ | .halt => none

/-- Every field decode puts into the buffer record (spec/10_state.md R44; R133, R139). -/
def decodedFields (i : Instr) : Decoded :=
  let m := mnemonicOf i
  { ins := m
    opcode := m.opcode
    funct3 := m.funct3
    funct7 := m.funct7
    rd := destOf i
    rs1 := source1Of i
    rs2 := source2Of i
    imm := immOf i
    memRead := m.readsMemory
    memWrite := m.writesMemory
    regWrite := m.writesRegister
    isBranch := m.isBranch
    isJal := m.isJal
    isJalr := m.isJalr }

/-- The width of a data access in bytes (spec/20_memory.md R88; spec/45_pipeline.md R322); `none` where no access is made
through MemRead or MemWrite. -/
def Mnemonic.accessWidth : Mnemonic → Option Nat
  | .lb | .sb => some 1
  | .lh | .sh => some 2
  | .lw | .sw => some 4
  | .ld | .sd => none
  | .add | .sub | .sll | .slt | .xor | .srl | .sra | .or | .and | .mul | .div | .rem | .addi | .andi | .ori | .jalr
  | .beq | .bne | .blt | .bge | .lui | .auipc | .jal | .halt => none

/-- The effective address of a load or store: base plus sign-extended displacement, modulo 2^32 (spec/41_loads_stores.md R250). -/
def effectiveAddr (s : State) (rs1 : RegIdx) (imm : BitVec 12) : Word := s.readReg rs1 + imm.signExtend 32

end Sys2Proof.Machine
end

