-- ==== Sys2Proof/Machine/Alu.lean ====
section
/-! DEFINITION. The ALU (spec/40_alu.md R200, R201, R221) and its operation and operand selection (R200, R202). -/

namespace Sys2Proof.Machine

/-- The 16 ALU operations (R200). -/
inductive AluOp where
  | add | sub | and | or | xor | sll | srl | sra | slt | mul | div | rem | eq | ne | lt | ge
deriving DecidableEq, Repr

/-- A comparison result as a word: 1 or 0 (R201). -/
def boolWord (b : Bool) : Word := if b then 1#32 else 0#32

/-- The operand pairs of R221 that have no quotient in the number format: a zero divisor, and -2^31 by -1. -/
def divisionUndefined (a b : Word) : Bool := b.toInt = 0 || (a.toInt = -2 ^ 31 && b.toInt = -1)

/-- `DivQ` (R221): the quotient rounded toward zero; `none` raises ArithmeticUndefined. -/
def divQ (p : DivPolicy) (a b : Word) : Option Word :=
  if divisionUndefined a b then
    match p with
    | .fault => none
    | .riscv => if b.toInt = 0 then some 0xFFFFFFFF#32 else some 0x80000000#32
  else some (BitVec.ofInt 32 (a.toInt.tdiv b.toInt))

/-- `DivR` (R221): the remainder sa - q*sb; `none` raises ArithmeticUndefined. -/
def divR (p : DivPolicy) (a b : Word) : Option Word :=
  if divisionUndefined a b then
    match p with
    | .fault => none
    | .riscv => if b.toInt = 0 then some a else some 0#32
  else some (BitVec.ofInt 32 (a.toInt - a.toInt.tdiv b.toInt * b.toInt))

/-- The ALU (R201). A shift uses only `b[4:0]`; comparisons are signed. `none` is the raise of R221. -/
def alu (p : DivPolicy) (op : AluOp) (a b : Word) : Option Word :=
  let sh := (b.extractLsb' 0 5).toNat
  match op with
  | .add => some (a + b)
  | .sub => some (a - b)
  | .and => some (a &&& b)
  | .or  => some (a ||| b)
  | .xor => some (a ^^^ b)
  | .sll => some (a <<< sh)
  | .srl => some (a >>> sh)
  | .sra => some (a.sshiftRight sh)
  | .slt => some (boolWord (decide (a.toInt < b.toInt)))
  | .mul => some (BitVec.ofInt 32 (a.toInt * b.toInt))
  | .div => divQ p a b
  | .rem => divR p a b
  | .eq  => some (boolWord (decide (a = b)))
  | .ne  => some (boolWord (decide (a ≠ b)))
  | .lt  => some (boolWord (decide (a.toInt < b.toInt)))
  | .ge  => some (boolWord (decide (b.toInt ≤ a.toInt)))

/-- `aop` (R200): the operation execute selects for a mnemonic; the halt word runs no ALU. -/
def aluOpOf : Mnemonic → Option AluOp
  | .add | .addi | .lui | .auipc | .lb | .lh | .lw | .ld | .sb | .sh | .sw | .sd | .jalr | .jal => some .add
  | .sub => some .sub
  | .and | .andi => some .and
  | .or | .ori => some .or
  | .xor => some .xor
  | .sll => some .sll
  | .srl => some .srl
  | .sra => some .sra
  | .slt => some .slt
  | .mul => some .mul
  | .div => some .div
  | .rem => some .rem
  | .beq => some .eq
  | .bne => some .ne
  | .blt => some .lt
  | .bge => some .ge
  | .halt => none

/-- `cmp` (spec/42_control.md R280): the comparison of a branch mnemonic. -/
def compareOpOf : Mnemonic → Option AluOp
  | .beq => some .eq
  | .bne => some .ne
  | .blt => some .lt
  | .bge => some .ge
  | .add | .sub | .sll | .slt | .xor | .srl | .sra | .or | .and | .mul | .div | .rem | .addi | .andi | .ori | .lb | .lh | .lw
  | .ld | .jalr | .sb | .sh | .sw | .sd | .lui | .auipc | .jal | .halt => none

/-- `op1` (R202): the instruction's own pc for auipc, else `v1`. -/
def aluOperand1 (d : IDEX) : Word := if d.ins = .auipc then d.pc else d.v1

/-- `op2` (R202): `v2` for the R and SB formats, else the immediate. -/
def aluOperand2 (d : IDEX) : Option Word :=
  if d.ins.format = .r ∨ d.ins.format = .sb then some d.v2 else d.imm

end Sys2Proof.Machine
end

