-- ==== Sys2Proof/Machine/ControlTransfer.lean ====
section
/-! DEFINITION. The meanings of the control instructions (spec/42_control.md R280 to R289), each the whole effect of the
instruction at `s.pc` (log entry 7). -/

namespace Sys2Proof.Machine

/-- What every resolution does (R280; spec/45_pipeline.md R327; spec/60_exceptions.md R414): the predictor takes the outcome,
`ctrlHazards` and the retired counters count, and pc is the resolved next pc. -/
def resolveTo (s : State) (taken : Bool) (target : Word) : State :=
  ((s.updatePredictor s.pc taken target).jumpTo (if taken then target else s.pc + 4#32)).countResolved.countRetired false true

/-- A conditional branch (R281 to R284): the comparison bit selects pc + immB or pc + 4; no register is written. -/
def branchOp (taken : Bool) (imm : BitVec 13) (s : State) : Host.Outcome State Fault Refusal :=
  .next (resolveTo s taken (s.pc + imm.signExtend 32))

/-- `beq` (R281). -/
def execBeq (rs1 rs2 : RegIdx) (imm : BitVec 13) (s : State) : Host.Outcome State Fault Refusal :=
  branchOp (decide (s.readReg rs1 = s.readReg rs2)) imm s
/-- `bne` (R282). -/
def execBne (rs1 rs2 : RegIdx) (imm : BitVec 13) (s : State) : Host.Outcome State Fault Refusal :=
  branchOp (decide (s.readReg rs1 ≠ s.readReg rs2)) imm s
/-- `blt` (R283): signed. -/
def execBlt (rs1 rs2 : RegIdx) (imm : BitVec 13) (s : State) : Host.Outcome State Fault Refusal :=
  branchOp (decide ((s.readReg rs1).toInt < (s.readReg rs2).toInt)) imm s
/-- `bge` (R284): signed. -/
def execBge (rs1 rs2 : RegIdx) (imm : BitVec 13) (s : State) : Host.Outcome State Fault Refusal :=
  branchOp (decide ((s.readReg rs2).toInt ≤ (s.readReg rs1).toInt)) imm s

/-- The target of `jalr` (R280, R286): (x[rs1] + immI) with bit 0 cleared. -/
def jalrTarget (v1 imm : Word) : Word := (v1 + imm) &&& 0xFFFFFFFE#32

/-- `jal` (R285): jump to pc + immJ; x[rd] is pc + 4. -/
def execJal (rd : RegIdx) (imm : BitVec 21) (s : State) : Host.Outcome State Fault Refusal :=
  .next ((resolveTo s true (s.pc + imm.signExtend 32)).writeReg rd (s.pc + 4#32))
/-- `jalr` (R286): jump to (x[rs1] + immI) with bit 0 cleared, from the old x[rs1]; x[rd] is pc + 4. -/
def execJalr (rd rs1 : RegIdx) (imm : BitVec 12) (s : State) : Host.Outcome State Fault Refusal :=
  .next ((resolveTo s true (jalrTarget (s.readReg rs1) (imm.signExtend 32))).writeReg rd (s.pc + 4#32))

end Sys2Proof.Machine
end

