-- ==== Sys2Proof/Machine/Integer.lean ====
section
/-! DEFINITION. The meanings of the integer instructions (spec/40_alu.md R203 to R219). A meaning is the whole effect of the
instruction at `s.pc`, completed alone and in order (log entry 7); the pipeline's cycle is Machine/Pipeline.lean. -/

namespace Sys2Proof.Machine

/-- A register-register operation: the ALU on x[rs1] and x[rs2] (R202), or ArithmeticUndefined (R221). -/
def regRegOp (op : AluOp) (rd rs1 rs2 : RegIdx) (s : State) : Host.Outcome State Fault Refusal :=
  match alu s.cfg.divPolicy op (s.readReg rs1) (s.readReg rs2) with
  | some v => finishAlu s rd v
  | none   => failWith s (.arithmeticUndefined s.pc)

/-- A register-immediate operation: the ALU on x[rs1] and immI (R202, R128). -/
def regImmOp (op : AluOp) (rd rs1 : RegIdx) (imm : BitVec 12) (s : State) : Host.Outcome State Fault Refusal :=
  match alu s.cfg.divPolicy op (s.readReg rs1) (imm.signExtend 32) with
  | some v => finishAlu s rd v
  | none   => failWith s (.arithmeticUndefined s.pc)

/-- `add` (R203): x[rs1] + x[rs2] modulo 2^32. -/
def execAdd (rd rs1 rs2 : RegIdx) (s : State) : Host.Outcome State Fault Refusal := regRegOp .add rd rs1 rs2 s
/-- `sub` (R204): x[rs1] - x[rs2] modulo 2^32. -/
def execSub (rd rs1 rs2 : RegIdx) (s : State) : Host.Outcome State Fault Refusal := regRegOp .sub rd rs1 rs2 s
/-- `sll` (R208): shift left by x[rs2][4:0]. -/
def execSll (rd rs1 rs2 : RegIdx) (s : State) : Host.Outcome State Fault Refusal := regRegOp .sll rd rs1 rs2 s
/-- `slt` (R211): 1 if signed x[rs1] < signed x[rs2], else 0. -/
def execSlt (rd rs1 rs2 : RegIdx) (s : State) : Host.Outcome State Fault Refusal := regRegOp .slt rd rs1 rs2 s
/-- `xor` (R207). -/
def execXor (rd rs1 rs2 : RegIdx) (s : State) : Host.Outcome State Fault Refusal := regRegOp .xor rd rs1 rs2 s
/-- `srl` (R209): logical shift right by x[rs2][4:0]. -/
def execSrl (rd rs1 rs2 : RegIdx) (s : State) : Host.Outcome State Fault Refusal := regRegOp .srl rd rs1 rs2 s
/-- `sra` (R210): arithmetic shift right by x[rs2][4:0]. -/
def execSra (rd rs1 rs2 : RegIdx) (s : State) : Host.Outcome State Fault Refusal := regRegOp .sra rd rs1 rs2 s
/-- `or` (R206). -/
def execOr (rd rs1 rs2 : RegIdx) (s : State) : Host.Outcome State Fault Refusal := regRegOp .or rd rs1 rs2 s
/-- `and` (R205). -/
def execAnd (rd rs1 rs2 : RegIdx) (s : State) : Host.Outcome State Fault Refusal := regRegOp .and rd rs1 rs2 s
/-- `mul` (R212): the low 32 bits of the signed product. -/
def execMul (rd rs1 rs2 : RegIdx) (s : State) : Host.Outcome State Fault Refusal := regRegOp .mul rd rs1 rs2 s
/-- `div` (R213): the signed quotient toward zero, or ArithmeticUndefined under DIV_POLICY = Fault (R221). -/
def execDiv (rd rs1 rs2 : RegIdx) (s : State) : Host.Outcome State Fault Refusal := regRegOp .div rd rs1 rs2 s
/-- `rem` (R214): the signed remainder, or ArithmeticUndefined under DIV_POLICY = Fault (R221). -/
def execRem (rd rs1 rs2 : RegIdx) (s : State) : Host.Outcome State Fault Refusal := regRegOp .rem rd rs1 rs2 s

/-- `addi` (R215): x[rs1] + immI modulo 2^32. -/
def execAddi (rd rs1 : RegIdx) (imm : BitVec 12) (s : State) : Host.Outcome State Fault Refusal := regImmOp .add rd rs1 imm s
/-- `andi` (R216). -/
def execAndi (rd rs1 : RegIdx) (imm : BitVec 12) (s : State) : Host.Outcome State Fault Refusal := regImmOp .and rd rs1 imm s
/-- `ori` (R217). -/
def execOri (rd rs1 : RegIdx) (imm : BitVec 12) (s : State) : Host.Outcome State Fault Refusal := regImmOp .or rd rs1 imm s

/-- `lui` (R218): `{imm, 12'b0}`. -/
def execLui (rd : RegIdx) (imm : BitVec 20) (s : State) : Host.Outcome State Fault Refusal := finishAlu s rd (upperImm imm)
/-- `auipc` (R219): the instruction's own pc plus immU, modulo 2^32. -/
def execAuipc (rd : RegIdx) (imm : BitVec 20) (s : State) : Host.Outcome State Fault Refusal :=
  finishAlu s rd (s.pc + upperImm imm)

end Sys2Proof.Machine
end

