-- ==== Sys2Proof/Machine/LoadStore.lean ====
section
/-! DEFINITION. The meanings of the loads and stores (spec/41_loads_stores.md R250 to R260), each the whole effect of the
instruction at `s.pc` (log entry 7). -/

namespace Sys2Proof.Machine

/-- A load of n bytes: MemRead at the effective address, sign-extended into x[rd] (R251 to R253). -/
def loadOp (n : Nat) (rd rs1 : RegIdx) (imm : BitVec 12) (s : State) : Host.Outcome State Fault Refusal :=
  match memRead s.cfg.unwrittenDataRead s.dmem (effectiveAddr s rs1 imm) n with
  | .ok v    => .next ((s.advance.writeReg rd (extendLoaded n v)).countRetired true false)
  | .error e => failWith s e

/-- A store of the low n bytes of x[rs2] at the effective address (R255 to R257). -/
def storeOp (n : Nat) (rs2 rs1 : RegIdx) (imm : BitVec 12) (s : State) : Host.Outcome State Fault Refusal :=
  match memWrite s.dmem (effectiveAddr s rs1 imm) n (s.readReg rs2) with
  | .ok m    => .next ({ s.advance with dmem := m }.countRetired true false)
  | .error e => failWith s e

/-- `lb` (R251). -/
def execLb (rd rs1 : RegIdx) (imm : BitVec 12) (s : State) : Host.Outcome State Fault Refusal := loadOp 1 rd rs1 imm s
/-- `lh` (R252). -/
def execLh (rd rs1 : RegIdx) (imm : BitVec 12) (s : State) : Host.Outcome State Fault Refusal := loadOp 2 rd rs1 imm s
/-- `lw` (R253). -/
def execLw (rd rs1 : RegIdx) (imm : BitVec 12) (s : State) : Host.Outcome State Fault Refusal := loadOp 4 rd rs1 imm s
/-- `ld` (R254): always UnsupportedWidth, before any memory access. -/
def execLd (_rd _rs1 : RegIdx) (_imm : BitVec 12) (s : State) : Host.Outcome State Fault Refusal :=
  failWith s (.unsupportedWidth s.pc)

/-- `sb` (R255). -/
def execSb (rs2 rs1 : RegIdx) (imm : BitVec 12) (s : State) : Host.Outcome State Fault Refusal := storeOp 1 rs2 rs1 imm s
/-- `sh` (R256). -/
def execSh (rs2 rs1 : RegIdx) (imm : BitVec 12) (s : State) : Host.Outcome State Fault Refusal := storeOp 2 rs2 rs1 imm s
/-- `sw` (R257). -/
def execSw (rs2 rs1 : RegIdx) (imm : BitVec 12) (s : State) : Host.Outcome State Fault Refusal := storeOp 4 rs2 rs1 imm s
/-- `sd` (R258): always UnsupportedWidth, and no byte is written. -/
def execSd (_rs2 _rs1 : RegIdx) (_imm : BitVec 12) (s : State) : Host.Outcome State Fault Refusal :=
  failWith s (.unsupportedWidth s.pc)

end Sys2Proof.Machine
end

