-- ==== Sys2Proof/Machine/System.lean ====
section
/-! DEFINITION. The meaning of the halt word (spec/43_system.md R310), the only system instruction (R311). -/

namespace Sys2Proof.Machine

/-- The halt word (R310): no register is written, nothing is counted as retired, and the status becomes Halted. Fetch has moved past
its word (log entry 8). -/
def execHalt (s : State) : Host.Outcome State Fault Refusal := .next { s.advance with status := .halted }

end Sys2Proof.Machine
end

