-- ==== Sys2Proof/Machine/Hazard.lean ====
section
/-! DEFINITION. The hazard detection and forwarding unit (spec/70_reset_and_hazards.md R470 to R477). -/

namespace Sys2Proof.Machine

/-- `exHit` (R472, R474): EX/MEM holds a producer of register r. -/
def exHit (exmem : Option EXMEM) (r : RegIdx) : Bool :=
  match exmem with
  | some p => p.regWrite && decide (p.rd = some r)
  | none   => false

/-- `memHit` (R472, R474): MEM/WB holds a producer of register r. -/
def memHit (memwb : Option MEMWB) (r : RegIdx) : Bool :=
  match memwb with
  | some q => q.regWrite && decide (q.rd = some r)
  | none   => false

/-- What the unit finds for one source operand. -/
structure OperandCheck where
  /-- Decode stalls. -/
  stall   : Bool
  /-- A producer hits. -/
  hit     : Bool
  /-- The operand's value, when it does not stall. -/
  value   : Word
  /-- The Hazard events. -/
  hazards : List Event
  /-- The Forward events, kept only when decode does not stall. -/
  fwds    : List Event
deriving DecidableEq, Repr

/-- The Hazard events of one operand: EX first, then MEM (R474). -/
def hazardEvents (s : State) (name : Source) (r : RegIdx) : List Event :=
  (if exHit s.exmem r then [.hazard .ex name r] else []) ++ (if memHit s.memwb r then [.hazard .mem name r] else [])

/-- The loop body of R474 for one operand (R471, R472): an absent operand or x0 is 0 and never hits; an EX/MEM producer takes
precedence over a MEM/WB one. -/
def checkOperand (s : State) (name : Source) (src : Option RegIdx) : OperandCheck :=
  match src with
  | none => { stall := false, hit := false, value := 0#32, hazards := [], fwds := [] }
  | some r =>
    if r = 0#5 then { stall := false, hit := false, value := 0#32, hazards := [], fwds := [] }
    else
      match exHit s.exmem r, s.exmem, memHit s.memwb r, s.memwb with
      | true, some p, _, _ =>
        if !s.fwd || p.memRead then
          { stall := true, hit := true, value := 0#32, hazards := hazardEvents s name r, fwds := [] }
        else
          { stall := false, hit := true, value := p.result, hazards := hazardEvents s name r,
            fwds := [.forward .ex name r p.result] }
      | _, _, true, some q =>
        if !s.fwd then { stall := true, hit := true, value := 0#32, hazards := hazardEvents s name r, fwds := [] }
        else
          { stall := false, hit := true, value := q.wbValue, hazards := hazardEvents s name r,
            fwds := [.forward .mem name r q.wbValue] }
      | _, _, _, _ => { stall := false, hit := false, value := s.readReg r, hazards := [], fwds := [] }

/-- The counters the unit moves (R474; spec/60_exceptions.md R414). -/
def State.countHazards (s : State) (hit stall : Bool) : State :=
  { s with
    stats := { s.stats with
      dataHazards := s.stats.dataHazards + (if hit then 1 else 0)
      stalls      := s.stats.stalls + (if stall then 1 else 0) } }

/-- What HazardUnit returns: the state with events and counters, whether decode stalls, and the two operand values. -/
structure HazardResult where
  state : State
  stall : Bool
  v1    : Word
  v2    : Word

/-- `HazardUnit(D)` (R474) for the instruction at address pc. The stall of either operand stalls the instruction. -/
def hazardUnit (s : State) (pc : Word) (d : Decoded) : HazardResult :=
  let c1 := checkOperand s .rs1 d.rs1
  let c2 := checkOperand s .rs2 d.rs2
  let stall := c1.stall || c2.stall
  { state := (s.countHazards (c1.hit || c2.hit) stall).logEvents
      (c1.hazards ++ c2.hazards ++ (if stall then [.stall pc] else c1.fwds ++ c2.fwds))
    stall := stall
    v1 := c1.value
    v2 := c2.value }

end Sys2Proof.Machine
end

