-- ==== Sys2Proof/Machine/Pipeline.lean ====
section
/-! DEFINITION. The pipeline engine's cycle (spec/45_pipeline.md R320 to R338): the five stages in the order WB, MEM, EX, ID, IF, and
the whole cycle R322. -/

namespace Sys2Proof.Machine

/-- How a stage ends: with a value, with a fatal error (spec/60_exceptions.md R405), or stuck in a state no run reaches. -/
inductive StageOut (α : Type) where
  | ok    (a : α)
  | raise (e : Error)
  | stuck (f : Fault)

/-! Write-back (R323). -/

/-- `if m.regWrite then x[m.rd] <- m.wbValue` (R322). -/
def writeBackReg (s : State) (m : MEMWB) : State := if m.regWrite then s.writeDest m.rd m.wbValue else s

/-- The WB stage (R322, R323): the register write and `CountRetired` for a non-halt instruction; the flag is `haltSeen`. -/
def wbStage (s : State) : State × Bool :=
  match s.memwb with
  | none   => (s, false)
  | some m =>
    if m.ins = .halt then (s, true)
    else ((writeBackReg s m).countRetired (m.memRead || m.memWrite) m.isControl, false)

/-! Memory (R324). -/

/-- The store part of the MEM stage (R322, R259): data memory after `MemWrite(e.result, width, e.v2)`. -/
def memStoreAccess (s : State) (e : EXMEM) : StageOut Memory :=
  if e.memWrite then
    match e.ins.accessWidth with
    | some n =>
      match memWrite s.dmem e.result n e.v2 with
      | .ok m    => .ok m
      | .error r => .raise r
    | none => .stuck (.inconsistentBuffer e.pc)
  else .ok s.dmem

/-- The load part of the MEM stage (R322): `wbValue`, which is `result` unless the instruction loads. -/
def memLoadAccess (s : State) (e : EXMEM) (m : Memory) : StageOut Word :=
  if e.memRead then
    match e.ins.accessWidth with
    | some n =>
      match memRead s.cfg.unwrittenDataRead m e.result n with
      | .ok v    => .ok (extendLoaded n v)
      | .error r => .raise r
    | none => .stuck (.inconsistentBuffer e.pc)
  else .ok e.result

/-- The MEM stage (R322, R324): `ld` and `sd` raise UnsupportedWidth before any access (spec/41_loads_stores.md R254, R258). -/
def memStage (s : State) : StageOut State :=
  match s.exmem with
  | none   => .ok { s with memwb := none }
  | some e =>
    if e.ins = .ld ∨ e.ins = .sd then .raise (.unsupportedWidth e.pc)
    else
      match memStoreAccess s e with
      | .raise r => .raise r
      | .stuck f => .stuck f
      | .ok m =>
        match memLoadAccess s e m with
        | .raise r => .raise r
        | .stuck f => .stuck f
        | .ok v => .ok { s with dmem := m, memwb := some { e with wbValue := v } }

/-! Execute (R325 to R327). -/

/-- The ALU's output in the EX stage (R325): `ALU(aop, op1, op2)`. -/
def exAlu (s : State) (d : IDEX) : StageOut Word :=
  match aluOpOf d.ins, aluOperand2 d with
  | some op, some b =>
    match alu s.cfg.divPolicy op (aluOperand1 d) b with
    | some v => .ok v
    | none   => .raise (.arithmeticUndefined d.pc)
  | _, _ => .stuck (.inconsistentBuffer d.pc)

/-- `(taken, target)` of `Resolve(d)` (spec/42_control.md R280). Branch and `jal` targets come from a separate adder. -/
def resolve (s : State) (d : IDEX) : StageOut (Bool × Word) :=
  match d.imm with
  | none     => .stuck (.inconsistentBuffer d.pc)
  | some imm =>
    if d.isBranch then
      match compareOpOf d.ins with
      | none    => .stuck (.inconsistentBuffer d.pc)
      | some op => .ok (decide (alu s.cfg.divPolicy op d.v1 d.v2 = some 1#32), d.pc + imm)
    else if d.isJal then .ok (true, d.pc + imm)
    else .ok (true, jalrTarget d.v1 imm)

/-- The resolved next pc (R280). -/
def resolvedNext (pc : Word) (taken : Bool) (target : Word) : Word := if taken then target else pc + 4#32

/-- The misprediction test of R326: IF/ID, as the previous cycle left it, does not hold the resolved next address. -/
def mispredicted (s : State) (next : Word) : Bool :=
  match s.ifid with
  | none   => true
  | some f => decide (f.pc ≠ next)

/-- `mispredicts += 1` (spec/60_exceptions.md R414). -/
def State.countMispredict (s : State) : State :=
  { s with stats := { s.stats with mispredicts := s.stats.mispredicts + 1 } }

/-- The misprediction flush (R326): IF/ID and ID/EX become bubbles, and the flush is counted and logged. -/
def flush (s : State) (pc next : Word) : State :=
  { s.countMispredict.logEvents [.flush pc next] with ifid := none, idex := none }

/-- A resolution in the EX stage (R322, R326, R327): hazard count, predictor update, and on a misprediction the flush with the
redirect. -/
def applyResolution (s : State) (pc : Word) (taken : Bool) (target : Word) : State × Option Word :=
  let s1 := s.countResolved.updatePredictor pc taken target
  let next := resolvedNext pc taken target
  if mispredicted s1 next then (flush s1 pc next, some next) else (s1, none)

/-- The EX stage (R322, R325): the state with EX/MEM written, and `redirect`. -/
def exStage (s : State) : StageOut (State × Option Word) :=
  match s.idex with
  | none   => .ok ({ s with exmem := none }, none)
  | some d =>
    if d.ins = .halt then .ok ({ s with exmem := some { d with result := 0#32 } }, none)
    else
      match exAlu s d with
      | .raise r => .raise r
      | .stuck f => .stuck f
      | .ok v =>
        if d.isControl then
          match resolve s d with
          | .raise r => .raise r
          | .stuck f => .stuck f
          | .ok (taken, target) =>
            let r := applyResolution s d.pc taken target
            .ok ({ r.1 with exmem := some { d with result := if d.isJal || d.isJalr then d.nextPc else v } }, r.2)
        else .ok ({ s with exmem := some { d with result := v } }, none)

/-! Decode (R328, R329). -/

/-- The ID/EX record of an instruction: every IF/ID field, every decoded field, and the operand values (R329). -/
def issueRecord (f : IFID) (d : Decoded) (v1 v2 : Word) : IDEX :=
  { toIFID := f, toDecoded := d, v1 := v1, v2 := v2 }

/-- The ID stage (R322, R328, R329): the state with ID/EX written, and `stallPc`. A word outside R134 raises UnknownMnemonic. -/
def idStage (s : State) : StageOut (State × Option Word) :=
  match s.ifid with
  | none   => .ok ({ s with idex := none }, none)
  | some f =>
    match decode f.word with
    | none   => .raise (.unknownWord f.word)
    | some i =>
      let h := hazardUnit s f.pc (decodedFields i)
      if h.stall then .ok ({ h.state with idex := none }, some f.pc)
      else .ok ({ h.state with idex := some (issueRecord f (decodedFields i) h.v1 h.v2) }, none)

/-! Fetch (R330 to R334). -/

/-- The IF/ID record of a fetched word (R322, R36). -/
def fetchRecord (fa w : Word) : IFID := { pc := fa, nextPc := fa + 4#32, word := w }

/-- A fetch at fa (R322, R330, R331, R334): a miss is a bubble with pc = fa. -/
def fetchAt (s : State) (fa : Word) : StageOut State :=
  match iMemReadWord s.imem fa with
  | .error e     => .raise e
  | .ok none     => .ok { s with ifid := none, pc := fa }
  | .ok (some w) =>
    match predictNext s.bht s.btb fa with
    | .error f => .stuck f
    | .ok next => .ok { s with ifid := some (fetchRecord fa w), pc := next }

/-- The IF stage (R322, R332, R333): a redirect is a bubble with pc = the target; a stall fetches the stalled address again. -/
def ifStage (s : State) (redirect stallPc : Option Word) : StageOut State :=
  match redirect with
  | some t => .ok { s with ifid := none, pc := t }
  | none   => fetchAt s (stallPc.getD s.pc)

/-! The cycle (R322). -/

/-- The end of a completed cycle: `cycles += 1`, and Halted if write-back saw the halt word (R336). -/
def endCycle (s : State) (haltSeen : Bool) : State :=
  { s with
    stats := { s.stats with cycles := s.stats.cycles + 1 }
    status := if haltSeen then .halted else s.status }

/-- A stage's end as the cycle's: an error leaves the state the stages before it made, with status Faulted
(spec/60_exceptions.md R405). -/
def StageOut.thenRun {α : Type} (before : State) (o : StageOut α) (k : α → Host.Outcome State Fault Refusal) :
    Host.Outcome State Fault Refusal :=
  match o with
  | .ok a    => k a
  | .raise e => .next (before.raise e)
  | .stuck f => .fault f

/-- One cycle of a running engine (R322). The wires `haltSeen`, `redirect` and `stallPc` are values passed between the stages
(spec/10_state.md R49). -/
def runCycle (s : State) : Host.Outcome State Fault Refusal :=
  let wb := wbStage { s with events := [] }
  (memStage wb.1).thenRun wb.1 fun s2 =>
    (exStage s2).thenRun s2 fun ex =>
      (idStage ex.1).thenRun ex.1 fun id =>
        (ifStage id.1 ex.2 id.2).thenRun id.1 fun s5 =>
          .next (endCycle s5 wb.2)

/-- `Step()` (R322, R337): an engine that has left Running changes nothing. -/
def cycle (s : State) : Host.Outcome State Fault Refusal :=
  if s.status = .running then runCycle s else .next s

end Sys2Proof.Machine
end

