-- ==== Sys2Proof/Machine/Step.lean ====
section
/-! DEFINITION. The step of the machine: one clock cycle (spec/60_exceptions.md R412), and the placing of one instruction where the
next step fetches it. -/

namespace Sys2Proof.Machine

/-- One call of the engine's `step` is one clock cycle (spec/45_pipeline.md R320, R322). -/
def step (s : State) : Host.Outcome State Fault Refusal := cycle s

/-- The address `withFetchWord` places a word at (log entry 9): the fetch address, or TEXT_BASE where that, or the address after it, is
none that can be fetched from. -/
def State.placeAddr (s : State) : Word :=
  if inDataSegment s.pc || inDataSegment (s.pc + 4#32) || s.pc.extractLsb' 0 2 != 0#2 then textBase else s.pc

/-- An otherwise empty running pipeline that has just fetched word w from address a, where instruction memory holds it. -/
def State.withFetched (s : State) (a w : Word) : State :=
  { s with
    imem := storeInstrWord s.imem a w
    pc := a + 4#32
    ifid := some (fetchRecord a w)
    idex := none
    exmem := none
    memwb := none
    status := .running }

/-- s with one instruction placed so that the very next step runs it (log entry 9). A step is one cycle and an instruction passes
through five, so the word is placed where the cycle that executes it takes it from: it stands in instruction memory, and, fetched and
decoded by the engine's own decode stage, in ID/EX. A word that does not decode is left in IF/ID, and the next step raises its
UnknownMnemonic. -/
def State.withFetchWord (s : State) (nbits w : Nat) : State :=
  let p := s.withFetched s.placeAddr (BitVec.ofNat 32 (w % 2 ^ nbits))
  match idStage p with
  | .ok (q, _) => { q with ifid := none }
  | .raise _   => p
  | .stuck _   => p

end Sys2Proof.Machine
end

