-- ==== Sys2Proof/Machine/Encoder.lean ====
section
/-! DEFINITION. The instruction encoder (spec/30_encoding.md R140 to R150, R152, R164, R165): from a mnemonic and its operand tokens
to a machine word with its trace fields, or an error. Splitting a line into tokens is outside the core
(spec/00_scope.md R6). -/

namespace Sys2Proof.Machine

/-- Why the assembler stops: an error of spec/60_exceptions.md R401, or a statement whose operand count or shape does not fit its
class, which a model refuses (R152; spec/93_implementation_defined.md row 10). -/
inductive AsmStop where
  | error (e : Error)
  | shape (name : Text)
deriving DecidableEq, Repr

/-- The symbol table: label names to byte addresses (R140, R155). -/
abbrev SymTab := List (Text × Nat)

/-- The address of a label. -/
def SymTab.find (t : SymTab) (l : Text) : Option Nat :=
  match t with
  | [] => none
  | p :: t => if p.1 = l then some p.2 else SymTab.find t l

/-! Mnemonics (R134, R164, R165). -/

/-- The admitted mnemonics as written, in lower case; HALT is not among them (R164). -/
def mnemonicNames : List (Text × Mnemonic) :=
  [(['a','d','d'], .add), (['s','u','b'], .sub), (['s','l','l'], .sll), (['s','l','t'], .slt), (['x','o','r'], .xor),
   (['s','r','l'], .srl), (['s','r','a'], .sra), (['o','r'], .or), (['a','n','d'], .and), (['m','u','l'], .mul),
   (['d','i','v'], .div), (['r','e','m'], .rem), (['a','d','d','i'], .addi), (['a','n','d','i'], .andi)] ++
  [(['o','r','i'], .ori), (['l','b'], .lb), (['l','h'], .lh), (['l','w'], .lw), (['l','d'], .ld),
   (['j','a','l','r'], .jalr), (['s','b'], .sb), (['s','h'], .sh), (['s','w'], .sw), (['s','d'], .sd)] ++
  [(['b','e','q'], .beq), (['b','n','e'], .bne), (['b','l','t'], .blt), (['b','g','e'], .bge), (['l','u','i'], .lui),
   (['a','u','i','p','c'], .auipc), (['j','a','l'], .jal)]

/-- The value of the first pair with a given name. -/
def findNamed {β : Type} : List (Text × β) → Text → Option β
  | [], _ => none
  | p :: t, n => if p.1 = n then some p.2 else findNamed t n

/-- A mnemonic token, matched case-sensitively (R165). -/
def parseMnemonic (t : Text) : Option Mnemonic := findNamed mnemonicNames t

/-! Registers and literals (R142, R143). -/

/-- The value of a digit in a base up to 16. -/
def digitValue (base : Nat) (c : Char) : Option Nat :=
  let n := c.toNat
  let v :=
    if 48 ≤ n ∧ n ≤ 57 then some (n - 48)
    else if 97 ≤ n ∧ n ≤ 102 then some (n - 87)
    else if 65 ≤ n ∧ n ≤ 70 then some (n - 55)
    else none
  match v with
  | some d => if d < base then some d else none
  | none   => none

/-- Digits read in a base onto an accumulator. -/
def digitsOnto (base acc : Nat) : Text → Option Nat
  | [] => some acc
  | c :: t =>
    match digitValue base c with
    | some d => digitsOnto base (acc * base + d) t
    | none   => none

/-- One or more digits in a base. -/
def parseDigits (base : Nat) (t : Text) : Option Nat := if t = [] then none else digitsOnto base 0 t

/-- A register operand: `x` and one or more decimal digits of value at most 31 (R142). -/
def parseRegister (t : Text) : Except Error RegIdx :=
  match t with
  | 'x' :: ds =>
    match parseDigits 10 ds with
    | some v => if v ≤ 31 then .ok (BitVec.ofNat 5 v) else .error (.unknownRegister t)
    | none   => .error (.unknownRegister t)
  | _ => .error (.unknownRegister t)

/-- How a literal is written (R143). -/
inductive LiteralKind where
  | decimal | hex | binary | char
deriving DecidableEq, Repr

/-- A literal: its kind, its sign and its magnitude (R143). -/
structure Literal where
  kind      : LiteralKind
  negative  : Bool
  magnitude : Nat
deriving DecidableEq, Repr

/-- The value of a literal (R143). -/
def Literal.value (l : Literal) : Int := if l.negative then -(l.magnitude : Int) else (l.magnitude : Int)

/-- `num` of R143: decimal, `0x` hex or `0b` binary digits, read as a magnitude. -/
def parseNumber (negative : Bool) (t : Text) : Option Literal :=
  match t with
  | '0' :: 'x' :: ds => (parseDigits 16 ds).map fun v => { kind := .hex, negative := negative, magnitude := v }
  | '0' :: 'b' :: ds => (parseDigits 2 ds).map fun v => { kind := .binary, negative := negative, magnitude := v }
  | ds => (parseDigits 10 ds).map fun v => { kind := .decimal, negative := negative, magnitude := v }

/-- `char` of R143: one printable ASCII character between single quotes. -/
def parseCharLiteral (t : Text) : Option Literal :=
  match t with
  | ['\'', c, '\''] =>
    if 32 ≤ c.toNat ∧ c.toNat ≤ 126 then some { kind := .char, negative := false, magnitude := c.toNat } else none
  | _ => none

/-- `imm` of R143: `['-'] num | char`; any other token is MalformedNumber. -/
def parseLiteral (t : Text) : Except Error Literal :=
  let parsed :=
    match t with
    | '\'' :: _ => parseCharLiteral t
    | '-' :: r  => parseNumber true r
    | _         => parseNumber false t
  match parsed with
  | some l => .ok l
  | none   => .error (.malformedNumber t)

/-- A range check: ValueOutOfRange outside [lo, hi] (R144 to R147). -/
def checkRange (lo hi v : Int) : Except Error Int := if lo ≤ v ∧ v ≤ hi then .ok v else .error (.valueOutOfRange v)

/-- The I and S immediate: a literal in [-2048, 2047] (R144). -/
def parseImm12 (t : Text) : Except Error Int :=
  match parseLiteral t with
  | .ok l    => checkRange (-2048) 2047 l.value
  | .error e => .error e

/-- The U immediate: a literal in [0, 1048575], the field value itself (R146). -/
def parseImm20 (t : Text) : Except Error Int :=
  match parseLiteral t with
  | .ok l    => checkRange 0 1048575 l.value
  | .error e => .error e

/-- A label offset `symbolTable[label] - programCounter`, checked against the format's span (R145, R147). -/
def labelOffset (lo hi : Int) (pc : Nat) (sym : SymTab) (l : Text) : Except Error Int :=
  match sym.find l with
  | some t => checkRange lo hi ((t : Int) - (pc : Int))
  | none   => .error (.undefinedLabel l)

/-! Operand shapes (R152). -/

/-- The operand tokens of a statement, sorted by its class (R152). -/
inductive OperandShape where
  | regs3  (rd rs1 rs2 : Text)
  | regImm (rd rs1 imm : Text)
  | store  (rs2 rs1 imm : Text)
  | branch (rs1 rs2 label : Text)
  | upper  (rd imm : Text)
  | jump   (rd label : Text)
deriving DecidableEq, Repr

/-- `imm(rs1)` as its two parts (R152), cut at the last `(`: a register token holds none (R142), while the character literal `'('` of
R143 is an immediate that does. A token that ends in `)` and is not of this form still splits there, and its parts then fail their own
checks (log entry 13). -/
def splitMemOperand (t : Text) : Option (Text × Text) :=
  match t.reverse with
  | ')' :: q =>
    match q.dropWhile (· ≠ '(') with
    | '(' :: r => some (r.reverse, (q.takeWhile (· ≠ '(')).reverse)
    | _ => none
  | _ => none

/-- The operands of a load or `jalr rd, imm(rs1)`: the displacement form (R152). -/
def loadShape (rd m : Text) : Option OperandShape := (splitMemOperand m).map fun p => .regImm rd p.2 p.1

/-- The operand shape of a mnemonic's class; `none` where the count or shape does not fit (R152). -/
def operandShape (m : Mnemonic) (ops : List Text) : Option OperandShape :=
  match m, ops with
  | .addi, [a, b, c] | .andi, [a, b, c] | .ori, [a, b, c] | .jalr, [a, b, c] => some (.regImm a b c)
  | .lb, [a, b] | .lh, [a, b] | .lw, [a, b] | .ld, [a, b] | .jalr, [a, b] => loadShape a b
  | .sb, [a, b] | .sh, [a, b] | .sw, [a, b] | .sd, [a, b] => (splitMemOperand b).map fun p => .store a p.2 p.1
  | .beq, [a, b, c] | .bne, [a, b, c] | .blt, [a, b, c] | .bge, [a, b, c] => some (.branch a b c)
  | .lui, [a, b] | .auipc, [a, b] => some (.upper a b)
  | .jal, [a, b] => some (.jump a b)
  | _, [a, b, c] => if m.format = .r then some (.regs3 a b c) else none
  | _, _ => none

/-! Building the instruction (R134, R148). -/

/-- The R-format instruction of a mnemonic. -/
def instrR (m : Mnemonic) (rd rs1 rs2 : RegIdx) : Option Instr :=
  findInstr [(.add, .add rd rs1 rs2), (.sub, .sub rd rs1 rs2), (.sll, .sll rd rs1 rs2), (.slt, .slt rd rs1 rs2),
    (.xor, .xor rd rs1 rs2), (.srl, .srl rd rs1 rs2), (.sra, .sra rd rs1 rs2), (.or, .or rd rs1 rs2), (.and, .and rd rs1 rs2),
    (.mul, .mul rd rs1 rs2), (.div, .div rd rs1 rs2), (.rem, .rem rd rs1 rs2)]
where
  /-- The instruction listed for the mnemonic. -/
  findInstr : List (Mnemonic × Instr) → Option Instr
    | [] => none
    | p :: t => if p.1 = m then some p.2 else findInstr t

/-- The I-format instruction of a mnemonic. -/
def instrI (m : Mnemonic) (rd rs1 : RegIdx) (imm : BitVec 12) : Option Instr :=
  if m = .addi then some (.addi rd rs1 imm)
  else if m = .andi then some (.andi rd rs1 imm)
  else if m = .ori then some (.ori rd rs1 imm)
  else if m = .lb then some (.lb rd rs1 imm)
  else if m = .lh then some (.lh rd rs1 imm)
  else if m = .lw then some (.lw rd rs1 imm)
  else if m = .ld then some (.ld rd rs1 imm)
  else if m = .jalr then some (.jalr rd rs1 imm)
  else none

/-- The S-format instruction of a mnemonic. -/
def instrS (m : Mnemonic) (rs2 rs1 : RegIdx) (imm : BitVec 12) : Option Instr :=
  if m = .sb then some (.sb rs2 rs1 imm)
  else if m = .sh then some (.sh rs2 rs1 imm)
  else if m = .sw then some (.sw rs2 rs1 imm)
  else if m = .sd then some (.sd rs2 rs1 imm)
  else none

/-- The SB-format instruction of a mnemonic. -/
def instrSB (m : Mnemonic) (rs1 rs2 : RegIdx) (imm : BitVec 13) : Option Instr :=
  if m = .beq then some (.beq rs1 rs2 imm)
  else if m = .bne then some (.bne rs1 rs2 imm)
  else if m = .blt then some (.blt rs1 rs2 imm)
  else if m = .bge then some (.bge rs1 rs2 imm)
  else none

/-- The U-format instruction of a mnemonic. -/
def instrU (m : Mnemonic) (rd : RegIdx) (imm : BitVec 20) : Option Instr :=
  if m = .lui then some (.lui rd imm)
  else if m = .auipc then some (.auipc rd imm)
  else none

/-- An encoded statement: the instruction, its word and its trace fields (R140, R150). -/
structure Encoded where
  instr : Instr
  word  : Word
  trace : TraceFields
deriving DecidableEq, Repr

/-- The trace fields of an instruction (R150): the fields of R133, and the checked immediate value. -/
def traceOf (i : Instr) (imm : Option Int) : TraceFields :=
  let m := mnemonicOf i
  { opcode := m.opcode, funct3 := m.funct3, funct7 := m.funct7, rd := destOf i, rs1 := source1Of i, rs2 := source2Of i,
    imm := imm }

/-- The result of an encode from its instruction and checked immediate. -/
def finishEncode (name : Text) (i : Option Instr) (imm : Option Int) : Except AsmStop Encoded :=
  match i with
  | some i => .ok { instr := i, word := encode i, trace := traceOf i imm }
  | none   => .error (.shape name)

/-- One check's result as the assembler's. -/
def orStop {α : Type} : Except Error α → Except AsmStop α
  | .ok a    => .ok a
  | .error e => .error (.error e)

/-- The register operands left to right, then the immediate or label, then the packing (R148, R149). -/
def encodeShape (pc : Nat) (name : Text) (m : Mnemonic) (sym : SymTab) : OperandShape → Except AsmStop Encoded
  | .regs3 a b c => do
    let rd ← orStop (parseRegister a)
    let rs1 ← orStop (parseRegister b)
    let rs2 ← orStop (parseRegister c)
    finishEncode name (instrR m rd rs1 rs2) none
  | .regImm a b c => do
    let rd ← orStop (parseRegister a)
    let rs1 ← orStop (parseRegister b)
    let v ← orStop (parseImm12 c)
    finishEncode name (instrI m rd rs1 (BitVec.ofInt 12 v)) (some v)
  | .store a b c => do
    let rs2 ← orStop (parseRegister a)
    let rs1 ← orStop (parseRegister b)
    let v ← orStop (parseImm12 c)
    finishEncode name (instrS m rs2 rs1 (BitVec.ofInt 12 v)) (some v)
  | .branch a b l => do
    let rs1 ← orStop (parseRegister a)
    let rs2 ← orStop (parseRegister b)
    let off ← orStop (labelOffset (-4096) 4095 pc sym l)
    finishEncode name (instrSB m rs1 rs2 (BitVec.ofInt 13 off)) (some off)
  | .upper a c => do
    let rd ← orStop (parseRegister a)
    let v ← orStop (parseImm20 c)
    finishEncode name (instrU m rd (BitVec.ofInt 20 v)) (some v)
  | .jump a l => do
    let rd ← orStop (parseRegister a)
    let off ← orStop (labelOffset (-1048576) 1048575 pc sym l)
    finishEncode name (some (.jal rd (BitVec.ofInt 21 off))) (some off)

/-- `encode(programCounter, mnemonic, operandList, symbolTable)` (R140), checks in the order of R149. -/
def encodeStatement (pc : Nat) (name : Text) (ops : List Text) (sym : SymTab) : Except AsmStop Encoded :=
  match parseMnemonic name with
  | none => .error (.error (.unknownMnemonic name))
  | some m =>
    match operandShape m ops with
    | none    => .error (.shape name)
    | some sh => encodeShape pc name m sym sh

end Sys2Proof.Machine
end

