-- ==== Sys2Proof/Machine/Assembler.lean ====
section
/-! DEFINITION. The two-pass assembler (spec/30_encoding.md R151 to R163, R166) over tokenized lines: the scan pass with the symbol
table, the encode pass, the data directives, and the instruction and data images with the trailing halt word. -/

namespace Sys2Proof.Machine

/-- The statement of one source line, as tokens (R151). -/
inductive Stmt where
  | none
  | dataSegment
  | textSegment
  | op (name : Text) (operands : List Text)
deriving DecidableEq, Repr

/-- One source line: its label, its statement, and its original text (R151, R163). -/
structure SourceLine where
  label  : Option Text
  stmt   : Stmt
  source : Text
deriving DecidableEq, Repr

/-- The segment a line stands in; the source starts in `.text` (R151). -/
inductive Segment where
  | text
  | data
deriving DecidableEq, Repr

/-! Data directives (R158 to R162). -/

/-- A data directive: values of a width in bits, or a string (R158). -/
inductive Directive where
  | values (bits : Nat)
  | asciz
deriving DecidableEq, Repr

/-- The directive names (R158). -/
def directiveNames : List (Text × Directive) :=
  [(['.','b','y','t','e'], .values 8), (['.','h','a','l','f'], .values 16), (['.','w','o','r','d'], .values 32),
   (['.','d','w','o','r','d'], .values 64), (['.','d','o','u','b','l','e'], .values 64), (['.','a','s','c','i','z'], .asciz)]

/-- The range of a directive value by how its literal is written (R159). -/
def checkDirectiveRange (bits : Nat) (l : Literal) : Except Error Int :=
  if l.kind = .decimal ∨ l.negative = true then checkRange (-2 ^ (bits - 1)) (2 ^ (bits - 1) - 1) l.value
  else checkRange 0 (2 ^ bits - 1) l.value

/-- The bytes of a value of n bytes, least significant first: the value mod 2^(8n) (R159, R160, R162). -/
def littleEndianBytes (v : Int) : Nat → List Byte
  | 0 => []
  | n + 1 => BitVec.ofInt 8 v :: littleEndianBytes (v / 256) n

/-- One directive operand as bytes (R158, R159). -/
def directiveValue (bits : Nat) (t : Text) : Except AsmStop (List Byte) := do
  let l ← orStop (parseLiteral t)
  let v ← orStop (checkDirectiveRange bits l)
  return littleEndianBytes v (bits / 8)

/-- The operands of a value directive in order. -/
def directiveValues (bits : Nat) : List Text → Except AsmStop (List Byte)
  | [] => .ok []
  | t :: ts => do
    let b ← directiveValue bits t
    let bs ← directiveValues bits ts
    return b ++ bs

/-- The byte of one character of a string (R161): its code for an ASCII character. A code above 127 has no stated byte, and neither has
a raw U+0000, since R161 derives that `.asciz` never emits 0x00 (log entry 3). -/
def charByte (c : Char) : Byte :=
  if 0 < c.toNat ∧ c.toNat < 128 then BitVec.ofNat 8 c.toNat else BitVec.ofNat 8 ((Config.wideCharByte c.toNat).val + 1)

/-- The five escapes (R161). -/
def escapeByte (c : Char) : Option Byte :=
  if c = 'n' then some 0x0A#8
  else if c = 't' then some 0x09#8
  else if c = '\\' then some 0x5C#8
  else if c = '"' then some 0x22#8
  else if c = 'r' then some 0x0D#8
  else none

/-- The bytes of a string's inside, escape-processed, with no terminator (R161). A bare quote inside is no one quoted string. DESIGN
CHOICE (log entry 16): a backslash with nothing after it, which is an operand whose only closing quote is escaped such as `"ab\"`, is the
unfinished escape `\` and fails with InvalidEscapeSequence. -/
def ascizBytes (name : Text) : Text → Except AsmStop (List Byte)
  | [] => .ok []
  | '\\' :: c :: r =>
    match escapeByte c with
    | some b => do
      let bs ← ascizBytes name r
      return b :: bs
    | none => .error (.error (.invalidEscapeSequence ['\\', c]))
  | '\\' :: [] => .error (.error (.invalidEscapeSequence ['\\']))
  | '"' :: _ => .error (.shape name)
  | c :: r => do
    let bs ← ascizBytes name r
    return charByte c :: bs

/-- The inside of a quoted token: what stands between its first and its last character, both quotes. The last one counts as the closing
quote though a backslash stands before it (log entry 16). -/
def unquote (t : Text) : Option Text :=
  match t with
  | '"' :: r =>
    match r.reverse with
    | '"' :: q => some q.reverse
    | _ => none
  | _ => none

/-- A data-segment statement as bytes (R158); anything that is no directive is UnknownMnemonic. -/
def encodeData (name : Text) (ops : List Text) : Except AsmStop (List Byte) :=
  match findNamed directiveNames name with
  | none => .error (.error (.unknownMnemonic name))
  | some (.values bits) => if ops = [] then .error (.shape name) else directiveValues bits ops
  | some .asciz =>
    match ops with
    | [t] =>
      match unquote t with
      | some inside => ascizBytes name inside
      | none        => .error (.shape name)
    | _ => .error (.shape name)

/-! The scan pass (R153 to R155). -/

/-- What the scan pass carries: the segment, the number of text statements so far, the symbol table. -/
structure ScanState where
  segment : Segment
  count   : Nat
  sym     : SymTab
deriving DecidableEq, Repr

/-- The address of the k-th text statement (R153, R156). -/
def textAddr (k : Nat) : Nat := textBase.toNat + 4 * k

/-- A label's address (R154): in the text segment that of the next instruction word; in the data segment unspecified
(log entry 2). -/
def labelAddr (st : ScanState) (l : Text) : Nat :=
  match st.segment with
  | .text => textAddr st.count
  | .data => Config.dataLabelAddress l

/-- The label of a line recorded; a second definition is DuplicateLabel (R155). -/
def scanLabel (st : ScanState) (label : Option Text) : Except AsmStop ScanState :=
  match label with
  | none => .ok st
  | some l =>
    match st.sym.find l with
    | some _ => .error (.error (.duplicateLabel l))
    | none   => .ok { st with sym := st.sym ++ [(l, labelAddr st l)] }

/-- The segment and address bookkeeping of a line (R153). -/
def scanStmt (st : ScanState) (stmt : Stmt) : ScanState :=
  match stmt with
  | .none        => st
  | .dataSegment => { st with segment := .data }
  | .textSegment => { st with segment := .text }
  | .op _ _      => if st.segment = .text then { st with count := st.count + 1 } else st

/-- The scan pass over the lines in order (R153). DESIGN CHOICE (log entry 17): the label of a line whose statement is `.data` or `.text`
stands in the segment before the directive, because the prefix comes before it on the line; R153 and R154 do not say. -/
def scanLines : ScanState → List SourceLine → Except AsmStop ScanState
  | st, [] => .ok st
  | st, l :: ls =>
    match scanLabel st l.label with
    | .error e => .error e
    | .ok st   => scanLines (scanStmt st l.stmt) ls

/-- The symbol table of a source (R155). -/
def symbolTable (ls : List SourceLine) : Except AsmStop SymTab :=
  match scanLines { segment := .text, count := 0, sym := [] } ls with
  | .error e => .error e
  | .ok st   => .ok st.sym

/-! The encode pass (R156, R157, R162). -/

/-- One entry of the instruction image with what the output line shows (R156, R163). -/
structure TextEntry where
  addr   : Word
  word   : Word
  source : Text
  trace  : TraceFields
deriving DecidableEq, Repr

/-- The two images the hardware consumes (R163; spec/70_reset_and_hazards.md R462). -/
structure AsmOutput where
  text : List TextEntry
  data : List (Word × Byte)
deriving DecidableEq, Repr

/-- What the encode pass carries: the segment, the number of text statements and of data bytes so far, and the images. -/
structure EncodeState where
  segment : Segment
  count   : Nat
  text    : List TextEntry
  data    : List (Word × Byte)
deriving DecidableEq, Repr

/-- Data bytes placed from an address upwards, with no padding (R162). -/
def placeBytes (a : Nat) : List Byte → List (Word × Byte)
  | [] => []
  | b :: bs => (BitVec.ofNat 32 a, b) :: placeBytes (a + 1) bs

/-- One line of the encode pass (R156, R158). -/
def encodeLine (sym : SymTab) (st : EncodeState) (l : SourceLine) : Except AsmStop EncodeState :=
  match l.stmt with
  | .none        => .ok st
  | .dataSegment => .ok { st with segment := .data }
  | .textSegment => .ok { st with segment := .text }
  | .op name ops =>
    match st.segment with
    | .text => do
      let e ← encodeStatement (textAddr st.count) name ops sym
      return { st with
        count := st.count + 1
        text := st.text ++ [{ addr := BitVec.ofNat 32 (textAddr st.count), word := e.word, source := l.source, trace := e.trace }] }
    | .data => do
      let bs ← encodeData name ops
      return { st with data := st.data ++ placeBytes (dataBase + st.data.length) bs }

/-- The encode pass over the lines in order; it stops at the first failure (R156). -/
def encodeLines (sym : SymTab) : EncodeState → List SourceLine → Except AsmStop EncodeState
  | st, [] => .ok st
  | st, l :: ls =>
    match encodeLine sym st l with
    | .error e => .error e
    | .ok st   => encodeLines sym st ls

/-- The halt word after the last instruction, at the next address (R157). -/
def haltEntry (count : Nat) : TextEntry :=
  { addr := BitVec.ofNat 32 (textAddr count), word := haltWord, source := [], trace := traceOf .halt none }

/-- The assembler: the scan pass, then the encode pass, then the halt word (R153 to R157; spec/60_exceptions.md R403). -/
def assemble (ls : List SourceLine) : Except AsmStop AsmOutput := do
  let sym ← symbolTable ls
  let st ← encodeLines sym { segment := .text, count := 0, text := [], data := [] } ls
  return { text := st.text ++ [haltEntry st.count], data := st.data }

/-- The instruction image: (address, word) pairs (R163). -/
def AsmOutput.image (o : AsmOutput) : List (Word × Word) := o.text.map fun e => (e.addr, e.word)

/-! The output text (R150, R163). -/

/-- A trace field: its text, or `NULL` where the format lacks it (R150). -/
def traceFieldText (f : TraceField) : Option Int → Text
  | some v => Config.traceFieldText f v
  | none   => ['N', 'U', 'L', 'L']

/-- The value of a register field or a funct field as a number. -/
def fieldValue {n : Nat} (b : Option (BitVec n)) : Option Int := b.map fun v => (v.toNat : Int)

/-- `<opcode>-<funct3>-<funct7>-<rd>-<rs1>-<rs2>-<imm>` (R150, R163). -/
def traceText (t : TraceFields) : Text :=
  List.intercalate ['-']
    [traceFieldText .opcode (fieldValue (some t.opcode)), traceFieldText .funct3 (fieldValue t.funct3),
     traceFieldText .funct7 (fieldValue t.funct7), traceFieldText .rd (fieldValue t.rd), traceFieldText .rs1 (fieldValue t.rs1),
     traceFieldText .rs2 (fieldValue t.rs2), traceFieldText .imm t.imm]

/-- `<addr-hex> <word-hex> , <original-text> # <trace fields>` (R163). -/
def TextEntry.line (e : TextEntry) : Text :=
  Config.addrText e.addr ++ [' '] ++ Config.wordText e.word ++ [' ', ',', ' '] ++ e.source ++ [' ', '#', ' '] ++ traceText e.trace

/-- `<addr-hex> <byte-hex>` (R163). -/
def dataLine (p : Word × Byte) : Text := Config.addrText p.1 ++ [' '] ++ Config.byteText p.2

/-- The assembler's output text (R163): a line per instruction, a blank line, a line per data byte. -/
def AsmOutput.lines (o : AsmOutput) : List Text := o.text.map TextEntry.line ++ [[]] ++ o.data.map dataLine

end Sys2Proof.Machine
end

