-- ==== Sys2Proof/Machine/HostOps.lean ====
section
/-! DEFINITION. What the host can do to the engine between cycles (spec/60_exceptions.md R410 to R413): reset, load, step, run,
set forwarding, and the read-only queries. -/

namespace Sys2Proof.Machine

/-! The control surface (R410). -/

/-- Whether the host's writes act on the engine: of a Faulted one the host "can only read it or reset" (R405). A Halted engine takes them
(log entry 18). -/
def State.takesHostWrites (s : State) : Bool :=
  match s.status with
  | .running | .halted => true
  | .faulted _ => false

/-- `setForwarding(b)` (R410; spec/10_state.md R40); on a Faulted engine nothing (R405). -/
def State.setForwarding (s : State) (b : Bool) : State := if s.takesHostWrites then { s with fwd := b } else s

/-- The instruction block of a load (spec/70_reset_and_hazards.md R462): entries in list order, a later one replacing an earlier
one; a failing entry leaves what the entries before it wrote. -/
def loadImage (m : Memory) : List (Word × Word) → Memory × Option Error
  | [] => (m, none)
  | (a, w) :: rest =>
    if inDataSegment a then (m, some (.segmentAccessViolation a))
    else if a.extractLsb' 0 2 ≠ 0#2 then (m, some (.valueOutOfRange a.toNat))
    else loadImage (storeInstrWord m a w) rest

/-- The data block of a load (spec/70_reset_and_hazards.md R462). -/
def loadData (m : Memory) : List (Word × Byte) → Memory × Option Error
  | [] => (m, none)
  | (a, b) :: rest =>
    if inDataSegment a then loadData (PMap.set m a.toNat b) rest else (m, some (.segmentAccessViolation a))

/-- The pseudocode of `load` (spec/70_reset_and_hazards.md R462): writes only `imem` and `dmem`; the second part is the error it raises to
the host. -/
def State.fillMemories (s : State) (image : List (Word × Word)) (data : List (Word × Byte)) : State × Option Error :=
  match loadImage s.imem image with
  | (im, some e) => ({ s with imem := im }, some e)
  | (im, none) =>
    match loadData s.dmem data with
    | (dm, r) => ({ s with imem := im, dmem := dm }, r)

/-- `load(image, data)` (R410; spec/70_reset_and_hazards.md R462); on a Faulted engine it writes nothing (R405) and raises nothing (log
entry 18). -/
def State.load (s : State) (image : List (Word × Word)) (data : List (Word × Byte)) : State × Option Error :=
  if s.takesHostWrites then s.fillMemories image data else (s, none)

/-- A numeric field of a textual load entry of at most `bits` bits (spec/70_reset_and_hazards.md R462): MalformedNumber if it is no
hexadecimal number, ValueOutOfRange if it is wider (log entry 5). -/
def parseLoadField (bits : Nat) (t : Text) : Except Error Nat :=
  let digits := match t with
    | '0' :: 'x' :: ds => ds
    | ds => ds
  match parseDigits 16 digits with
  | some v => if v < 2 ^ bits then .ok v else .error (.valueOutOfRange v)
  | none   => .error (.malformedNumber t)

/-- The address and the value of a textual load entry, the address first (spec/70_reset_and_hazards.md R462; log entry 5). -/
def parseLoadEntry (bits : Nat) (p : Text × Text) : Except Error (Word × BitVec bits) :=
  match parseLoadField 32 p.1 with
  | .error e => .error e
  | .ok a =>
    match parseLoadField bits p.2 with
    | .error e => .error e
    | .ok v    => .ok (BitVec.ofNat 32 a, BitVec.ofNat bits v)

/-- The entries of a textual block as far as their fields are good, and the error of the first bad field (R462). -/
def parseLoadBlock (bits : Nat) : List (Text × Text) → List (Word × BitVec bits) × Option Error
  | [] => ([], none)
  | p :: rest =>
    match parseLoadEntry bits p with
    | .error e => ([], some e)
    | .ok q    => (q :: (parseLoadBlock bits rest).1, (parseLoadBlock bits rest).2)

/-- The two memories filled from textual blocks (R462): the instruction entries before a bad field are loaded, and an entry of theirs that
fails a check comes before that field in list order (spec/60_exceptions.md R403); then the data block the same way. The fields of an entry
are read before its checks, and the data block is read only when the instruction block raised nothing (log entry 5). -/
def State.fillMemoriesText (s : State) (image data : List (Text × Text)) : State × Option Error :=
  let words := parseLoadBlock 32 image
  match s.fillMemories words.1 [], words.2 with
  | (t, some e), _ => (t, some e)
  | (t, none), some e => (t, some e)
  | (_, none), none =>
    let bytes := parseLoadBlock 8 data
    match s.fillMemories words.1 bytes.1, bytes.2 with
    | (t, some e), _ => (t, some e)
    | (t, none), r => (t, r)

/-- `load` of the textual blocks (R410, R462); on a Faulted engine it writes nothing (R405) and raises nothing (log entry 18). -/
def State.loadText (s : State) (image data : List (Text × Text)) : State × Option Error :=
  if s.takesHostWrites then s.fillMemoriesText image data else (s, none)

/-- A `step()` call (R412): the cycle, and whether execution should continue. -/
def hostStep (s : State) : Host.Outcome (State × Bool) Fault Refusal :=
  match cycle s with
  | .next t    => .next (t, decide (t.status = .running))
  | .fault f   => .fault f
  | .refused r => .refused r

/-- `run()` (R413) with a bound on the number of steps, which is no part of the hardware: steps until `step` returns false. `none`
means that the bound was reached first. -/
def hostRun : Nat → State → Host.Outcome (State × Option Status) Fault Refusal
  | 0, s => .next (s, none)
  | n + 1, s =>
    match hostStep s with
    | .next (t, true)  => hostRun n t
    | .next (t, false) => .next (t, some t.status)
    | .fault f   => .fault f
    | .refused r => .refused r

/-- The host sequence of spec/70_reset_and_hazards.md R464 up to the first step: reset, load, set forwarding. -/
def boot (cfg : Config) (image : List (Word × Word)) (data : List (Word × Byte)) (fwd : Bool) : State × Option Error :=
  match ({ State.reset with cfg := cfg } : State).load image data with
  | (s, r) => (s.setForwarding fwd, r)

/-! The query surface (R411). No query changes state. -/

/-- The memory a host query names (R411). -/
inductive Space where
  | instruction
  | data
deriving DecidableEq, Repr

/-- `regs()` (R411): all 32 registers, entry 0 always 0. -/
def State.queryRegs (s : State) : Vector Word 32 := Vector.ofFn fun i => s.readReg (BitVec.ofFin i)

/-- `readMem(space, addr, len)` (R411): `none` marks an empty byte, and no address is an error. -/
def State.queryMem (s : State) (space : Space) (a : Word) (len : Nat) : List (Option Byte) :=
  (accessAddrs a len).map fun b => Memory.byteAt (match space with | .instruction => s.imem | .data => s.dmem) b

/-- `pc()` (R411): the fetch address. -/
def State.queryPc (s : State) : Word := s.pc

/-- `stats()` (R411). -/
def State.queryStats (s : State) : Stats := s.stats

/-- `buffers()` (R411). -/
def State.queryBuffers (s : State) : Option IFID × Option IDEX × Option EXMEM × Option MEMWB :=
  (s.ifid, s.idex, s.exmem, s.memwb)

/-- `predictor()` (R411). -/
def State.queryPredictor (s : State) : PMap Bool × PMap Word := (s.bht, s.btb)

/-- `events()` (R411). -/
def State.queryEvents (s : State) : List Event := s.events

/-- The forwarding bit, which the host can read (spec/10_state.md R40). -/
def State.queryForwarding (s : State) : Bool := s.fwd

/-- `status()` (R411). -/
def State.queryStatus (s : State) : Status := s.status

/-- The numeric code of an error (R401). -/
def Error.code : Error → Nat
  | .unknownMnemonic _ => 0
  | .unknownWord _ => 0
  | .unknownRegister _ => 1
  | .malformedNumber _ => 2
  | .valueOutOfRange _ => 3
  | .duplicateLabel _ => 4
  | .undefinedLabel _ => 5
  | .invalidEscapeSequence _ => 6
  | .segmentAccessViolation _ => 7
  | .unsupportedWidth _ => 8
  | .arithmeticUndefined _ => 9
  | .unwrittenRead _ => 10

end Sys2Proof.Machine
end

