-- ==== Sys2Proof/Machine/OpcodeTable.lean ====
section
/-! DEFINITION. The opcode map as data: the match and mask columns of spec/30_encoding.md R134, in its order. -/

namespace Sys2Proof.Machine

/-- One row of R134: a word is the row's when the masked word equals the match. -/
structure OpcodeRow where
  ins   : Mnemonic
  value : Word
  mask  : Word
deriving DecidableEq, Repr

/-- The 32 rows of R134. -/
def opcodeTable : List OpcodeRow :=
  [⟨.add, 0x00000033#32, 0xFE00707F#32⟩, ⟨.sub, 0x40000033#32, 0xFE00707F#32⟩, ⟨.sll, 0x00001033#32, 0xFE00707F#32⟩,
   ⟨.slt, 0x00002033#32, 0xFE00707F#32⟩, ⟨.xor, 0x00004033#32, 0xFE00707F#32⟩, ⟨.srl, 0x00005033#32, 0xFE00707F#32⟩,
   ⟨.sra, 0x40005033#32, 0xFE00707F#32⟩, ⟨.or, 0x00006033#32, 0xFE00707F#32⟩, ⟨.and, 0x00007033#32, 0xFE00707F#32⟩,
   ⟨.mul, 0x02000033#32, 0xFE00707F#32⟩, ⟨.div, 0x02004033#32, 0xFE00707F#32⟩, ⟨.rem, 0x02006033#32, 0xFE00707F#32⟩] ++
  [⟨.addi, 0x00000013#32, 0x0000707F#32⟩, ⟨.andi, 0x00007013#32, 0x0000707F#32⟩, ⟨.ori, 0x00006013#32, 0x0000707F#32⟩,
   ⟨.lb, 0x00000003#32, 0x0000707F#32⟩, ⟨.lh, 0x00001003#32, 0x0000707F#32⟩, ⟨.lw, 0x00002003#32, 0x0000707F#32⟩,
   ⟨.ld, 0x00003003#32, 0x0000707F#32⟩, ⟨.jalr, 0x00000067#32, 0x0000707F#32⟩, ⟨.sb, 0x00000023#32, 0x0000707F#32⟩,
   ⟨.sh, 0x00001023#32, 0x0000707F#32⟩, ⟨.sw, 0x00002023#32, 0x0000707F#32⟩, ⟨.sd, 0x00003023#32, 0x0000707F#32⟩] ++
  [⟨.beq, 0x00000063#32, 0x0000707F#32⟩, ⟨.bne, 0x00001063#32, 0x0000707F#32⟩, ⟨.blt, 0x00004063#32, 0x0000707F#32⟩,
   ⟨.bge, 0x00005063#32, 0x0000707F#32⟩, ⟨.lui, 0x00000037#32, 0x0000007F#32⟩, ⟨.auipc, 0x00000017#32, 0x0000007F#32⟩,
   ⟨.jal, 0x0000006F#32, 0x0000007F#32⟩, ⟨.halt, 0x00000073#32, 0xFFFFFFFF#32⟩]

/-- The word is one of the row's. -/
def OpcodeRow.holds (r : OpcodeRow) (w : Word) : Bool := w &&& r.mask == r.value

/-- The mnemonic of the first row a word matches (R134); `none` for an illegal word (R136, R137). -/
def tableLookup (w : Word) : Option Mnemonic := (opcodeTable.find? fun r => r.holds w).map (·.ins)

end Sys2Proof.Machine
end

