-- ==== Sys2Proof/Safety.lean ====
section
/-! DEFINITION. The terms claims use: the states single instructions leave, written field by field from the rules; the engine's
invariants; and what the pipeline has committed to, seen as an in-order machine. -/

namespace Sys2Proof.Machine

/-! The state an instruction leaves. -/

/-- x[rd] holds v, and no other register changes; x0 takes no write (spec/10_state.md R31). -/
def regsAfterWrite (x : Vector Word 32) (rd : RegIdx) (v : Word) : Vector Word 32 := if rd = 0#5 then x else x.set rd.toNat v

/-- After an integer instruction at `s.pc` with result v: rd written, pc + 4, one more retired ALU instruction
(spec/60_exceptions.md R414), everything else as before. -/
def State.afterAlu (s : State) (rd : RegIdx) (v : Word) : State :=
  { s with
    x := regsAfterWrite s.x rd v
    pc := s.pc + 4#32
    stats := { s.stats with retired := s.stats.retired + 1, aluCount := s.stats.aluCount + 1 } }

/-- After a load at `s.pc` of value v. -/
def State.afterLoad (s : State) (rd : RegIdx) (v : Word) : State :=
  { s with
    x := regsAfterWrite s.x rd v
    pc := s.pc + 4#32
    stats := { s.stats with retired := s.stats.retired + 1, memCount := s.stats.memCount + 1 } }

/-- After a store at `s.pc` that leaves data memory m. -/
def State.afterStore (s : State) (m : Memory) : State :=
  { s with
    dmem := m
    pc := s.pc + 4#32
    stats := { s.stats with retired := s.stats.retired + 1, memCount := s.stats.memCount + 1 } }

/-- After a control instruction at `s.pc` that leaves registers x: the next pc, the predictor's new direction and, if taken, target
(spec/45_pipeline.md R327), one more resolution and one more retired control instruction (spec/60_exceptions.md R414). -/
def State.afterControl (s : State) (x : Vector Word 32) (taken : Bool) (target : Word) : State :=
  { s with
    x := x
    pc := if taken then target else s.pc + 4#32
    bht := PMap.set s.bht s.pc.toNat taken
    btb := if taken then PMap.set s.btb s.pc.toNat target else s.btb
    stats := { s.stats with
      retired := s.stats.retired + 1
      ctrlCount := s.stats.ctrlCount + 1
      ctrlHazards := s.stats.ctrlHazards + 1 } }

/-- After an instruction at `s.pc` that raises e: the status, and fetch has moved past the word (log entry 8). -/
def State.afterFailure (s : State) (e : Error) : State := { s with pc := s.pc + 4#32, status := .faulted e }

/-! Data bytes. -/

/-- The value a load gets for one byte: 0x00 if nothing has written it (spec/20_memory.md R84). -/
def State.dataByte (s : State) (a : Word) : Byte := (Memory.byteAt s.dmem a).getD 0#8

/-- Every byte of an access of n bytes lies in the data partition (spec/20_memory.md R81). -/
def accessInData (a : Word) (n : Nat) : Prop := ∀ k < n, inDataSegment (a + BitVec.ofNat 32 k) = true

/-- Every byte of a read can be read: under UNWRITTEN_DATA_READ = Fault it has been written (spec/20_memory.md R84). -/
def State.accessWritten (s : State) (a : Word) (n : Nat) : Prop :=
  s.cfg.unwrittenDataRead = .fault → ∀ k < n, Memory.byteAt s.dmem (a + BitVec.ofNat 32 k) ≠ none

/-! The engine's structural invariant. -/

/-- The fields of a buffer record are those decode takes from its word, and `next_pc` is pc + 4 (spec/10_state.md R36, R44). -/
def recordCoherent (d : IDEX) : Prop :=
  d.nextPc = d.pc + 4#32 ∧ ∃ i, decode d.word = some i ∧ d.toDecoded = decodedFields i

/-- What every state of the engine satisfies: canonical memories that keep to their partition (spec/20_memory.md R80), canonical
predictor maps in which a taken direction has a target (spec/45_pipeline.md R331), a stored zero for x0 (spec/10_state.md R31),
counters that add up (spec/60_exceptions.md R414), and coherent buffers (spec/10_state.md R36, R44). -/
structure EngineInv (s : State) : Prop where
  imemCanonical   : Memory.wf s.imem
  imemPartition   : ∀ p ∈ s.imem, p.1 < dataBase
  dmemCanonical   : Memory.wf s.dmem
  dmemPartition   : ∀ p ∈ s.dmem, dataBase ≤ p.1 ∧ p.1 < 2 ^ 32
  bhtCanonical    : PMap.wf s.bht
  btbCanonical    : PMap.wf s.btb
  predictorClosed : ∀ a, PMap.get s.bht a = some true → PMap.get s.btb a ≠ none
  x0Zero          : s.x[0] = 0#32
  countsAddUp     : s.stats.retired = s.stats.memCount + s.stats.ctrlCount + s.stats.aluCount
  ifidCoherent    : ∀ f, s.ifid = some f → f.nextPc = f.pc + 4#32
  idexCoherent    : ∀ d, s.idex = some d → recordCoherent d
  exmemCoherent   : ∀ e, s.exmem = some e → recordCoherent e.toIDEX
  memwbCoherent   : ∀ m, s.memwb = some m → recordCoherent m.toIDEX

/-! The in-order view of the pipeline. -/

/-- The address of the oldest instruction that has not passed execute: in ID/EX, else in IF/ID, else the fetch address. -/
def State.nextToExecute (s : State) : Word :=
  match s.idex with
  | some d => d.pc
  | none =>
    match s.ifid with
    | some f => f.pc
    | none => s.pc

/-- The instructions that have passed execute completed: MEM/WB written back, then EX/MEM through memory and write-back (if its
memory stage does not raise), the pipeline emptied, and pc at the next instruction to execute. -/
def State.completed (s : State) : State :=
  let s1 := (wbStage s).1
  let s2 := match memStage s1 with
    | .ok t => (wbStage t).1
    | .raise _ => s1
    | .stuck _ => s1
  { s2 with pc := s.nextToExecute, ifid := none, idex := none, exmem := none, memwb := none }

/-- A state without what only timing moves: buffers, forwarding switch, run status, events, and the counters `cycles`, `stalls`,
`dataHazards`, `mispredicts` (spec/70_reset_and_hazards.md R478). -/
def State.architectural (s : State) : State :=
  { s with
    ifid := none, idex := none, exmem := none, memwb := none, fwd := false, status := .running, events := []
    stats := { s.stats with cycles := 0, stalls := 0, dataHazards := 0, mispredicts := 0 } }

/-- The pipeline holds nothing. -/
def State.drained (s : State) : Prop := s.ifid = none ∧ s.idex = none ∧ s.exmem = none ∧ s.memwb = none

/-- Instruction memory holds word w at a (spec/20_memory.md R86). -/
def State.holdsWord (s : State) (a w : Word) : Prop := iMemReadWord s.imem a = .ok (some w)

/-- The path invariant of spec/45_pipeline.md R331, R338 and spec/70_reset_and_hazards.md R478. -/
structure PathInv (s : State) : Prop where
  /-- Buffered words are those of instruction memory. -/
  ifidWord        : ∀ f, s.ifid = some f → s.holdsWord f.pc f.word
  idexWord        : ∀ d, s.idex = some d → s.holdsWord d.pc d.word
  /-- Only control instructions have predictor entries (R331). -/
  predictorEntry  : ∀ a : Word, PMap.get s.bht a.toNat ≠ none →
    ∃ w i, s.holdsWord a w ∧ decode w = some i ∧ (decodedFields i).isControl = true
  /-- The fetch address is the prediction for the instruction in IF/ID. -/
  fetchFollows    : ∀ f, s.ifid = some f → predictNext s.bht s.btb f.pc = .ok s.pc
  /-- After an instruction that is no control instruction, fetch stands at the next address. -/
  sequentialPath  : ∀ d, s.idex = some d → d.isControl = false →
    (∀ f, s.ifid = some f → f.pc = d.pc + 4#32) ∧ (s.ifid = none → s.pc = d.pc + 4#32)
  /-- The operands decode passed on are the registers as every older instruction leaves them (R478). -/
  operandsCurrent : ∀ d, s.idex = some d →
    d.v1 = s.completed.readSource d.rs1 ∧ d.v2 = s.completed.readSource d.rs2

/-- No word follows the halt word in instruction memory (spec/45_pipeline.md R336). -/
def haltIsLast (m : Memory) : Prop :=
  ∀ a : Word, iMemReadWord m a = .ok (some haltWord) → iMemReadWord m (a + 4#32) = .ok none

/-- Two states that hold the same program and the same architectural values, whatever else differs. -/
def sameProgramState (s t : State) : Prop :=
  s.cfg = t.cfg ∧ s.x = t.x ∧ s.pc = t.pc ∧ s.imem = t.imem ∧ s.dmem = t.dmem

/-! Instruction classes (spec/40_alu.md, 41_loads_stores.md, 42_control.md, 43_system.md). -/

/-- The integer instructions of spec/40_alu.md. -/
def isInteger : Instr → Bool
  | .add _ _ _ | .sub _ _ _ | .sll _ _ _ | .slt _ _ _ | .xor _ _ _ | .srl _ _ _ | .sra _ _ _ | .or _ _ _ | .and _ _ _
  | .mul _ _ _ | .div _ _ _ | .rem _ _ _ | .addi _ _ _ | .andi _ _ _ | .ori _ _ _ | .lui _ _ | .auipc _ _ => true
  | .lb _ _ _ | .lh _ _ _ | .lw _ _ _ | .ld _ _ _ | .jalr _ _ _ | .sb _ _ _ | .sh _ _ _ | .sw _ _ _ | .sd _ _ _
  | .beq _ _ _ | .bne _ _ _ | .blt _ _ _ | .bge _ _ _ | .jal _ _ | .halt => false

/-- The bytes an instruction stores in state s: the address, and the number of bytes; `none` for a form that stores nothing. -/
def storeTarget (s : State) : Instr → Option (Word × Nat)
  | .sb _ rs1 imm => some (effectiveAddr s rs1 imm, 1)
  | .sh _ rs1 imm => some (effectiveAddr s rs1 imm, 2)
  | .sw _ rs1 imm => some (effectiveAddr s rs1 imm, 4)
  | .add _ _ _ | .sub _ _ _ | .sll _ _ _ | .slt _ _ _ | .xor _ _ _ | .srl _ _ _ | .sra _ _ _ | .or _ _ _ | .and _ _ _
  | .mul _ _ _ | .div _ _ _ | .rem _ _ _ | .addi _ _ _ | .andi _ _ _ | .ori _ _ _ | .lui _ _ | .auipc _ _
  | .lb _ _ _ | .lh _ _ _ | .lw _ _ _ | .ld _ _ _ | .jalr _ _ _ | .sd _ _ _
  | .beq _ _ _ | .bne _ _ _ | .blt _ _ _ | .bge _ _ _ | .jal _ _ | .halt => none

/-- What no instruction's own effect touches: the parameters, instruction memory, the buffers, the forwarding switch, the events, and
the counters of cycles, stalls, data hazards and mispredictions. -/
def State.untouched (s t : State) : Prop :=
  t.cfg = s.cfg ∧ t.imem = s.imem ∧ t.ifid = s.ifid ∧ t.idex = s.idex ∧ t.exmem = s.exmem ∧ t.memwb = s.memwb ∧ t.fwd = s.fwd ∧
    t.events = s.events ∧ t.stats.cycles = s.stats.cycles ∧ t.stats.stalls = s.stats.stalls ∧
    t.stats.dataHazards = s.stats.dataHazards ∧ t.stats.mispredicts = s.stats.mispredicts

/-- Every byte of data memory reads as before. -/
def State.sameData (s t : State) : Prop := ∀ b : Word, Memory.byteAt t.dmem b = Memory.byteAt s.dmem b

/-- A fatal error ended the run (spec/10_state.md R41). -/
def State.hasFaulted (s : State) : Prop := ∃ e, s.status = .faulted e

/-- The word of the last entry of a load image at an address: a later entry replaces an earlier one
(spec/70_reset_and_hazards.md R462). -/
def lastWordAt (image : List (Word × Word)) (a : Word) : Option Word := (image.reverse.find? fun p => p.1 == a).map (·.2)

/-- An entry of the instruction block that a load accepts (spec/70_reset_and_hazards.md R462). -/
def loadableEntry (p : Word × Word) : Prop := inDataSegment p.1 = false ∧ p.1.extractLsb' 0 2 = 0#2

/-- The statements of a source that stand in the text segment, in order (spec/30_encoding.md R151, R156). -/
def textStatements : Segment → List SourceLine → List (Text × List Text)
  | _, [] => []
  | seg, l :: ls =>
    match l.stmt with
    | .none        => textStatements seg ls
    | .dataSegment => textStatements .data ls
    | .textSegment => textStatements .text ls
    | .op name ops => if seg = .text then (name, ops) :: textStatements seg ls else textStatements seg ls

/-- `step()`'s answer (spec/60_exceptions.md R412): true while the engine is Running after the cycle. -/
def continues (t : State) : Bool := decide (t.status = .running)

end Sys2Proof.Machine
end

