-- ==== Sys2Proof/Certificates/Slice0/Obligations.lean ====
section
/-! DEFINITION. The statements about the model, each from the rules of spec/ its docstring names. A statement that rests on a
decision or an inference the spec marks as its own says so. -/

section

open Sys2Proof Sys2Proof.Machine

/-! Encoding. -/

/-- spec/30_encoding.md R148: decoding an encoded instruction gives it back, whatever its registers and its immediate are. -/
def Obligations.DecodeOfEncodeIsIdentity : Prop :=
  ∀ i : Instr, i.wellFormed = true → decode (encode i) = some i

/-- The other direction of spec/30_encoding.md R148: every word that decodes is the encoding of what it decodes to, and that
instruction is well-formed, so each instruction has one word and no bit of a word is ignored (derived from R134 and R138). -/
def Obligations.EncodeOfDecodeIsIdentity : Prop :=
  ∀ (w : Word) (i : Instr), decode w = some i → i.wellFormed = true ∧ encode i = w

/-- spec/30_encoding.md section 3: the decoder is the opcode map. It gives the mnemonic of the row a word matches and nothing for a
word of no row, and no word matches two rows (the admitted set is the spec's own decision D1, the values D2). -/
def Obligations.DecodeFollowsOpcodeMap : Prop :=
  (∀ w : Word, (decode w).map mnemonicOf = tableLookup w) ∧
    opcodeTable.Pairwise (fun r q => ∀ w : Word, ¬(r.holds w = true ∧ q.holds w = true))

/-- spec/30_encoding.md R135: only the full pattern 0x00000073 is the halt word; any other word with its opcode matches no row. -/
def Obligations.HaltWordIsFullPattern : Prop :=
  ∀ w : Word, opcodeOf w = 0b1110011#7 → decode w = if w = 0x00000073#32 then some .halt else none

/-- Words of spec/95_test_vectors.md and of the instruction rules, one of each format, decode to the instructions they stand for
(the encodings are the spec's own decision D2). -/
def Obligations.SpecWordsDecode : Prop :=
  decode 0x002081B3#32 = some (.add 3#5 1#5 2#5) ∧
  decode 0xFFF08193#32 = some (.addi 3#5 1#5 (-1)) ∧
  decode 0x0043A303#32 = some (.lw 6#5 7#5 4) ∧
  decode 0xFE638FA3#32 = some (.sb 6#5 7#5 (-1)) ∧
  decode 0xFE209EE3#32 = some (.bne 1#5 2#5 (-4)) ∧
  decode 0x123452B7#32 = some (.lui 5#5 0x12345) ∧
  decode 0x00C000EF#32 = some (.jal 1#5 12) ∧
  decode 0x00000073#32 = some .halt

/-- spec/30_encoding.md section 2: the immediate decode takes from a word, written with shifts and masks of the word alone (the
layouts are the spec's own decision D2). -/
def Obligations.ImmediatesOfTheWord : Prop :=
  ∀ (w : Word) (i : Instr), decode w = some i →
    ((mnemonicOf i).format = .i → immOf i = some (w.sshiftRight 20)) ∧
    ((mnemonicOf i).format = .s → immOf i = some ((w.sshiftRight 25 <<< 5) ||| ((w >>> 7) &&& 0x1F#32))) ∧
    ((mnemonicOf i).format = .sb →
      immOf i = some ((w.sshiftRight 31 <<< 12) ||| (((w >>> 7) &&& 1#32) <<< 11) ||| (((w >>> 25) &&& 0x3F#32) <<< 5) |||
        (((w >>> 8) &&& 0xF#32) <<< 1))) ∧
    ((mnemonicOf i).format = .u → immOf i = some (w &&& 0xFFFFF000#32)) ∧
    ((mnemonicOf i).format = .uj →
      immOf i = some ((w.sshiftRight 31 <<< 20) ||| (w &&& 0x000FF000#32) ||| (((w >>> 20) &&& 1#32) <<< 11) |||
        (((w >>> 21) &&& 0x3FF#32) <<< 1))) ∧
    ((mnemonicOf i).format = .r ∨ (mnemonicOf i).format = .halt → immOf i = none)

/-- spec/30_encoding.md R133: the register and funct fields decode puts into the buffer record are those of the word where the format
has the field, and `none` where it lacks it. -/
def Obligations.AbsentFieldsAreNone : Prop :=
  ∀ (w : Word) (i : Instr), decode w = some i →
    (decodedFields i).opcode = opcodeOf w ∧
    ((decodedFields i).rd = match (mnemonicOf i).format with
      | .r | .i | .u | .uj => some (rdOf w)
      | .s | .sb | .halt => none) ∧
    ((decodedFields i).rs1 = match (mnemonicOf i).format with
      | .r | .i | .s | .sb => some (rs1Of w)
      | .u | .uj | .halt => none) ∧
    ((decodedFields i).rs2 = match (mnemonicOf i).format with
      | .r | .s | .sb => some (rs2Of w)
      | .i | .u | .uj | .halt => none) ∧
    ((decodedFields i).funct3 = match (mnemonicOf i).format with
      | .r | .i | .s | .sb => some (funct3Of w)
      | .u | .uj | .halt => none) ∧
    ((decodedFields i).funct7 = match (mnemonicOf i).format with
      | .r => some (funct7Of w)
      | .i | .s | .sb | .u | .uj | .halt => none) ∧
    ((decodedFields i).imm = none ↔ (mnemonicOf i).format = .r ∨ (mnemonicOf i).format = .halt)

/-! Reset and the host. -/

/-- spec/10_state.md R50, spec/70_reset_and_hazards.md R460: reset from any state, whatever its status, gives every piece of state
its reset value (the values 0 of x, TEXT_BASE of pc and false of fwd are the spec's own decisions D3, D4 and D28; that the two
parameters of the model survive is log entry 1). -/
def Obligations.ResetGivesTheResetValues : Prop :=
  ∀ s : State,
    (∀ r, s.resetKeepingConfig.readReg r = 0#32) ∧ s.resetKeepingConfig.pc = 0x00000000#32 ∧
    (∀ a, Memory.byteAt s.resetKeepingConfig.imem a = none) ∧ (∀ a, Memory.byteAt s.resetKeepingConfig.dmem a = none) ∧
    s.resetKeepingConfig.ifid = none ∧ s.resetKeepingConfig.idex = none ∧ s.resetKeepingConfig.exmem = none ∧
    s.resetKeepingConfig.memwb = none ∧
    (∀ k, PMap.get s.resetKeepingConfig.bht k = none) ∧ (∀ k, PMap.get s.resetKeepingConfig.btb k = none) ∧
    s.resetKeepingConfig.fwd = false ∧ s.resetKeepingConfig.status = .running ∧
    s.resetKeepingConfig.stats = ⟨0, 0, 0, 0, 0, 0, 0, 0, 0⟩ ∧ s.resetKeepingConfig.events = [] ∧
    s.resetKeepingConfig.cfg = s.cfg ∧ State.reset.resetKeepingConfig = State.reset

/-- The state after reset satisfies the invariants of the engine and of the path. -/
def Obligations.ResetSatisfiesInvariants : Prop := EngineInv State.reset ∧ PathInv State.reset

/-- spec/70_reset_and_hazards.md section 1, Loading: on an engine that has not faulted, a load whose entries are all acceptable raises
nothing, changes only the two memories, puts at every address the word of its last entry and the byte of its last entry, and leaves every
other byte (the checks and the replacement are the spec's own decision D40, the byte order D5; that a Halted engine takes a load is the
model's choice, log entry 18). -/
def Obligations.LoadFillsTheMemories : Prop :=
  ∀ (s : State) (image : List (Word × Word)) (data : List (Word × Byte)), ¬s.hasFaulted →
    (∀ p ∈ image, loadableEntry p) → (∀ p ∈ data, inDataSegment p.1 = true) →
    ∃ im dm, s.load image data = ({ s with imem := im, dmem := dm }, none) ∧
      (∀ a w, lastWordAt image a = some w → iMemReadWord im a = .ok (some w)) ∧
      (∀ a, (∀ p ∈ image, ∀ k < 4, a ≠ p.1 + BitVec.ofNat 32 k) → Memory.byteAt im a = Memory.byteAt s.imem a) ∧
      (∀ a b, (data.reverse.find? fun p => p.1 == a) = some (a, b) → Memory.byteAt dm a = some b) ∧
      (∀ a, (∀ p ∈ data, p.1 ≠ a) → Memory.byteAt dm a = Memory.byteAt s.dmem a)

/-- spec/70_reset_and_hazards.md section 1, Loading: on an engine that has not faulted, the first entry that fails a check is the error, and
the memories stand as far as the entries before it wrote them; the data block is not reached when an instruction entry fails (the checks
are the spec's own decision D40; that a Halted engine takes a load is the model's choice, log entry 18). -/
def Obligations.LoadStopsAtTheFirstBadEntry : Prop :=
  ∀ (s : State) (good rest : List (Word × Word)) (data : List (Word × Byte)) (a w : Word), ¬s.hasFaulted →
    (∀ p ∈ good, loadableEntry p) →
    (inDataSegment a = true →
      s.load (good ++ (a, w) :: rest) data = ((s.load good []).1, some (.segmentAccessViolation a))) ∧
    (inDataSegment a = false → a.extractLsb' 0 2 ≠ 0#2 →
      s.load (good ++ (a, w) :: rest) data = ((s.load good []).1, some (.valueOutOfRange a.toNat))) ∧
    (∀ goodData restData (d : Word) (b : Byte), (∀ p ∈ goodData, inDataSegment p.1 = true) → inDataSegment d = false →
      s.load good (goodData ++ (d, b) :: restData) = ((s.load good goodData).1, some (.segmentAccessViolation d)))

/-- spec/60_exceptions.md section 2: every operation of the host between cycles keeps the engine's invariant, a load that raises and a load
of textual fields included; and of a faulted engine the host can only read the state or reset it (R405, the spec's own decision D24), so
that load and setForwarding leave it as it is (that load then raises nothing is the model's choice, log entry 18). -/
def Obligations.HostOperationsKeepEngineInv : Prop :=
  (∀ s : State, EngineInv s →
    EngineInv s.resetKeepingConfig ∧ (∀ b, EngineInv (s.setForwarding b)) ∧
    (∀ image data, EngineInv (s.load image data).1) ∧ (∀ image data, EngineInv (s.loadText image data).1)) ∧
  (∀ s : State, s.hasFaulted →
    (∀ b, s.setForwarding b = s) ∧ (∀ image data, s.load image data = (s, none)) ∧
    (∀ image data, s.loadText image data = (s, none)))

/-! Integer instructions: the whole next state. -/

/-- spec/40_alu.md R203 and R215: `add` gives x[rs1] + x[rs2] and `addi` x[rs1] plus the sign-extended immediate, modulo 2^32. The
next state holds it in rd (nothing in x0), pc + 4, one more retired instruction in the ALU class (the counters are the spec's own
decision D26, spec/60_exceptions.md R414), and everything else as before. -/
def Obligations.AddAndAddiComplete : Prop :=
  ∀ (s : State) (rd rs1 rs2 : RegIdx) (imm : BitVec 12),
    exec (.add rd rs1 rs2) s = .next (s.afterAlu rd (s.readReg rs1 + s.readReg rs2)) ∧
    exec (.addi rd rs1 imm) s = .next (s.afterAlu rd (s.readReg rs1 + imm.signExtend 32))

/-- spec/40_alu.md section 2: the results of `sub`, `xor`, `or`, `and` and `mul`; the product is the one of the signed readings modulo
2^32 (the instructions are the spec's own decision D1). -/
def Obligations.RegisterArithmeticCompletes : Prop :=
  ∀ (s : State) (rd rs1 rs2 : RegIdx),
    exec (.sub rd rs1 rs2) s = .next (s.afterAlu rd (s.readReg rs1 - s.readReg rs2)) ∧
    exec (.xor rd rs1 rs2) s = .next (s.afterAlu rd (s.readReg rs1 ^^^ s.readReg rs2)) ∧
    exec (.or rd rs1 rs2) s = .next (s.afterAlu rd (s.readReg rs1 ||| s.readReg rs2)) ∧
    exec (.and rd rs1 rs2) s = .next (s.afterAlu rd (s.readReg rs1 &&& s.readReg rs2)) ∧
    exec (.mul rd rs1 rs2) s = .next (s.afterAlu rd (s.readReg rs1 * s.readReg rs2)) ∧
    ((s.readReg rs1 * s.readReg rs2).toInt - (s.readReg rs1).toInt * (s.readReg rs2).toInt) % 2 ^ 32 = 0

/-- spec/40_alu.md section 2: the shifts by x[rs2] modulo 32 and the signed comparison of `slt` (the shift amount is the spec's own
decision D20, the signedness D38). -/
def Obligations.ShiftsAndSltComplete : Prop :=
  ∀ (s : State) (rd rs1 rs2 : RegIdx),
    exec (.sll rd rs1 rs2) s = .next (s.afterAlu rd (s.readReg rs1 <<< ((s.readReg rs2).toNat % 32))) ∧
    exec (.srl rd rs1 rs2) s = .next (s.afterAlu rd (s.readReg rs1 >>> ((s.readReg rs2).toNat % 32))) ∧
    exec (.sra rd rs1 rs2) s = .next (s.afterAlu rd ((s.readReg rs1).sshiftRight ((s.readReg rs2).toNat % 32))) ∧
    exec (.slt rd rs1 rs2) s =
      .next (s.afterAlu rd (if (s.readReg rs1).toInt < (s.readReg rs2).toInt then 1#32 else 0#32))

/-- spec/40_alu.md R221: for every operand pair but a zero divisor and -2^31 by -1, `div` and `rem` complete under either DIV_POLICY
with the quotient rounded toward zero and the remainder of the dividend's sign; both fit 32 bits and satisfy the division identity
(the spec's own decision D21). -/
def Obligations.DivisionCompletes : Prop :=
  ∀ (s : State) (rd rs1 rs2 : RegIdx),
    (s.readReg rs2).toInt ≠ 0 → ¬((s.readReg rs1).toInt = -2 ^ 31 ∧ (s.readReg rs2).toInt = -1) →
    ∃ q r : Word,
      exec (.div rd rs1 rs2) s = .next (s.afterAlu rd q) ∧ exec (.rem rd rs1 rs2) s = .next (s.afterAlu rd r) ∧
      (s.readReg rs1).toInt = q.toInt * (s.readReg rs2).toInt + r.toInt ∧
      r.toInt.natAbs < (s.readReg rs2).toInt.natAbs ∧
      (r.toInt ≠ 0 → (r.toInt < 0 ↔ (s.readReg rs1).toInt < 0)) ∧
      q.toInt.natAbs * (s.readReg rs2).toInt.natAbs ≤ (s.readReg rs1).toInt.natAbs

/-- spec/40_alu.md R221, the two operand pairs without a quotient: under DIV_POLICY = Fault `div` and `rem` raise
ArithmeticUndefined with their pc and write no register; under DIV_POLICY = RiscV they complete with the stated values (the spec's own
decision D21). That pc has moved past the word on a failure is the model's reading (log entry 8). -/
def Obligations.UndefinedDivisionFollowsPolicy : Prop :=
  ∀ (s : State) (rd rs1 rs2 : RegIdx),
    ((s.readReg rs2 = 0#32 ∨ (s.readReg rs1 = 0x80000000#32 ∧ s.readReg rs2 = 0xFFFFFFFF#32)) → s.cfg.divPolicy = .fault →
      exec (.div rd rs1 rs2) s = .next (s.afterFailure (.arithmeticUndefined s.pc)) ∧
      exec (.rem rd rs1 rs2) s = .next (s.afterFailure (.arithmeticUndefined s.pc))) ∧
    (s.readReg rs2 = 0#32 → s.cfg.divPolicy = .riscv →
      exec (.div rd rs1 rs2) s = .next (s.afterAlu rd 0xFFFFFFFF#32) ∧
      exec (.rem rd rs1 rs2) s = .next (s.afterAlu rd (s.readReg rs1))) ∧
    (s.readReg rs1 = 0x80000000#32 → s.readReg rs2 = 0xFFFFFFFF#32 → s.cfg.divPolicy = .riscv →
      exec (.div rd rs1 rs2) s = .next (s.afterAlu rd 0x80000000#32) ∧
      exec (.rem rd rs1 rs2) s = .next (s.afterAlu rd 0#32))

/-- spec/40_alu.md section 3: `andi` and `ori` on x[rs1] and the sign-extended immediate (the instructions are the spec's own decision
D1). -/
def Obligations.ImmediateLogicCompletes : Prop :=
  ∀ (s : State) (rd rs1 : RegIdx) (imm : BitVec 12),
    exec (.andi rd rs1 imm) s = .next (s.afterAlu rd (s.readReg rs1 &&& imm.signExtend 32)) ∧
    exec (.ori rd rs1 imm) s = .next (s.afterAlu rd (s.readReg rs1 ||| imm.signExtend 32))

/-- spec/40_alu.md section 4: `lui` gives the field shifted left by 12; `auipc` adds that to the instruction's own pc modulo 2^32 (the
layout is the spec's own decision D2). -/
def Obligations.UpperImmediatesComplete : Prop :=
  ∀ (s : State) (rd : RegIdx) (imm : BitVec 20),
    exec (.lui rd imm) s = .next (s.afterAlu rd (imm.setWidth 32 <<< 12)) ∧
    exec (.auipc rd imm) s = .next (s.afterAlu rd (s.pc + imm.setWidth 32 <<< 12))

/-! Loads and stores. -/

/-- spec/41_loads_stores.md section 2: a load whose bytes all lie in the data partition (and, under UNWRITTEN_DATA_READ = Fault, have
all been written) completes with its bytes, lowest address least significant, sign-extended, at any alignment (the spec's own
decisions D5, D6, D8 and D37). -/
def Obligations.LoadsComplete : Prop :=
  ∀ (s : State) (rd rs1 : RegIdx) (imm : BitVec 12) (a : Word), a = s.readReg rs1 + imm.signExtend 32 →
    (accessInData a 1 → s.accessWritten a 1 →
      exec (.lb rd rs1 imm) s = .next (s.afterLoad rd ((s.dataByte a).signExtend 32))) ∧
    (accessInData a 2 → s.accessWritten a 2 →
      exec (.lh rd rs1 imm) s = .next (s.afterLoad rd ((s.dataByte (a + 1#32) ++ s.dataByte a).signExtend 32))) ∧
    (accessInData a 4 → s.accessWritten a 4 →
      exec (.lw rd rs1 imm) s =
        .next (s.afterLoad rd (s.dataByte (a + 3#32) ++ s.dataByte (a + 2#32) ++ s.dataByte (a + 1#32) ++ s.dataByte a)))

/-- spec/20_memory.md R81 and R84: a load that touches a byte below DATA_BASE raises SegmentAccessViolation with the first such byte;
one that touches none, but a byte nothing has written, raises UnwrittenRead with the first such byte under UNWRITTEN_DATA_READ =
Fault. Nothing but pc and status changes (that pc has moved past the word is log entry 8). -/
def Obligations.LoadErrors : Prop :=
  ∀ (s : State) (i : Instr) (rd rs1 : RegIdx) (imm : BitVec 12) (a : Word) (n k : Nat),
    ((i = .lb rd rs1 imm ∧ n = 1) ∨ (i = .lh rd rs1 imm ∧ n = 2) ∨ (i = .lw rd rs1 imm ∧ n = 4)) →
    a = s.readReg rs1 + imm.signExtend 32 → k < n →
    (accessInData a k → inDataSegment (a + BitVec.ofNat 32 k) = false →
      exec i s = .next (s.afterFailure (.segmentAccessViolation (a + BitVec.ofNat 32 k)))) ∧
    (accessInData a n → s.cfg.unwrittenDataRead = .fault → s.accessWritten a k →
      Memory.byteAt s.dmem (a + BitVec.ofNat 32 k) = none →
      exec i s = .next (s.afterFailure (.unwrittenRead (a + BitVec.ofNat 32 k))))

/-- spec/41_loads_stores.md R254 and R258: `ld` and `sd` raise UnsupportedWidth with their pc, whatever their address is, before any
access; no register and no byte changes (the memory stage as the place, and `sd`, are the spec's own decision D22; pc is log entry
8). -/
def Obligations.DoublewordAccessesRaise : Prop :=
  ∀ (s : State) (r rs1 : RegIdx) (imm : BitVec 12),
    exec (.ld r rs1 imm) s = .next (s.afterFailure (.unsupportedWidth s.pc)) ∧
    exec (.sd r rs1 imm) s = .next (s.afterFailure (.unsupportedWidth s.pc))

/-- spec/41_loads_stores.md section 3: a store whose bytes all lie in the data partition completes: byte k of x[rs2] stands at address
a + k, every other byte is as before, and the canonical form of memory is kept (the spec's own decisions D5 and D6). -/
def Obligations.StoresComplete : Prop :=
  ∀ (s : State) (i : Instr) (rs2 rs1 : RegIdx) (imm : BitVec 12) (a : Word) (n : Nat),
    ((i = .sb rs2 rs1 imm ∧ n = 1) ∨ (i = .sh rs2 rs1 imm ∧ n = 2) ∨ (i = .sw rs2 rs1 imm ∧ n = 4)) →
    a = s.readReg rs1 + imm.signExtend 32 → accessInData a n →
    ∃ m, exec i s = .next (s.afterStore m) ∧
      (∀ k < n, Memory.byteAt m (a + BitVec.ofNat 32 k) = some ((s.readReg rs2 >>> (8 * k)).setWidth 8)) ∧
      (∀ b, (∀ k < n, b ≠ a + BitVec.ofNat 32 k) → Memory.byteAt m b = Memory.byteAt s.dmem b) ∧
      (Memory.wf s.dmem → Memory.wf m)

/-- spec/20_memory.md R81 and R85: a store that touches a byte below DATA_BASE raises SegmentAccessViolation with the first such byte
and writes no byte at all (that pc has moved past the word is log entry 8). -/
def Obligations.StoreErrors : Prop :=
  ∀ (s : State) (i : Instr) (rs2 rs1 : RegIdx) (imm : BitVec 12) (a : Word) (n k : Nat),
    ((i = .sb rs2 rs1 imm ∧ n = 1) ∨ (i = .sh rs2 rs1 imm ∧ n = 2) ∨ (i = .sw rs2 rs1 imm ∧ n = 4)) →
    a = s.readReg rs1 + imm.signExtend 32 → k < n → accessInData a k → inDataSegment (a + BitVec.ofNat 32 k) = false →
    exec i s = .next (s.afterFailure (.segmentAccessViolation (a + BitVec.ofNat 32 k)))

/-- spec/41_loads_stores.md sections 2 and 3: a word stored by `sw` is what `lw` loads from the same address, and each of its bytes,
sign-extended, is what `lb` loads (derived from R84 and R85). -/
def Obligations.StoredWordIsLoaded : Prop :=
  ∀ (s t : State) (rd rs2 rs1 : RegIdx) (imm : BitVec 12),
    accessInData (s.readReg rs1 + imm.signExtend 32) 4 → exec (.sw rs2 rs1 imm) s = .next t →
    exec (.lw rd rs1 imm) t = .next (t.afterLoad rd (s.readReg rs2)) ∧
    (∀ (k : Nat) (off : BitVec 12), k < 4 → off.signExtend 32 = imm.signExtend 32 + BitVec.ofNat 32 k →
      exec (.lb rd rs1 off) t = .next (t.afterLoad rd (((s.readReg rs2 >>> (8 * k)).setWidth 8).signExtend 32)))

/-! Control transfer and halt. -/

/-- spec/42_control.md R280, R281 to R284: a branch goes to pc plus its sign-extended offset when its comparison holds (`blt` and `bge`
signed) and to pc + 4 otherwise, and writes no register; the predictor takes the outcome (the spec's own decisions D14 and D38). -/
def Obligations.BranchesComplete : Prop :=
  ∀ (s : State) (rs1 rs2 : RegIdx) (imm : BitVec 13),
    exec (.beq rs1 rs2 imm) s =
      .next (s.afterControl s.x (decide (s.readReg rs1 = s.readReg rs2)) (s.pc + imm.signExtend 32)) ∧
    exec (.bne rs1 rs2 imm) s =
      .next (s.afterControl s.x (decide (s.readReg rs1 ≠ s.readReg rs2)) (s.pc + imm.signExtend 32)) ∧
    exec (.blt rs1 rs2 imm) s =
      .next (s.afterControl s.x (decide ((s.readReg rs1).toInt < (s.readReg rs2).toInt)) (s.pc + imm.signExtend 32)) ∧
    exec (.bge rs1 rs2 imm) s =
      .next (s.afterControl s.x (decide ((s.readReg rs1).toInt ≥ (s.readReg rs2).toInt)) (s.pc + imm.signExtend 32))

/-- spec/42_control.md R285 and R286: `jal` and `jalr` are always taken and write pc + 4 to rd (nothing to x0); `jalr` uses x[rs1] as it
was before the link is written, and its target has bit 0 cleared (the spec's own decisions D19 and D45). -/
def Obligations.JumpsComplete : Prop :=
  ∀ (s : State) (rd rs1 : RegIdx) (off : BitVec 21) (imm : BitVec 12),
    exec (.jal rd off) s =
      .next (s.afterControl (regsAfterWrite s.x rd (s.pc + 4#32)) true (s.pc + off.signExtend 32)) ∧
    exec (.jalr rd rs1 imm) s =
      .next (s.afterControl (regsAfterWrite s.x rd (s.pc + 4#32)) true
        ((s.readReg rs1 + imm.signExtend 32) &&& 0xFFFFFFFE#32))

/-- spec/43_system.md R310: the halt word writes no register and no memory, counts as no retired instruction, and the status becomes
Halted (that fetch has moved past the word is log entry 8). -/
def Obligations.HaltCompletes : Prop :=
  ∀ s : State, exec .halt s = .next { s with pc := s.pc + 4#32, status := .halted }

/-- spec/10_state.md R31: x0 reads 0 in every state and a write to it is a no-op, every other register holds what is written to it, and
an instruction whose destination is x0 changes no register. -/
def Obligations.X0IsNeverWritten : Prop :=
  (∀ (s : State) (v : Word), s.readReg 0#5 = 0#32 ∧ s.writeReg 0#5 v = s ∧
    ∀ r, r ≠ 0#5 → (s.writeReg r v).readReg r = v ∧ ∀ q, q ≠ r → (s.writeReg r v).readReg q = s.readReg q) ∧
  (∀ (i : Instr) (s t : State), exec i s = .next t →
    t.x[0] = s.x[0] ∧ (destOf i = some 0#5 → ∀ r, t.readReg r = s.readReg r))

/-! Frames. -/

/-- Frame of the integer instructions (spec/40_alu.md): only rd, pc, the two retirement counters, and on ArithmeticUndefined the status
change; no byte of memory, no predictor entry, no buffer. -/
def Obligations.IntegerFrame : Prop :=
  ∀ (i : Instr) (s t : State), isInteger i = true → exec i s = .next t →
    (∀ r, destOf i ≠ some r → t.readReg r = s.readReg r) ∧ s.sameData t ∧ t.bht = s.bht ∧ t.btb = s.btb ∧ s.untouched t ∧
    t.stats.memCount = s.stats.memCount ∧ t.stats.ctrlCount = s.stats.ctrlCount ∧
    t.stats.ctrlHazards = s.stats.ctrlHazards ∧
    (t.status = s.status ∨
      ((mnemonicOf i = .div ∨ mnemonicOf i = .rem) ∧ t.status = .faulted (.arithmeticUndefined s.pc) ∧
        (∀ r, t.readReg r = s.readReg r) ∧ t.stats = s.stats))

/-- Frame of the loads (spec/41_loads_stores.md R260): a load stores nothing and changes no register but rd; when it raises, no
register and no counter changes. -/
def Obligations.LoadFrame : Prop :=
  ∀ (i : Instr) (s t : State), (mnemonicOf i).readsMemory = true → exec i s = .next t →
    (∀ r, destOf i ≠ some r → t.readReg r = s.readReg r) ∧ s.sameData t ∧ t.bht = s.bht ∧ t.btb = s.btb ∧ s.untouched t ∧
    t.stats.aluCount = s.stats.aluCount ∧ t.stats.ctrlCount = s.stats.ctrlCount ∧
    t.stats.ctrlHazards = s.stats.ctrlHazards ∧
    (t.status = s.status ∨ (t.hasFaulted ∧ (∀ r, t.readReg r = s.readReg r) ∧ t.stats = s.stats))

/-- Frame of the stores (spec/41_loads_stores.md R260): a store changes no register, and no byte outside the bytes at the address its
meaning computes; `sd`, which stores nothing, changes no byte; when a store raises, no byte changes. -/
def Obligations.StoreFrame : Prop :=
  ∀ (i : Instr) (s t : State), (mnemonicOf i).writesMemory = true → exec i s = .next t →
    (∀ r, t.readReg r = s.readReg r) ∧ t.bht = s.bht ∧ t.btb = s.btb ∧ s.untouched t ∧
    (∀ a n, storeTarget s i = some (a, n) → ∀ b : Word, (∀ k < n, b ≠ a + BitVec.ofNat 32 k) →
      Memory.byteAt t.dmem b = Memory.byteAt s.dmem b) ∧
    (storeTarget s i = none → s.sameData t) ∧
    t.stats.aluCount = s.stats.aluCount ∧ t.stats.ctrlCount = s.stats.ctrlCount ∧
    t.stats.ctrlHazards = s.stats.ctrlHazards ∧
    (t.status = s.status ∨ (t.hasFaulted ∧ s.sameData t ∧ t.stats = s.stats))

/-- Frame of the control instructions (spec/42_control.md): only rd of `jal` and `jalr`, pc, the predictor's entry at the instruction's own
address, and the counters of control instructions change. -/
def Obligations.ControlFrame : Prop :=
  ∀ (i : Instr) (s t : State), (decodedFields i).isControl = true → exec i s = .next t →
    (∀ r, destOf i ≠ some r → t.readReg r = s.readReg r) ∧ s.sameData t ∧ s.untouched t ∧ t.status = s.status ∧
    (∀ k, k ≠ s.pc.toNat → PMap.get t.bht k = PMap.get s.bht k ∧ PMap.get t.btb k = PMap.get s.btb k) ∧
    t.stats.aluCount = s.stats.aluCount ∧ t.stats.memCount = s.stats.memCount

/-! The step. -/

/-- A step runs the decoded instruction: from a running engine with an empty pipeline whose memory holds a word at pc and none after it,
five cycles (fetch, decode, execute, memory, write-back; spec/45_pipeline.md R320, R322) leave exactly the architectural state of the
instruction's meaning at that state, and its status. -/
def Obligations.CyclesRunTheDecodedInstruction : Prop :=
  ∀ (s t : State) (w : Word) (i : Instr),
    s.status = .running → s.drained → s.holdsWord s.pc w → decode w = some i →
    predictNext s.bht s.btb s.pc = .ok (s.pc + 4#32) → iMemReadWord s.imem (s.pc + 4#32) = .ok none →
    exec i s = .next t → (t.status = .running → iMemReadWord s.imem t.pc = .ok none) →
    ∃ s', Host.Core.run Sys2Proof.core 5 s = .next s' ∧ s'.architectural = t.architectural ∧ s'.status = t.status

/-- The instruction `withFetchWord` places is run by the very next step (log entry 9): instruction memory holds its word, it is the next to
execute, and every older instruction is done with the registers and data memory as they were; the step leaves, seen in order, exactly the
architectural state of the instruction's meaning there, or, where execute raises, its error (spec/45_pipeline.md R322, R325; derived). -/
def Obligations.PlacedInstructionRunsAtTheNextStep : Prop :=
  ∀ (s : State) (w : Word) (i : Instr), EngineInv s → decode w = some i →
    (s.withFetchWord 32 w.toNat).holdsWord s.placeAddr w ∧
    (s.withFetchWord 32 w.toNat).completed.pc = s.placeAddr ∧
    (s.withFetchWord 32 w.toNat).completed.x = s.x ∧ (s.withFetchWord 32 w.toNat).completed.dmem = s.dmem ∧
    ∃ t u, step (s.withFetchWord 32 w.toNat) = .next t ∧ exec i (s.withFetchWord 32 w.toNat).completed = .next u ∧
      (t.status = .running ∧ t.completed.architectural = u.architectural ∨ t.hasFaulted ∧ t.status = u.status)

/-- spec/45_pipeline.md R337: an engine that has left Running changes nothing when stepped (the spec's own decisions D24, D25). -/
def Obligations.StoppedEngineChangesNothing : Prop :=
  ∀ s : State, s.status ≠ .running → step s = .next s

/-- Every cycle of a coherent engine answers a next state: no error of the spec stops the model (spec/60_exceptions.md R405 is a next
state), and the two faults of the model stand only in states that no engine reaches. -/
def Obligations.CoherentEngineAlwaysSteps : Prop := ∀ s : State, EngineInv s → ∃ t, step s = .next t

/-- Every cycle keeps the engine's invariant, a cycle that ends in an error included: canonical memories that keep to their partition,
x0 stored as zero, `retired` the sum of its classes, predicted-taken addresses with a target, buffers that hold what decode takes from
their words. -/
def Obligations.EngineInvKept : Prop := ∀ s t : State, EngineInv s → step s = .next t → EngineInv t

/-- Every cycle that leaves the engine running keeps the path invariant: the words in flight are those of instruction memory, only
control instructions have predictor entries, fetch follows the prediction, and the operands decode passed on are the values every older
instruction leaves (spec/45_pipeline.md R331, R338; spec/70_reset_and_hazards.md R478, derived there). -/
def Obligations.PathInvKept : Prop :=
  ∀ s t : State, EngineInv s → PathInv s → step s = .next t → t.status = .running → PathInv t

/-- The pipeline is an in-order machine: seen through the instructions that have passed execute, a cycle either changes nothing
architectural or runs the meaning of exactly the one instruction that was in ID/EX (spec/42_control.md R290; spec/45_pipeline.md R338;
spec/70_reset_and_hazards.md R478, derived there). -/
def Obligations.PipelineRefinesInOrder : Prop :=
  ∀ s t : State, EngineInv s → PathInv s → s.status = .running → step s = .next t → ¬t.hasFaulted →
    (s.idex = none → t.completed.architectural = s.completed.architectural) ∧
    (∀ d, s.idex = some d → ∃ i u, decode d.word = some i ∧ s.completed.pc = d.pc ∧ exec i s.completed = .next u ∧
      t.completed.architectural = u.architectural)

/-- Prediction and forwarding are invisible: two engines that start with an empty pipeline on the same program, registers and memory,
whatever their predictors, their forwarding switches and their counters hold, leave the same registers and the same data memory when
both halt (spec/42_control.md R290 and spec/70_reset_and_hazards.md R478, derived there). -/
def Obligations.PredictionAndForwardingInvisible : Prop :=
  ∀ (s t s' t' : State) (n m : Nat),
    EngineInv s → PathInv s → EngineInv t → PathInv t → s.drained → t.drained → s.status = .running → t.status = .running →
    sameProgramState s t → haltIsLast s.imem →
    Host.Core.run Sys2Proof.core n s = .next s' → s'.status = .halted →
    Host.Core.run Sys2Proof.core m t = .next t' → t'.status = .halted →
    s'.dmem = t'.dmem ∧ ∀ r, s'.readReg r = t'.readReg r

/-- The cycle count of a run from reset that halts: the completed instructions with the halt word, plus 4, plus the stalls, plus 2 for
every misprediction (spec/70_reset_and_hazards.md R480, derived there), for every loaded image whose halt words have no word after
them. -/
def Obligations.HaltingRunCycleCount : Prop :=
  ∀ (cfg : Config) (image : List (Word × Word)) (data : List (Word × Byte)) (fwd : Bool) (n : Nat) (s' : State),
    haltIsLast (boot cfg image data fwd).1.imem →
    Host.Core.run Sys2Proof.core n (boot cfg image data fwd).1 = .next s' → s'.status = .halted →
    s'.stats.cycles = (s'.stats.retired + 1) + 4 + s'.stats.stalls + 2 * s'.stats.mispredicts

/-! The stages. -/

/-- spec/10_state.md R32, spec/20_memory.md R95, spec/10_state.md R40: in a cycle only the destination of the instruction in MEM/WB can
change a register, only a store in EX/MEM can change data memory, and instruction memory, the forwarding switch and the parameters
never change (R95 is derived there). -/
def Obligations.CycleWritesOnlyThroughItsStages : Prop :=
  ∀ s t : State, step s = .next t →
    (∀ r, (∀ m, s.memwb = some m → m.regWrite = true → m.rd ≠ some r) → t.readReg r = s.readReg r) ∧
    ((∀ e, s.exmem = some e → e.memWrite = false) → t.dmem = s.dmem) ∧
    t.imem = s.imem ∧ t.fwd = s.fwd ∧ t.cfg = s.cfg

/-- spec/45_pipeline.md R323: write-back puts `wbValue` into the destination of the instruction in MEM/WB, a no-op for x0 and for an
instruction without write-back; a bubble does nothing; and write-back writes no other register. The halt word there ends the run
(spec/45_pipeline.md R336, decision D25), in Halted unless a later stage of that cycle raises (spec/60_exceptions.md R405, decision
D24); what counts as retired is decision D26 (spec/60_exceptions.md R414). -/
def Obligations.WriteBackWritesTheDestination : Prop :=
  ∀ s t : State, s.status = .running → step s = .next t →
    (s.memwb = none → (∀ r, t.readReg r = s.readReg r) ∧ t.stats.retired = s.stats.retired ∧ t.status ≠ .halted) ∧
    (∀ m, s.memwb = some m → m.ins ≠ .halt →
      (∀ r, t.readReg r = if m.regWrite = true ∧ m.rd = some r ∧ r ≠ 0#5 then m.wbValue else s.readReg r) ∧
      t.stats.retired = s.stats.retired + 1 ∧ t.status ≠ .halted) ∧
    (∀ m, s.memwb = some m → m.ins = .halt →
      (∀ r, t.readReg r = s.readReg r) ∧ t.stats.retired = s.stats.retired ∧ (t.status = .halted ∨ t.hasFaulted))

/-- spec/45_pipeline.md R326 and R333: when the instruction in ID/EX resolves to an address that IF/ID does not hold, the cycle empties
IF/ID and ID/EX, sends fetch to the resolved address, and counts and logs exactly one flush (the test is the spec's own decision D13,
the timing D16). -/
def Obligations.MispredictionFlushesAndRedirects : Prop :=
  ∀ (s t : State) (d : IDEX) (taken : Bool) (target : Word),
    s.status = .running → s.idex = some d → recordCoherent d → d.isControl = true → resolve s d = .ok (taken, target) →
    (∀ f, s.ifid = some f → f.pc ≠ resolvedNext d.pc taken target) → step s = .next t → ¬t.hasFaulted →
    t.ifid = none ∧ t.idex = none ∧ t.pc = resolvedNext d.pc taken target ∧
    t.stats.mispredicts = s.stats.mispredicts + 1 ∧ t.stats.stalls = s.stats.stalls ∧
    t.events = [.flush d.pc (resolvedNext d.pc taken target)]

/-- spec/45_pipeline.md R326: when IF/ID holds the resolved address, nothing is flushed or counted as mispredicted, and the instruction
there is decoded in this cycle: it moves to ID/EX, or it stalls and stays (the test is the spec's own decision D13). -/
def Obligations.CorrectPredictionGoesOn : Prop :=
  ∀ (s t : State) (d : IDEX) (f : IFID) (taken : Bool) (target : Word),
    s.status = .running → s.idex = some d → recordCoherent d → d.isControl = true → resolve s d = .ok (taken, target) →
    s.ifid = some f → f.pc = resolvedNext d.pc taken target → step s = .next t → ¬t.hasFaulted →
    t.stats.mispredicts = s.stats.mispredicts ∧ (∀ p n, Event.flush p n ∉ t.events) ∧
    ((∃ d', t.idex = some d' ∧ d'.toIFID = f) ∨ (t.idex = none ∧ Event.stall f.pc ∈ t.events))

/-- spec/45_pipeline.md R327: every resolution, mispredicted or not, sets the direction at the instruction's address, and its target only if
taken; no other entry changes, and a cycle without a resolution changes no entry at all (the spec's own decision D14). A resolution is
execute's, so it stands in a cycle that raises in decode or fetch afterwards (spec/60_exceptions.md R405, decision D24), and there is none
in a cycle that memory ends before execute runs. -/
def Obligations.PredictorLearnsEveryResolution : Prop :=
  ∀ s t : State, EngineInv s → s.status = .running → step s = .next t →
    ((∀ d, s.idex = some d → d.isControl = false) →
      t.bht = s.bht ∧ t.btb = s.btb ∧ t.stats.ctrlHazards = s.stats.ctrlHazards) ∧
    ((∀ s2, memStage (wbStage s).1 ≠ .ok s2) →
      t.bht = s.bht ∧ t.btb = s.btb ∧ t.stats.ctrlHazards = s.stats.ctrlHazards) ∧
    (∀ d taken target s2, memStage (wbStage s).1 = .ok s2 → s.idex = some d → d.isControl = true →
      resolve s d = .ok (taken, target) →
      PMap.get t.bht d.pc.toNat = some taken ∧
      PMap.get t.btb d.pc.toNat = (if taken then some target else PMap.get s.btb d.pc.toNat) ∧
      (∀ k, k ≠ d.pc.toNat → PMap.get t.bht k = PMap.get s.bht k ∧ PMap.get t.btb k = PMap.get s.btb k) ∧
      t.stats.ctrlHazards = s.stats.ctrlHazards + 1)

/-- spec/45_pipeline.md R332 and spec/70_reset_and_hazards.md R475: a cycle that counts a stall leaves IF/ID holding the same instruction,
puts a bubble into ID/EX, logs the stall, and sets pc from the prediction for the stalled address, which is pc as it was when ID/EX held
no control instruction (the refetch is the spec's own decision D12). -/
def Obligations.StallKeepsTheInstruction : Prop :=
  ∀ s t : State, EngineInv s → PathInv s → s.status = .running → step s = .next t → ¬t.hasFaulted →
    t.stats.stalls ≠ s.stats.stalls →
    ∃ f, s.ifid = some f ∧ t.ifid = some f ∧ t.idex = none ∧ t.stats.stalls = s.stats.stalls + 1 ∧
      t.stats.dataHazards = s.stats.dataHazards + 1 ∧ Event.stall f.pc ∈ t.events ∧
      predictNext t.bht t.btb f.pc = .ok t.pc ∧
      ((∀ d, s.idex = some d → d.isControl = false) → t.pc = s.pc)

/-- spec/70_reset_and_hazards.md R471 and R472: what the hazard unit does for one source operand, row by row of the table (the precedence
of the EX producer is the spec's own decision D11, x0 and absent operands D10). -/
def Obligations.HazardTable : Prop :=
  ∀ (s : State) (name : Source) (r : RegIdx), r ≠ 0#5 →
    (∀ p, s.exmem = some p → p.regWrite = true → p.rd = some r →
      (s.fwd = false ∨ p.memRead = true → (checkOperand s name (some r)).stall = true) ∧
      (s.fwd = true → p.memRead = false →
        (checkOperand s name (some r)).stall = false ∧ (checkOperand s name (some r)).value = p.result ∧
        (checkOperand s name (some r)).fwds = [.forward .ex name r p.result])) ∧
    ((∀ p, s.exmem = some p → p.regWrite = true → p.rd ≠ some r) →
      (∀ q, s.memwb = some q → q.regWrite = true → q.rd = some r →
        (s.fwd = false → (checkOperand s name (some r)).stall = true) ∧
        (s.fwd = true → (checkOperand s name (some r)).stall = false ∧ (checkOperand s name (some r)).value = q.wbValue ∧
          (checkOperand s name (some r)).fwds = [.forward .mem name r q.wbValue])) ∧
      ((∀ q, s.memwb = some q → q.regWrite = true → q.rd ≠ some r) →
        (checkOperand s name (some r)).stall = false ∧ (checkOperand s name (some r)).hit = false ∧
        (checkOperand s name (some r)).value = s.readReg r)) ∧
    (∀ src : Option RegIdx, src = none ∨ src = some 0#5 →
      (checkOperand s name src).stall = false ∧ (checkOperand s name src).hit = false ∧
      (checkOperand s name src).value = 0#32)

/-- spec/70_reset_and_hazards.md R477: with forwarding disabled no cycle of a running engine logs a Forward event, while the hazard unit
still detects a producer, logs it, and stalls on it. -/
def Obligations.NoForwardWhenDisabled : Prop :=
  ∀ s : State, s.fwd = false →
    (∀ t, s.status = .running → step s = .next t →
      ∀ (st : Stage) (op : Source) (r : RegIdx) (v : Word), Event.forward st op r v ∉ t.events) ∧
    (∀ (name : Source) (r : RegIdx), r ≠ 0#5 →
      (∀ p, s.exmem = some p → p.regWrite = true → p.rd = some r →
        (checkOperand s name (some r)).stall = true ∧ Event.hazard .ex name r ∈ (checkOperand s name (some r)).hazards) ∧
      (∀ q, s.memwb = some q → q.regWrite = true → q.rd = some r →
        (checkOperand s name (some r)).stall = true ∧ Event.hazard .mem name r ∈ (checkOperand s name (some r)).hazards))

/-- spec/60_exceptions.md R402 and R403: the only errors a cycle can end in, each with its stage's cause; write-back raises nothing, and a
stall, a flush or a fetch miss is none of them. A SegmentAccessViolation of the memory stage names the first byte of the access below
DATA_BASE; an UnwrittenRead names the first byte of the access that nothing has written, and then the whole access lies in the data
partition (that each kind stands with its parameter is the spec's own decisions D8, D21 to D24). -/
def Obligations.OnlyTheStatedErrors : Prop :=
  ∀ (s t : State) (e : Error), EngineInv s → s.status = .running → step s = .next t → t.status = .faulted e →
    (∃ m, s.exmem = some m ∧ (m.ins = .ld ∨ m.ins = .sd) ∧ e = .unsupportedWidth m.pc) ∨
    (∃ m n k, s.exmem = some m ∧ (m.memRead = true ∨ m.memWrite = true) ∧ m.ins.accessWidth = some n ∧ k < n ∧
      accessInData m.result k ∧ (m.result + BitVec.ofNat 32 k).toNat < 0x10000000 ∧
      e = .segmentAccessViolation (m.result + BitVec.ofNat 32 k)) ∨
    (∃ m n k, s.exmem = some m ∧ m.memRead = true ∧ s.cfg.unwrittenDataRead = .fault ∧ m.ins.accessWidth = some n ∧ k < n ∧
      accessInData m.result n ∧ s.accessWritten m.result k ∧ Memory.byteAt s.dmem (m.result + BitVec.ofNat 32 k) = none ∧
      e = .unwrittenRead (m.result + BitVec.ofNat 32 k)) ∨
    (∃ d, s.idex = some d ∧ (d.ins = .div ∨ d.ins = .rem) ∧ s.cfg.divPolicy = .fault ∧ e = .arithmeticUndefined d.pc) ∨
    (∃ f, s.ifid = some f ∧ decode f.word = none ∧ e = .unknownWord f.word) ∨
    (∃ a, e = .segmentAccessViolation a ∧ 0x10000000 ≤ a.toNat ∧ (a = s.pc ∨ ∃ f, s.ifid = some f ∧ a = f.pc))

/-- spec/60_exceptions.md R405: a cycle that ends in an error leaves pc and `cycles` as they were, and the
write-back of the instruction in MEM/WB stands; a cycle that ends in none counts itself (the spec's own decision D24). -/
def Obligations.ErrorEndsTheCycle : Prop :=
  ∀ s t : State, s.status = .running → step s = .next t →
    (t.hasFaulted → t.pc = s.pc ∧ t.stats.cycles = s.stats.cycles ∧ t.x = (wbStage s).1.x ∧
      t.stats.retired = (wbStage s).1.stats.retired) ∧
    (¬t.hasFaulted → t.stats.cycles = s.stats.cycles + 1)

/-- spec/30_encoding.md R136: a word that matches no row, in IF/ID with nothing in ID/EX or EX/MEM before it, ends the cycle at decode with
UnknownMnemonic and the word; fetch does not run (the spec's own decision D23). -/
def Obligations.UnknownWordEndsAtDecode : Prop :=
  ∀ (s : State) (f : IFID), s.status = .running → s.ifid = some f → decode f.word = none → s.idex = none → s.exmem = none →
    ∃ t, step s = .next t ∧ t.status = .faulted (.unknownWord f.word) ∧ t.pc = s.pc ∧ t.ifid = some f ∧ t.memwb = none ∧
      t.stats.cycles = s.stats.cycles

/-- spec/45_pipeline.md R330, R331, R334 and spec/20_memory.md R81: the fetch of an engine with an empty pipeline. A word that is there goes
into IF/ID and pc becomes the prediction; a miss changes nothing but `cycles`; an address of the data partition is
SegmentAccessViolation (the spec's own decisions D15, D17 and D18). -/
def Obligations.FetchFromAnEmptyPipeline : Prop :=
  ∀ s : State, s.status = .running → s.drained →
    (∀ w, s.holdsWord s.pc w → (PMap.get s.bht s.pc.toNat = some true → PMap.get s.btb s.pc.toNat ≠ none) →
      step s = .next { s with
        ifid := some { pc := s.pc, nextPc := s.pc + 4#32, word := w }
        pc := if PMap.get s.bht s.pc.toNat = some true then (PMap.get s.btb s.pc.toNat).getD 0#32 else s.pc + 4#32
        stats := { s.stats with cycles := s.stats.cycles + 1 }
        events := [] }) ∧
    (iMemReadWord s.imem s.pc = .ok none →
      step s = .next { s with stats := { s.stats with cycles := s.stats.cycles + 1 }, events := [] }) ∧
    (inDataSegment s.pc = true →
      step s = .next { s with status := .faulted (.segmentAccessViolation s.pc), events := [] })

/-! The assembler. -/

/-- spec/30_encoding.md R140 and R148: what the encoder answers for a statement is the instruction's word, the word is never the halt word,
and it decodes to that instruction whenever the offset is even. -/
def Obligations.EncodedStatementDecodes : Prop :=
  ∀ (pc : Nat) (name : Text) (ops : List Text) (sym : SymTab) (e : Encoded), encodeStatement pc name ops sym = .ok e →
    e.word = encode e.instr ∧ e.word ≠ haltWord ∧ parseMnemonic name = some (mnemonicOf e.instr) ∧
    (e.instr.wellFormed = true → decode e.word = some e.instr)

/-- spec/30_encoding.md R144, R146, R145 and R147: a literal is accepted exactly inside its format's range, and so is the offset of a
branch (a signed 13-bit span) and of `jal` (a signed 21-bit span); an accepted offset is the immediate of the instruction, and outside its
span the error is ValueOutOfRange with the value (that the operand is a label is the spec's own decision D31). -/
def Obligations.ImmediateRanges : Prop :=
  (∀ (t : Text) (l : Literal), parseLiteral t = .ok l →
    parseImm12 t = (if -2048 ≤ l.value ∧ l.value ≤ 2047 then .ok l.value else .error (.valueOutOfRange l.value)) ∧
    parseImm20 t = (if 0 ≤ l.value ∧ l.value ≤ 1048575 then .ok l.value else .error (.valueOutOfRange l.value))) ∧
  (∀ (pc : Nat) (name : Text) (a b l : Text) (sym : SymTab) (target : Nat) (ra rb : RegIdx) (off : Int),
    name ∈ [['b','e','q'], ['b','n','e'], ['b','l','t'], ['b','g','e']] → sym.find l = some target →
    parseRegister a = .ok ra → parseRegister b = .ok rb → off = (target : Int) - pc →
    (-4096 ≤ off ∧ off ≤ 4095 → ∃ e, encodeStatement pc name [a, b, l] sym = .ok e ∧ e.trace.imm = some off ∧
      immOf e.instr = some (BitVec.ofInt 32 off)) ∧
    (¬(-4096 ≤ off ∧ off ≤ 4095) → encodeStatement pc name [a, b, l] sym = .error (.error (.valueOutOfRange off)))) ∧
  (∀ (pc : Nat) (a l : Text) (sym : SymTab) (target : Nat) (rd : RegIdx) (off : Int),
    sym.find l = some target → parseRegister a = .ok rd → off = (target : Int) - pc →
    (-1048576 ≤ off ∧ off ≤ 1048575 → ∃ e, encodeStatement pc ['j','a','l'] [a, l] sym = .ok e ∧ e.trace.imm = some off ∧
      immOf e.instr = some (BitVec.ofInt 32 off)) ∧
    (¬(-1048576 ≤ off ∧ off ≤ 1048575) →
      encodeStatement pc ['j','a','l'] [a, l] sym = .error (.error (.valueOutOfRange off))))

/-- spec/30_encoding.md R155: a source whose labels are pairwise different has a symbol table, with exactly those labels; in any other
source the first label that repeats an earlier one is DuplicateLabel, whatever the lines hold and wherever they stand. -/
def Obligations.LabelsAreUnique : Prop :=
  (∀ ls : List SourceLine, (ls.filterMap (·.label)).Nodup →
    ∃ t, symbolTable ls = .ok t ∧ t.map (·.1) = ls.filterMap (·.label)) ∧
  (∀ (ls : List SourceLine) (t : SymTab), symbolTable ls = .ok t → (t.map (·.1)).Nodup) ∧
  (∀ (before after : List SourceLine) (line : SourceLine) (l : Text),
    (before.filterMap (·.label)).Nodup → line.label = some l → l ∈ before.filterMap (·.label) →
    symbolTable (before ++ line :: after) = .error (.error (.duplicateLabel l)))

/-- spec/30_encoding.md R156 and R157: the k-th text statement is encoded at 4k and is entry k of the instruction image, and one entry
more, the halt word, follows the last; a source with no statement is the halt word alone. That TEXT_BASE is 0 is the spec's own
decision D3; that a source too large for the address space has its image addresses taken modulo 2^32, and the encoder's not, is the
model's choice (log entry 15). -/
def Obligations.HaltWordFollowsTheProgram : Prop :=
  ∀ (ls : List SourceLine) (o : AsmOutput), assemble ls = .ok o →
    o.image.length = (textStatements .text ls).length + 1 ∧
    o.image[(textStatements .text ls).length]? =
      some (BitVec.ofNat 32 (4 * (textStatements .text ls).length), 0x00000073#32) ∧
    (∀ k name ops, (textStatements .text ls)[k]? = some (name, ops) → ∃ sym e, symbolTable ls = .ok sym ∧
      encodeStatement (4 * k) name ops sym = .ok e ∧ o.image[k]? = some (BitVec.ofNat 32 (4 * k), e.word))

/-- spec/30_encoding.md sections 6 and 7: the instruction image has the words at consecutive multiples of 4 from TEXT_BASE, the last of
them and only the last the halt word; the data image has the bytes at consecutive addresses from DATA_BASE (the text origin is the
spec's own decision D3, the data layout D32). For a source too large for the address space both address clauses hold modulo 2^32, which
is the model's choice (log entry 15). -/
def Obligations.AssembledImageLayout : Prop :=
  ∀ (ls : List SourceLine) (o : AsmOutput), assemble ls = .ok o →
    (∀ k e, o.text[k]? = some e → e.addr = BitVec.ofNat 32 (4 * k) ∧ (e.word = haltWord ↔ k + 1 = o.text.length)) ∧
    o.text ≠ [] ∧
    (∀ k p, o.data[k]? = some p → p.1 = BitVec.ofNat 32 (0x10000000 + k))

/-- spec/30_encoding.md R163 and spec/70_reset_and_hazards.md R462: an assembled program that fits the two partitions loads after reset
without an error, and the loaded instruction memory has no word after the halt word (derived from R157, used in
spec/45_pipeline.md R334). -/
def Obligations.AssembledProgramLoads : Prop :=
  ∀ (ls : List SourceLine) (o : AsmOutput), assemble ls = .ok o → 4 * o.text.length ≤ 0x10000000 →
    o.data.length ≤ 0xF0000000 →
    (State.reset.load o.image o.data).2 = none ∧
    (4 * o.text.length < 0x10000000 → haltIsLast (State.reset.load o.image o.data).1.imem)

end
end

