-- ==== Sys2Proof/Laws/Assembler.lean ====
section
/-! SUPPORT. The assembler's token forms and string bytes, and what a load of textual blocks can do. -/

namespace Sys2Proof.Machine

/-- The elements up to the first one that equals c, where a list without c stands before it. -/
theorem takeWhile_ne_append (c : Char) (l r : Text) (h : c ∉ l) : (l ++ c :: r).takeWhile (· ≠ c) = l := by
  induction l with
  | nil => simp
  | cons a l ih =>
    simp only [List.mem_cons, not_or] at h
    simpa [Ne.symm h.1] using ih h.2

/-- What is left from the first element that equals c. -/
theorem dropWhile_ne_append (c : Char) (l r : Text) (h : c ∉ l) : (l ++ c :: r).dropWhile (· ≠ c) = c :: r := by
  induction l with
  | nil => simp
  | cons a l ih =>
    simp only [List.mem_cons, not_or] at h
    simpa [Ne.symm h.1] using ih h.2

/-- `imm(rs1)` splits into its two parts whatever the immediate is, the character literal `'('` included (spec/30_encoding.md R143,
R152): a register token has no parenthesis. -/
theorem splitMemOperand_form (imm reg : Text) (h : '(' ∉ reg) : splitMemOperand (imm ++ '(' :: reg ++ [')']) = some (imm, reg) := by
  have hr : (imm ++ '(' :: reg ++ [')']).reverse = ')' :: (reg.reverse ++ '(' :: imm.reverse) := by simp
  have hm : '(' ∉ reg.reverse := by simpa using h
  simp only [splitMemOperand, hr, dropWhile_ne_append '(' _ _ hm, takeWhile_ne_append '(' _ _ hm, List.reverse_reverse]

/-- No character's byte is 0x00. -/
theorem charByte_ne_zero (c : Char) : charByte c ≠ 0#8 := by
  intro h
  have hn := congrArg BitVec.toNat h
  unfold charByte at hn
  split at hn
  · simp only [BitVec.toNat_ofNat] at hn
    omega
  · simp only [BitVec.toNat_ofNat] at hn
    have := (Config.wideCharByte c.toNat).isLt
    omega

/-- No escape's byte is 0x00. -/
theorem escapeByte_ne_zero {c : Char} {b : Byte} (h : escapeByte c = some b) : b ≠ 0#8 := by
  unfold escapeByte at h
  split_ifs at h <;> cases h <;> decide

/-- `.asciz` never emits 0x00 (spec/30_encoding.md R161). -/
theorem ascizBytes_nonzero (name : Text) (t : Text) (bs : List Byte) (h : ascizBytes name t = .ok bs) : 0#8 ∉ bs := by
  induction t using ascizBytes.induct generalizing bs with
  | case1 => cases h; exact List.not_mem_nil
  | case2 c r b hb ih =>
    simp only [ascizBytes, hb] at h
    cases hr : ascizBytes name r with
    | error e => simp [hr, bind, Except.bind] at h
    | ok q =>
      simp only [hr, bind, Except.bind, pure, Except.pure, Except.ok.injEq] at h
      subst h
      simp only [List.mem_cons, not_or]
      exact ⟨(escapeByte_ne_zero hb).symm, ih q hr⟩
  | case3 c r hb => simp [ascizBytes, hb] at h
  | case4 => simp [ascizBytes] at h
  | case5 r => simp [ascizBytes] at h
  | case6 c r h1 h2 h3 ih =>
    rw [ascizBytes.eq_5 name c r (by simpa using h1) (by simpa using h2) (by simpa using h3)] at h
    cases hr : ascizBytes name r with
    | error e => simp [hr, bind, Except.bind] at h
    | ok q =>
      simp only [hr, bind, Except.bind, pure, Except.pure, Except.ok.injEq] at h
      subst h
      simp only [List.mem_cons, not_or]
      exact ⟨(charByte_ne_zero c).symm, ih q hr⟩

/-! Textual loads (spec/70_reset_and_hazards.md R462). -/

/-- A block whose fields are all good is its parsed entries. -/
theorem parseLoadBlock_good {bits : Nat} {ps : List (Text × Text)} {qs : List (Word × BitVec bits)}
    (h : ps.map (parseLoadEntry bits) = qs.map .ok) : parseLoadBlock bits ps = (qs, none) := by
  induction ps generalizing qs with
  | nil => cases qs <;> simp_all [parseLoadBlock]
  | cons p ps ih =>
    cases qs with
    | nil => simp at h
    | cons q qs =>
      simp only [List.map_cons, List.cons.injEq] at h
      simp [parseLoadBlock, h.1, ih h.2]

/-- A block whose first bad field stands after good entries is those entries and that field's error. -/
theorem parseLoadBlock_bad {bits : Nat} {ps rest : List (Text × Text)} {p : Text × Text} {qs : List (Word × BitVec bits)} {e : Error}
    (h : ps.map (parseLoadEntry bits) = qs.map .ok) (hp : parseLoadEntry bits p = .error e) :
    parseLoadBlock bits (ps ++ p :: rest) = (qs, some e) := by
  induction ps generalizing qs with
  | nil => cases qs <;> simp_all [parseLoadBlock]
  | cons a ps ih =>
    cases qs with
    | nil => simp at h
    | cons q qs =>
      simp only [List.map_cons, List.cons.injEq] at h
      simp [parseLoadBlock, h.1, ih h.2]

/-- A fill that raises in its instruction block does not reach its data block. -/
theorem fillMemories_error_of_words {s : State} {ws : List (Word × Word)} {e : Error} (bs : List (Word × Byte))
    (h : (s.fillMemories ws []).2 = some e) : s.fillMemories ws bs = s.fillMemories ws [] := by
  unfold State.fillMemories at h ⊢
  cases hi : loadImage s.imem ws with
  | mk im r =>
    cases r with
    | some e' => rfl
    | none => rw [hi] at h; simp [loadData] at h

/-- A fill from texts whose fields are all good is the fill from their values. -/
theorem fillMemoriesText_good {s : State} {image data : List (Text × Text)} {ws : List (Word × Word)} {bs : List (Word × Byte)}
    (hw : image.map (parseLoadEntry 32) = ws.map .ok) (hb : data.map (parseLoadEntry 8) = bs.map .ok) :
    s.fillMemoriesText image data = s.fillMemories ws bs := by
  unfold State.fillMemoriesText
  rw [parseLoadBlock_good hw, parseLoadBlock_good hb]
  dsimp only
  cases h : s.fillMemories ws [] with
  | mk t r =>
    cases r with
    | some e => dsimp only; rw [fillMemories_error_of_words bs (e := e) (by rw [h]), h]
    | none =>
      dsimp only
      cases h2 : s.fillMemories ws bs with
      | mk u q => cases q <;> rfl

/-- A bad field of the instruction block after entries that fill leaves what those entries wrote, and is the error. -/
theorem fillMemoriesText_bad_word {s : State} {ps rest data : List (Text × Text)} {p : Text × Text} {ws : List (Word × Word)} {e : Error}
    (hw : ps.map (parseLoadEntry 32) = ws.map .ok) (hp : parseLoadEntry 32 p = .error e) (hl : (s.fillMemories ws []).2 = none) :
    s.fillMemoriesText (ps ++ p :: rest) data = ((s.fillMemories ws []).1, some e) := by
  unfold State.fillMemoriesText
  rw [parseLoadBlock_bad hw hp]
  dsimp only
  cases h : s.fillMemories ws [] with
  | mk t r => rw [h] at hl; cases hl; rfl

/-- For the state, every fill from texts is a fill from pairs. -/
theorem fillMemoriesText_state (s : State) (image data : List (Text × Text)) :
    ∃ ws bs, (s.fillMemoriesText image data).1 = (s.fillMemories ws bs).1 := by
  unfold State.fillMemoriesText
  dsimp only
  cases hw : s.fillMemories (parseLoadBlock 32 image).1 [] with
  | mk t r =>
    cases r with
    | some e => exact ⟨_, _, by rw [hw]⟩
    | none =>
      cases (parseLoadBlock 32 image).2 with
      | some e => exact ⟨_, _, by rw [hw]⟩
      | none =>
        dsimp only
        cases hb : s.fillMemories (parseLoadBlock 32 image).1 (parseLoadBlock 8 data).1 with
        | mk u q => cases q <;> exact ⟨_, _, by rw [hb]⟩

/-! The host's writes and the run status (spec/60_exceptions.md R405). -/

/-- The host's writes act exactly on an engine that has not faulted. -/
theorem takesHostWrites_iff {s : State} : s.takesHostWrites = true ↔ ¬∃ e, s.status = .faulted e := by
  unfold State.takesHostWrites
  cases s.status <;> simp

/-- On an engine that takes the host's writes, `load` is the pseudocode of spec/70_reset_and_hazards.md R462. -/
theorem load_eq_fillMemories {s : State} (h : s.takesHostWrites = true) (ws : List (Word × Word)) (bs : List (Word × Byte)) :
    s.load ws bs = s.fillMemories ws bs := by
  simp [State.load, h]

/-- For the state, every textual load is a load of pairs, or writes nothing: it leaves what `load` leaves. -/
theorem loadText_state (s : State) (image data : List (Text × Text)) : ∃ ws bs, (s.loadText image data).1 = (s.load ws bs).1 := by
  unfold State.loadText State.load
  split
  · exact fillMemoriesText_state s image data
  · exact ⟨[], [], rfl⟩

/-- A textual load whose fields are all good is the load of their values, in every run status. -/
theorem loadText_good {s : State} {image data : List (Text × Text)} {ws : List (Word × Word)} {bs : List (Word × Byte)}
    (hw : image.map (parseLoadEntry 32) = ws.map .ok) (hb : data.map (parseLoadEntry 8) = bs.map .ok) :
    s.loadText image data = s.load ws bs := by
  unfold State.loadText State.load
  rw [fillMemoriesText_good hw hb]

end Sys2Proof.Machine
end

