-- ==== Sys2Proof/Laws/Encoding.lean ====
section
/-! SUPPORT. The bits of the packings (spec/30_encoding.md R122 to R127), the fields of a packed word, and the packing of a word's
fields. The round trips of the decoder and the encoder rest on these alone. -/

namespace Sys2Proof

/-! The bits of each packing. -/

/-- Bit i of a R-format word. -/
theorem getLsbD_packR (f7 : BitVec 7) (rs2 rs1 : RegIdx) (f3 : BitVec 3) (rd : RegIdx) (op : BitVec 7) (i : Nat) :
    (packR f7 rs2 rs1 f3 rd op).getLsbD i =
      if i < 7 then op.getLsbD i
      else if i < 12 then rd.getLsbD (i - 7)
      else if i < 15 then f3.getLsbD (i - 12)
      else if i < 20 then rs1.getLsbD (i - 15)
      else if i < 25 then rs2.getLsbD (i - 20)
      else f7.getLsbD (i - 25) := by
  show BitVec.getLsbD (w := 7 + 5 + 5 + 3 + 5 + 7)
    (f7 ++ rs2 ++ rs1 ++ f3 ++ rd ++ op) i = _
  simp only [BitVec.getLsbD_append]
  split_ifs <;> first | rfl | omega

/-- Bit i of a I-format word. -/
theorem getLsbD_packI (v : BitVec 12) (rs1 : RegIdx) (f3 : BitVec 3) (rd : RegIdx) (op : BitVec 7) (i : Nat) :
    (packI v rs1 f3 rd op).getLsbD i =
      if i < 7 then op.getLsbD i
      else if i < 12 then rd.getLsbD (i - 7)
      else if i < 15 then f3.getLsbD (i - 12)
      else if i < 20 then rs1.getLsbD (i - 15)
      else v.getLsbD (i - 20) := by
  show BitVec.getLsbD (w := 12 + 5 + 3 + 5 + 7)
    (v ++ rs1 ++ f3 ++ rd ++ op) i = _
  simp only [BitVec.getLsbD_append]
  split_ifs <;> first | rfl | omega

/-- Bit i of a S-format word. -/
theorem getLsbD_packS (v : BitVec 12) (rs2 rs1 : RegIdx) (f3 : BitVec 3) (op : BitVec 7) (i : Nat) (hi : i < 32) :
    (packS v rs2 rs1 f3 op).getLsbD i =
      if i < 7 then op.getLsbD i
      else if i < 12 then v.getLsbD (i - 7)
      else if i < 15 then f3.getLsbD (i - 12)
      else if i < 20 then rs1.getLsbD (i - 15)
      else if i < 25 then rs2.getLsbD (i - 20)
      else v.getLsbD (i - 20) := by
  show BitVec.getLsbD (w := 7 + 5 + 5 + 3 + 5 + 7)
    (v.extractLsb' 5 7 ++ rs2 ++ rs1 ++ f3 ++ v.extractLsb' 0 5 ++ op) i = _
  simp only [BitVec.getLsbD_append, BitVec.getLsbD_extractLsb']
  interval_cases i <;> simp

/-- Bit i of a SB-format word. -/
theorem getLsbD_packSB (v : BitVec 13) (rs2 rs1 : RegIdx) (f3 : BitVec 3) (op : BitVec 7) (i : Nat) (hi : i < 32) :
    (packSB v rs2 rs1 f3 op).getLsbD i =
      if i < 7 then op.getLsbD i
      else if i < 8 then v.getLsbD 11
      else if i < 12 then v.getLsbD (i - 7)
      else if i < 15 then f3.getLsbD (i - 12)
      else if i < 20 then rs1.getLsbD (i - 15)
      else if i < 25 then rs2.getLsbD (i - 20)
      else if i < 31 then v.getLsbD (i - 20)
      else v.getLsbD (i - 19) := by
  show BitVec.getLsbD (w := 1 + 6 + 5 + 5 + 3 + 4 + 1 + 7)
    (v.extractLsb' 12 1 ++ v.extractLsb' 5 6 ++ rs2 ++ rs1 ++ f3 ++ v.extractLsb' 1 4 ++ v.extractLsb' 11 1 ++ op) i = _
  simp only [BitVec.getLsbD_append, BitVec.getLsbD_extractLsb']
  interval_cases i <;> simp

/-- Bit i of a U-format word. -/
theorem getLsbD_packU (v : BitVec 20) (rd : RegIdx) (op : BitVec 7) (i : Nat) :
    (packU v rd op).getLsbD i =
      if i < 7 then op.getLsbD i
      else if i < 12 then rd.getLsbD (i - 7)
      else v.getLsbD (i - 12) := by
  show BitVec.getLsbD (w := 20 + 5 + 7)
    (v ++ rd ++ op) i = _
  simp only [BitVec.getLsbD_append]
  split_ifs <;> first | rfl | omega

/-- Bit i of a UJ-format word. -/
theorem getLsbD_packUJ (v : BitVec 21) (rd : RegIdx) (op : BitVec 7) (i : Nat) (hi : i < 32) :
    (packUJ v rd op).getLsbD i =
      if i < 7 then op.getLsbD i
      else if i < 12 then rd.getLsbD (i - 7)
      else if i < 20 then v.getLsbD i
      else if i < 21 then v.getLsbD 11
      else if i < 31 then v.getLsbD (i - 20)
      else v.getLsbD (i - 11) := by
  show BitVec.getLsbD (w := 1 + 10 + 1 + 8 + 5 + 7)
    (v.extractLsb' 20 1 ++ v.extractLsb' 1 10 ++ v.extractLsb' 11 1 ++ v.extractLsb' 12 8 ++ rd ++ op) i = _
  simp only [BitVec.getLsbD_append, BitVec.getLsbD_extractLsb']
  interval_cases i <;> simp

/-! The fields of a packed word. -/

@[simp] theorem opcodeOf_packR (f7 : BitVec 7) (rs2 rs1 : RegIdx) (f3 : BitVec 3) (rd : RegIdx) (op : BitVec 7) :
    opcodeOf (packR f7 rs2 rs1 f3 rd op) = op := by
  apply BitVec.eq_of_getLsbD_eq
  intro i hi
  simp only [opcodeOf, BitVec.getLsbD_extractLsb', getLsbD_packR, hi, decide_true, Bool.true_and]
  split_ifs <;> first | omega | (congr 1; omega)

@[simp] theorem rdOf_packR (f7 : BitVec 7) (rs2 rs1 : RegIdx) (f3 : BitVec 3) (rd : RegIdx) (op : BitVec 7) :
    rdOf (packR f7 rs2 rs1 f3 rd op) = rd := by
  apply BitVec.eq_of_getLsbD_eq
  intro i hi
  simp only [rdOf, BitVec.getLsbD_extractLsb', getLsbD_packR, hi, decide_true, Bool.true_and]
  split_ifs <;> first | omega | (congr 1; omega)

@[simp] theorem funct3Of_packR (f7 : BitVec 7) (rs2 rs1 : RegIdx) (f3 : BitVec 3) (rd : RegIdx) (op : BitVec 7) :
    funct3Of (packR f7 rs2 rs1 f3 rd op) = f3 := by
  apply BitVec.eq_of_getLsbD_eq
  intro i hi
  simp only [funct3Of, BitVec.getLsbD_extractLsb', getLsbD_packR, hi, decide_true, Bool.true_and]
  split_ifs <;> first | omega | (congr 1; omega)

@[simp] theorem rs1Of_packR (f7 : BitVec 7) (rs2 rs1 : RegIdx) (f3 : BitVec 3) (rd : RegIdx) (op : BitVec 7) :
    rs1Of (packR f7 rs2 rs1 f3 rd op) = rs1 := by
  apply BitVec.eq_of_getLsbD_eq
  intro i hi
  simp only [rs1Of, BitVec.getLsbD_extractLsb', getLsbD_packR, hi, decide_true, Bool.true_and]
  split_ifs <;> first | omega | (congr 1; omega)

@[simp] theorem rs2Of_packR (f7 : BitVec 7) (rs2 rs1 : RegIdx) (f3 : BitVec 3) (rd : RegIdx) (op : BitVec 7) :
    rs2Of (packR f7 rs2 rs1 f3 rd op) = rs2 := by
  apply BitVec.eq_of_getLsbD_eq
  intro i hi
  simp only [rs2Of, BitVec.getLsbD_extractLsb', getLsbD_packR, hi, decide_true, Bool.true_and]
  split_ifs <;> first | omega | (congr 1; omega)

@[simp] theorem funct7Of_packR (f7 : BitVec 7) (rs2 rs1 : RegIdx) (f3 : BitVec 3) (rd : RegIdx) (op : BitVec 7) :
    funct7Of (packR f7 rs2 rs1 f3 rd op) = f7 := by
  apply BitVec.eq_of_getLsbD_eq
  intro i hi
  simp only [funct7Of, BitVec.getLsbD_extractLsb', getLsbD_packR, hi, decide_true, Bool.true_and]
  split_ifs <;> first | omega | (congr 1; omega)

@[simp] theorem opcodeOf_packI (v : BitVec 12) (rs1 : RegIdx) (f3 : BitVec 3) (rd : RegIdx) (op : BitVec 7) :
    opcodeOf (packI v rs1 f3 rd op) = op := by
  apply BitVec.eq_of_getLsbD_eq
  intro i hi
  simp only [opcodeOf, BitVec.getLsbD_extractLsb', getLsbD_packI, hi, decide_true, Bool.true_and]
  split_ifs <;> first | omega | (congr 1; omega)

@[simp] theorem rdOf_packI (v : BitVec 12) (rs1 : RegIdx) (f3 : BitVec 3) (rd : RegIdx) (op : BitVec 7) :
    rdOf (packI v rs1 f3 rd op) = rd := by
  apply BitVec.eq_of_getLsbD_eq
  intro i hi
  simp only [rdOf, BitVec.getLsbD_extractLsb', getLsbD_packI, hi, decide_true, Bool.true_and]
  split_ifs <;> first | omega | (congr 1; omega)

@[simp] theorem funct3Of_packI (v : BitVec 12) (rs1 : RegIdx) (f3 : BitVec 3) (rd : RegIdx) (op : BitVec 7) :
    funct3Of (packI v rs1 f3 rd op) = f3 := by
  apply BitVec.eq_of_getLsbD_eq
  intro i hi
  simp only [funct3Of, BitVec.getLsbD_extractLsb', getLsbD_packI, hi, decide_true, Bool.true_and]
  split_ifs <;> first | omega | (congr 1; omega)

@[simp] theorem rs1Of_packI (v : BitVec 12) (rs1 : RegIdx) (f3 : BitVec 3) (rd : RegIdx) (op : BitVec 7) :
    rs1Of (packI v rs1 f3 rd op) = rs1 := by
  apply BitVec.eq_of_getLsbD_eq
  intro i hi
  simp only [rs1Of, BitVec.getLsbD_extractLsb', getLsbD_packI, hi, decide_true, Bool.true_and]
  split_ifs <;> first | omega | (congr 1; omega)

@[simp] theorem immIOf_packI (v : BitVec 12) (rs1 : RegIdx) (f3 : BitVec 3) (rd : RegIdx) (op : BitVec 7) :
    immIOf (packI v rs1 f3 rd op) = v := by
  apply BitVec.eq_of_getLsbD_eq
  intro i hi
  simp only [immIOf, BitVec.getLsbD_extractLsb', getLsbD_packI, hi, decide_true, Bool.true_and]
  split_ifs <;> first | omega | (congr 1; omega)

@[simp] theorem opcodeOf_packS (v : BitVec 12) (rs2 rs1 : RegIdx) (f3 : BitVec 3) (op : BitVec 7) :
    opcodeOf (packS v rs2 rs1 f3 op) = op := by
  apply BitVec.eq_of_getLsbD_eq
  intro i hi
  simp only [opcodeOf, BitVec.getLsbD_extractLsb', hi, decide_true, Bool.true_and]
  rw [getLsbD_packS]
  · split_ifs <;> first | omega | (congr 1; omega)
  · omega

@[simp] theorem funct3Of_packS (v : BitVec 12) (rs2 rs1 : RegIdx) (f3 : BitVec 3) (op : BitVec 7) :
    funct3Of (packS v rs2 rs1 f3 op) = f3 := by
  apply BitVec.eq_of_getLsbD_eq
  intro i hi
  simp only [funct3Of, BitVec.getLsbD_extractLsb', hi, decide_true, Bool.true_and]
  rw [getLsbD_packS]
  · split_ifs <;> first | omega | (congr 1; omega)
  · omega

@[simp] theorem rs1Of_packS (v : BitVec 12) (rs2 rs1 : RegIdx) (f3 : BitVec 3) (op : BitVec 7) :
    rs1Of (packS v rs2 rs1 f3 op) = rs1 := by
  apply BitVec.eq_of_getLsbD_eq
  intro i hi
  simp only [rs1Of, BitVec.getLsbD_extractLsb', hi, decide_true, Bool.true_and]
  rw [getLsbD_packS]
  · split_ifs <;> first | omega | (congr 1; omega)
  · omega

@[simp] theorem rs2Of_packS (v : BitVec 12) (rs2 rs1 : RegIdx) (f3 : BitVec 3) (op : BitVec 7) :
    rs2Of (packS v rs2 rs1 f3 op) = rs2 := by
  apply BitVec.eq_of_getLsbD_eq
  intro i hi
  simp only [rs2Of, BitVec.getLsbD_extractLsb', hi, decide_true, Bool.true_and]
  rw [getLsbD_packS]
  · split_ifs <;> first | omega | (congr 1; omega)
  · omega

@[simp] theorem opcodeOf_packSB (v : BitVec 13) (rs2 rs1 : RegIdx) (f3 : BitVec 3) (op : BitVec 7) :
    opcodeOf (packSB v rs2 rs1 f3 op) = op := by
  apply BitVec.eq_of_getLsbD_eq
  intro i hi
  simp only [opcodeOf, BitVec.getLsbD_extractLsb', hi, decide_true, Bool.true_and]
  rw [getLsbD_packSB]
  · split_ifs <;> first | omega | (congr 1; omega)
  · omega

@[simp] theorem funct3Of_packSB (v : BitVec 13) (rs2 rs1 : RegIdx) (f3 : BitVec 3) (op : BitVec 7) :
    funct3Of (packSB v rs2 rs1 f3 op) = f3 := by
  apply BitVec.eq_of_getLsbD_eq
  intro i hi
  simp only [funct3Of, BitVec.getLsbD_extractLsb', hi, decide_true, Bool.true_and]
  rw [getLsbD_packSB]
  · split_ifs <;> first | omega | (congr 1; omega)
  · omega

@[simp] theorem rs1Of_packSB (v : BitVec 13) (rs2 rs1 : RegIdx) (f3 : BitVec 3) (op : BitVec 7) :
    rs1Of (packSB v rs2 rs1 f3 op) = rs1 := by
  apply BitVec.eq_of_getLsbD_eq
  intro i hi
  simp only [rs1Of, BitVec.getLsbD_extractLsb', hi, decide_true, Bool.true_and]
  rw [getLsbD_packSB]
  · split_ifs <;> first | omega | (congr 1; omega)
  · omega

@[simp] theorem rs2Of_packSB (v : BitVec 13) (rs2 rs1 : RegIdx) (f3 : BitVec 3) (op : BitVec 7) :
    rs2Of (packSB v rs2 rs1 f3 op) = rs2 := by
  apply BitVec.eq_of_getLsbD_eq
  intro i hi
  simp only [rs2Of, BitVec.getLsbD_extractLsb', hi, decide_true, Bool.true_and]
  rw [getLsbD_packSB]
  · split_ifs <;> first | omega | (congr 1; omega)
  · omega

@[simp] theorem opcodeOf_packU (v : BitVec 20) (rd : RegIdx) (op : BitVec 7) :
    opcodeOf (packU v rd op) = op := by
  apply BitVec.eq_of_getLsbD_eq
  intro i hi
  simp only [opcodeOf, BitVec.getLsbD_extractLsb', getLsbD_packU, hi, decide_true, Bool.true_and]
  split_ifs <;> first | omega | (congr 1; omega)

@[simp] theorem rdOf_packU (v : BitVec 20) (rd : RegIdx) (op : BitVec 7) :
    rdOf (packU v rd op) = rd := by
  apply BitVec.eq_of_getLsbD_eq
  intro i hi
  simp only [rdOf, BitVec.getLsbD_extractLsb', getLsbD_packU, hi, decide_true, Bool.true_and]
  split_ifs <;> first | omega | (congr 1; omega)

@[simp] theorem immUOf_packU (v : BitVec 20) (rd : RegIdx) (op : BitVec 7) :
    immUOf (packU v rd op) = v := by
  apply BitVec.eq_of_getLsbD_eq
  intro i hi
  simp only [immUOf, BitVec.getLsbD_extractLsb', getLsbD_packU, hi, decide_true, Bool.true_and]
  split_ifs <;> first | omega | (congr 1; omega)

@[simp] theorem opcodeOf_packUJ (v : BitVec 21) (rd : RegIdx) (op : BitVec 7) :
    opcodeOf (packUJ v rd op) = op := by
  apply BitVec.eq_of_getLsbD_eq
  intro i hi
  simp only [opcodeOf, BitVec.getLsbD_extractLsb', hi, decide_true, Bool.true_and]
  rw [getLsbD_packUJ]
  · split_ifs <;> first | omega | (congr 1; omega)
  · omega

@[simp] theorem rdOf_packUJ (v : BitVec 21) (rd : RegIdx) (op : BitVec 7) :
    rdOf (packUJ v rd op) = rd := by
  apply BitVec.eq_of_getLsbD_eq
  intro i hi
  simp only [rdOf, BitVec.getLsbD_extractLsb', hi, decide_true, Bool.true_and]
  rw [getLsbD_packUJ]
  · split_ifs <;> first | omega | (congr 1; omega)
  · omega

/-! The split immediates. -/

/-- Bit i of the S immediate of a word. -/
theorem getLsbD_immSOf (w : Word) (i : Nat) :
    (immSOf w).getLsbD i = if i < 5 then w.getLsbD (i + 7) else decide (i < 12) && w.getLsbD (i + 20) := by
  show BitVec.getLsbD (w := 7 + 5) (w.extractLsb' 25 7 ++ w.extractLsb' 7 5) i = _
  simp only [BitVec.getLsbD_append, BitVec.getLsbD_extractLsb']
  split_ifs with h
  · simp [h, Nat.add_comm]
  · by_cases h12 : i < 12
    · simp [h12, show i - 5 < 7 by omega, show 25 + (i - 5) = i + 20 by omega]
    · simp [h12, show ¬ i - 5 < 7 by omega]

/-- Bit i of the SB immediate of a word. -/
theorem getLsbD_immBOf (w : Word) (i : Nat) (hi : i < 13) :
    (immBOf w).getLsbD i =
      if i = 0 then false
      else if i < 5 then w.getLsbD (i + 7)
      else if i < 11 then w.getLsbD (i + 20)
      else if i = 11 then w.getLsbD 7
      else w.getLsbD 31 := by
  show BitVec.getLsbD (w := 1 + 1 + 6 + 4 + 1)
    (w.extractLsb' 31 1 ++ w.extractLsb' 7 1 ++ w.extractLsb' 25 6 ++ w.extractLsb' 8 4 ++ 0#1) i = _
  simp only [BitVec.getLsbD_append, BitVec.getLsbD_extractLsb']
  interval_cases i <;> simp

/-- Bit i of the UJ immediate of a word. -/
theorem getLsbD_immJOf (w : Word) (i : Nat) (hi : i < 21) :
    (immJOf w).getLsbD i =
      if i = 0 then false
      else if i < 11 then w.getLsbD (i + 20)
      else if i = 11 then w.getLsbD 20
      else if i < 20 then w.getLsbD i
      else w.getLsbD 31 := by
  show BitVec.getLsbD (w := 1 + 8 + 1 + 10 + 1)
    (w.extractLsb' 31 1 ++ w.extractLsb' 12 8 ++ w.extractLsb' 20 1 ++ w.extractLsb' 21 10 ++ 0#1) i = _
  simp only [BitVec.getLsbD_append, BitVec.getLsbD_extractLsb']
  interval_cases i <;> simp

@[simp] theorem immSOf_packS (v : BitVec 12) (rs2 rs1 : RegIdx) (f3 : BitVec 3) (op : BitVec 7) :
    immSOf (packS v rs2 rs1 f3 op) = v := by
  apply BitVec.eq_of_getLsbD_eq
  intro i hi
  rw [getLsbD_immSOf]
  interval_cases i <;> simp [getLsbD_packS, -BitVec.getLsbD_eq_getElem]

/-- An even branch offset comes back whole. -/
theorem immBOf_packSB (v : BitVec 13) (rs2 rs1 : RegIdx) (f3 : BitVec 3) (op : BitVec 7) (h : v.getLsbD 0 = false) :
    immBOf (packSB v rs2 rs1 f3 op) = v := by
  apply BitVec.eq_of_getLsbD_eq
  intro i hi
  rw [getLsbD_immBOf _ _ hi]
  interval_cases i <;> first | exact h.symm | simp [getLsbD_packSB, -BitVec.getLsbD_eq_getElem]

/-- An even `jal` offset comes back whole. -/
theorem immJOf_packUJ (v : BitVec 21) (rd : RegIdx) (op : BitVec 7) (h : v.getLsbD 0 = false) :
    immJOf (packUJ v rd op) = v := by
  apply BitVec.eq_of_getLsbD_eq
  intro i hi
  rw [getLsbD_immJOf _ _ hi]
  interval_cases i <;> first | exact h.symm | simp [getLsbD_packUJ, -BitVec.getLsbD_eq_getElem]

/-- The decoder's branch offsets are even. -/
theorem immBOf_even (w : Word) : (immBOf w).getLsbD 0 = false := getLsbD_immBOf w 0 (by decide)

/-- The decoder's `jal` offsets are even. -/
theorem immJOf_even (w : Word) : (immJOf w).getLsbD 0 = false := getLsbD_immJOf w 0 (by decide)

/-! The packing of a word's own fields. -/

theorem packR_fields (w : Word) : packR (funct7Of w) (rs2Of w) (rs1Of w) (funct3Of w) (rdOf w) (opcodeOf w) = w := by
  apply BitVec.eq_of_getLsbD_eq
  intro i hi
  simp only [getLsbD_packR, opcodeOf, rdOf, funct3Of, rs1Of, rs2Of, funct7Of, BitVec.getLsbD_extractLsb']
  interval_cases i <;> simp

theorem packI_fields (w : Word) : packI (immIOf w) (rs1Of w) (funct3Of w) (rdOf w) (opcodeOf w) = w := by
  apply BitVec.eq_of_getLsbD_eq
  intro i hi
  simp only [getLsbD_packI, opcodeOf, rdOf, funct3Of, rs1Of, immIOf, BitVec.getLsbD_extractLsb']
  interval_cases i <;> simp

theorem packS_fields (w : Word) : packS (immSOf w) (rs2Of w) (rs1Of w) (funct3Of w) (opcodeOf w) = w := by
  apply BitVec.eq_of_getLsbD_eq
  intro i hi
  rw [getLsbD_packS _ _ _ _ _ _ hi]
  simp only [getLsbD_immSOf, opcodeOf, funct3Of, rs1Of, rs2Of, BitVec.getLsbD_extractLsb']
  interval_cases i <;> simp

theorem packSB_fields (w : Word) : packSB (immBOf w) (rs2Of w) (rs1Of w) (funct3Of w) (opcodeOf w) = w := by
  apply BitVec.eq_of_getLsbD_eq
  intro i hi
  rw [getLsbD_packSB _ _ _ _ _ _ hi]
  simp only [opcodeOf, funct3Of, rs1Of, rs2Of, BitVec.getLsbD_extractLsb']
  interval_cases i <;> simp [getLsbD_immBOf, -BitVec.getLsbD_eq_getElem]

theorem packU_fields (w : Word) : packU (immUOf w) (rdOf w) (opcodeOf w) = w := by
  apply BitVec.eq_of_getLsbD_eq
  intro i hi
  simp only [getLsbD_packU, opcodeOf, rdOf, immUOf, BitVec.getLsbD_extractLsb']
  interval_cases i <;> simp

theorem packUJ_fields (w : Word) : packUJ (immJOf w) (rdOf w) (opcodeOf w) = w := by
  apply BitVec.eq_of_getLsbD_eq
  intro i hi
  rw [getLsbD_packUJ _ _ _ _ hi]
  simp only [opcodeOf, rdOf, BitVec.getLsbD_extractLsb']
  interval_cases i <;> simp [getLsbD_immJOf, -BitVec.getLsbD_eq_getElem]

end Sys2Proof
end

