-- ==== Sys2Proof/Laws/Memory.lean ====
section
/-! SUPPORT. The laws of partial maps and memories: read after write, the canonical form, and what stores and reads do. -/

namespace Sys2Proof.Machine

variable {β : Type}

/-! Read after write. -/

/-- The written key gives the value written. -/
@[simp] theorem PMap.get_set_self (m : PMap β) (k : Nat) (v : β) : PMap.get (PMap.set m k v) k = some v := by
  induction m with
  | nil => simp [PMap.set, PMap.get]
  | cons p m ih =>
    simp only [PMap.set]
    split
    · simp [PMap.get]
    · split
      · simp [PMap.get]
      · rename_i h1 h2
        have : p.1 ≠ k := fun e => h2 e.symm
        simp [PMap.get, this, ih]

/-- Every other key gives what it gave. -/
theorem PMap.get_set_other (m : PMap β) {k j : Nat} (v : β) (h : j ≠ k) : PMap.get (PMap.set m k v) j = PMap.get m j := by
  induction m with
  | nil => simp [PMap.set, PMap.get, Ne.symm h]
  | cons p m ih =>
    simp only [PMap.set]
    split
    · simp [PMap.get, Ne.symm h]
    · split
      · rename_i h1 h2
        subst h2
        simp [PMap.get, Ne.symm h]
      · simp [PMap.get, ih]

/-- A read after a write, as one equation. -/
theorem PMap.get_set (m : PMap β) (k j : Nat) (v : β) : PMap.get (PMap.set m k v) j = if j = k then some v else PMap.get m j := by
  by_cases h : j = k
  · subst h; simp
  · simp [h, PMap.get_set_other m v h]

/-! The canonical form. -/

/-- The keys after a write are the old keys and the key written. -/
theorem PMap.mem_set {m : PMap β} {k : Nat} {v : β} {p : Nat × β} (h : p ∈ PMap.set m k v) : p ∈ m ∨ p = (k, v) := by
  induction m with
  | nil => simpa [PMap.set] using h
  | cons q m ih =>
    simp only [PMap.set] at h
    split at h
    · simp only [List.mem_cons] at h ⊢; tauto
    · split at h
      · simp only [List.mem_cons] at h ⊢; tauto
      · simp only [List.mem_cons] at h ⊢
        rcases h with h | h
        · exact .inl (.inl h)
        · exact (ih h).imp .inr id

/-- A write keeps the keys strictly rising. -/
theorem PMap.wf_set {m : PMap β} (h : PMap.wf m) (k : Nat) (v : β) : PMap.wf (PMap.set m k v) := by
  induction m with
  | nil => simp [PMap.set, PMap.wf]
  | cons q m ih =>
    have hq := List.pairwise_cons.mp h
    simp only [PMap.set]
    split
    · rename_i hlt
      refine List.pairwise_cons.mpr ⟨fun p hp => ?_, h⟩
      rcases List.mem_cons.mp hp with rfl | hp
      · exact hlt
      · exact Nat.lt_trans hlt (hq.1 p hp)
    · split
      · rename_i _ he
        refine List.pairwise_cons.mpr ⟨fun p hp => ?_, hq.2⟩
        have := hq.1 p hp
        simpa [he] using this
      · rename_i h1 h2
        refine List.pairwise_cons.mpr ⟨fun p hp => ?_, ih hq.2⟩
        rcases PMap.mem_set hp with hp | rfl
        · exact hq.1 p hp
        · show q.1 < k
          omega

/-- A value found under a key stands in the list. -/
theorem PMap.mem_of_get {m : PMap β} {k : Nat} {v : β} (h : PMap.get m k = some v) : (k, v) ∈ m := by
  induction m with
  | nil => simp [PMap.get] at h
  | cons p m ih =>
    simp only [PMap.get] at h
    split at h
    · rename_i he
      simp only [Option.some.injEq] at h
      exact List.mem_cons.mpr (.inl (by rw [← he, ← h]))
    · exact List.mem_cons.mpr (.inr (ih h))

/-! Stores (spec/20_memory.md R85). -/

/-- A store of bytes keeps the canonical form. -/
theorem storeBytes_wf {m : Memory} (h : Memory.wf m) (a v : Word) (n : Nat) : Memory.wf (storeBytes m a v n) := by
  induction n with
  | zero => exact h
  | succ k ih => exact PMap.wf_set ih _ _

/-- A store of bytes adds no address but the ones stored. -/
theorem mem_storeBytes {m : Memory} {a v : Word} {n : Nat} {p : Nat × Byte} (h : p ∈ storeBytes m a v n) :
    p ∈ m ∨ ∃ k < n, p.1 = (a + BitVec.ofNat 32 k).toNat := by
  induction n with
  | zero => exact .inl h
  | succ k ih =>
    rcases PMap.mem_set h with h | rfl
    · rcases ih h with h | ⟨j, hj, he⟩
      · exact .inl h
      · exact .inr ⟨j, Nat.lt_succ_of_lt hj, he⟩
    · exact .inr ⟨k, Nat.lt_succ_self k, rfl⟩

/-- Two offsets below 2^32 give the same byte address only if they are equal. -/
theorem offset_injective {a : Word} {j k : Nat} (hj : j < 2 ^ 32) (hk : k < 2 ^ 32)
    (h : a + BitVec.ofNat 32 j = a + BitVec.ofNat 32 k) : j = k := by
  have h' := (BitVec.add_right_inj a).mp h
  have := congrArg BitVec.toNat h'
  simp only [BitVec.toNat_ofNat] at this
  omega

/-- Byte k of a store of n bytes. -/
theorem storeBytes_inside (m : Memory) (a v : Word) {n k : Nat} (hn : n ≤ 2 ^ 32) (hk : k < n) :
    Memory.byteAt (storeBytes m a v n) (a + BitVec.ofNat 32 k) = some (byteOfWord v k) := by
  induction n with
  | zero => omega
  | succ n ih =>
    simp only [storeBytes, Memory.byteAt]
    by_cases he : k = n
    · subst he; simp
    · rw [PMap.get_set_other]
      · exact ih (by omega) (by omega)
      · intro e
        exact he (offset_injective (by omega) (by omega) (BitVec.eq_of_toNat_eq e))

/-- A store leaves every byte outside it as it was. -/
theorem storeBytes_outside (m : Memory) (a v : Word) {n : Nat} {b : Word} (h : ∀ k < n, b ≠ a + BitVec.ofNat 32 k) :
    Memory.byteAt (storeBytes m a v n) b = Memory.byteAt m b := by
  induction n with
  | zero => rfl
  | succ n ih =>
    simp only [storeBytes, Memory.byteAt]
    rw [PMap.get_set_other]
    · exact ih fun k hk => h k (by omega)
    · intro e
      exact h n (by omega) (BitVec.eq_of_toNat_eq e)

/-- The partition check of an access (spec/20_memory.md R81). -/
theorem firstOutsideData_eq_none {a : Word} {n : Nat} : firstOutsideData (accessAddrs a n) = none ↔ accessInData a n := by
  simp [firstOutsideData, accessAddrs, accessInData, List.find?_eq_none]

/-- A write that lies in the data partition stores its bytes. -/
theorem memWrite_ok {m : Memory} {a v : Word} {n : Nat} (h : accessInData a n) : memWrite m a n v = .ok (storeBytes m a v n) := by
  simp [memWrite, firstOutsideData_eq_none.mpr h]

/-- A write that answers a memory lies in the data partition and has stored its bytes. -/
theorem memWrite_cases {m m' : Memory} {a v : Word} {n : Nat} (h : memWrite m a n v = .ok m') :
    accessInData a n ∧ m' = storeBytes m a v n := by
  unfold memWrite at h
  split at h
  · cases h
  · rename_i hn
    exact ⟨firstOutsideData_eq_none.mp hn, by cases h; rfl⟩

/-- What one byte of a data read gives (spec/20_memory.md R84). -/
theorem readDataByte_ok {s : State} {a : Word}
    (h : s.cfg.unwrittenDataRead = .fault → Memory.byteAt s.dmem a ≠ none) :
    readDataByte s.cfg.unwrittenDataRead s.dmem a = .ok (s.dataByte a) := by
  unfold readDataByte State.dataByte
  cases hb : Memory.byteAt s.dmem a with
  | some b => rfl
  | none =>
    cases hu : s.cfg.unwrittenDataRead with
    | zero => rfl
    | fault => exact absurd hb (h hu)

/-- What a one-byte data read gives. -/
theorem memRead_one {s : State} {a : Word} (h : accessInData a 1) (hw : s.accessWritten a 1) :
    memRead s.cfg.unwrittenDataRead s.dmem a 1 = .ok ((s.dataByte a).setWidth 32) := by
  have e0 := readDataByte_ok (a := a + 0#32) (fun hu => hw hu 0 (by omega))
  simp only [BitVec.add_zero] at e0
  unfold memRead
  rw [firstOutsideData_eq_none.mpr h]
  simp [accessAddrs, List.range_succ, readDataBytes, e0]

/-- What a two-byte data read gives, little-endian. -/
theorem memRead_two {s : State} {a : Word} (h : accessInData a 2) (hw : s.accessWritten a 2) :
    memRead s.cfg.unwrittenDataRead s.dmem a 2 = .ok ((s.dataByte (a + 1#32) ++ s.dataByte a).setWidth 32) := by
  have e0 := readDataByte_ok (a := a + 0#32) (fun hu => hw hu 0 (by omega))
  have e1 := readDataByte_ok (a := a + 1#32) (fun hu => hw hu 1 (by omega))
  simp only [BitVec.add_zero] at e0
  unfold memRead
  rw [firstOutsideData_eq_none.mpr h]
  simp [accessAddrs, List.range_succ, readDataBytes, e0, e1]
  generalize s.dataByte a = b0
  generalize s.dataByte (a + 1#32) = b1
  apply BitVec.eq_of_getLsbD_eq
  intro i hi
  simp only [BitVec.getLsbD_or, BitVec.getLsbD_shiftLeft, BitVec.getLsbD_setWidth, hi]
  have ha : (b1 ++ b0).getLsbD i = if i < 8 then b0.getLsbD i else b1.getLsbD (i - 8) := BitVec.getLsbD_append
  by_cases h8 : i < 8
  · simp [h8, ha]
  · simp [h8, ha, BitVec.getLsbD_of_ge b0 i (by omega), show i - 8 < 32 by omega]

/-- What a four-byte data read gives, little-endian. -/
theorem memRead_four {s : State} {a : Word} (h : accessInData a 4) (hw : s.accessWritten a 4) :
    memRead s.cfg.unwrittenDataRead s.dmem a 4 =
      .ok (wordOfBytes4 (s.dataByte a) (s.dataByte (a + 1#32)) (s.dataByte (a + 2#32)) (s.dataByte (a + 3#32))) := by
  have e0 := readDataByte_ok (a := a + 0#32) (fun hu => hw hu 0 (by omega))
  have e1 := readDataByte_ok (a := a + 1#32) (fun hu => hw hu 1 (by omega))
  have e2 := readDataByte_ok (a := a + 2#32) (fun hu => hw hu 2 (by omega))
  have e3 := readDataByte_ok (a := a + 3#32) (fun hu => hw hu 3 (by omega))
  simp only [BitVec.add_zero] at e0
  unfold memRead
  rw [firstOutsideData_eq_none.mpr h]
  simp [accessAddrs, List.range_succ, readDataBytes, e0, e1, e2, e3]
  generalize s.dataByte a = b0
  generalize s.dataByte (a + 1#32) = b1
  generalize s.dataByte (a + 2#32) = b2
  generalize s.dataByte (a + 3#32) = b3
  apply BitVec.eq_of_getLsbD_eq
  intro i hi
  simp only [wordOfBytes4, BitVec.getLsbD_or, BitVec.getLsbD_shiftLeft, BitVec.getLsbD_setWidth, BitVec.getLsbD_append, hi]
  by_cases h8 : i < 8
  · simp [h8]
  · rw [BitVec.getLsbD_of_ge b0 i (by omega)]
    by_cases h16 : i < 16
    · simp [h8, show i - 8 < 32 by omega, show i - 8 < 8 by omega]
    · rw [BitVec.getLsbD_of_ge b1 (i - 8) (by omega)]
      by_cases h24 : i < 24
      · simp [h8, show i - 8 < 32 by omega, show ¬ i - 8 < 8 by omega, show i - 8 - 8 < 32 by omega, show i - 8 - 8 < 8 by omega]
      · rw [BitVec.getLsbD_of_ge b2 (i - 8 - 8) (by omega)]
        simp [h8, show i - 8 < 32 by omega, show ¬ i - 8 < 8 by omega, show i - 8 - 8 < 32 by omega,
          show ¬ i - 8 - 8 < 8 by omega, show i - 8 - 8 - 8 < 32 by omega]

/-! Every operation that writes a memory keeps its canonical form, and reset has it. -/

/-- A data write keeps the canonical form. -/
theorem memWrite_wf {m m' : Memory} {a v : Word} {n : Nat} (hm : Memory.wf m) (h : memWrite m a n v = .ok m') : Memory.wf m' := by
  obtain ⟨_, rfl⟩ := memWrite_cases h
  exact storeBytes_wf hm a v n

/-- The instruction block of a load keeps the canonical form, whether it raises or not. -/
theorem loadImage_wf (image : List (Word × Word)) {m : Memory} (hm : Memory.wf m) : Memory.wf (loadImage m image).1 := by
  induction image generalizing m with
  | nil => exact hm
  | cons p rest ih =>
    simp only [loadImage]
    split
    · exact hm
    · split
      · exact hm
      · exact ih (storeBytes_wf hm _ _ _)

/-- The data block of a load keeps the canonical form, whether it raises or not. -/
theorem loadData_wf (data : List (Word × Byte)) {m : Memory} (hm : Memory.wf m) : Memory.wf (loadData m data).1 := by
  induction data generalizing m with
  | nil => exact hm
  | cons p rest ih =>
    simp only [loadData]
    split
    · exact ih (PMap.wf_set hm _ _)
    · exact hm

/-- The memories after reset are canonical. -/
theorem reset_memories_wf : Memory.wf State.reset.imem ∧ Memory.wf State.reset.dmem := ⟨.nil, .nil⟩

/-! Instruction memory (spec/20_memory.md R86). -/

/-- The four bytes of a word, put together again. -/
theorem wordOfBytes4_byteOfWord (w : Word) :
    wordOfBytes4 (byteOfWord w 0) (byteOfWord w 1) (byteOfWord w 2) (byteOfWord w 3) = w := by
  apply BitVec.eq_of_getLsbD_eq
  intro i hi
  simp only [wordOfBytes4, byteOfWord, BitVec.getLsbD_append, BitVec.getLsbD_extractLsb']
  by_cases h8 : i < 8
  · simp [h8]
  · by_cases h16 : i - 8 < 8
    · simp [h8, h16]; congr 1; omega
    · by_cases h24 : i - 8 - 8 < 8
      · simp [h8, h16, h24]; congr 1; omega
      · simp [h8, h16, h24, show i - 8 - 8 - 8 < 8 by omega]; congr 1; omega

/-- A word stored at an aligned address of the instruction partition is the word fetched there. -/
theorem iMemReadWord_storeInstrWord (m : Memory) (a w : Word) (ha : inDataSegment a = false) (h4 : a.extractLsb' 0 2 = 0#2) :
    iMemReadWord (storeInstrWord m a w) a = .ok (some w) := by
  have b0 := storeBytes_inside m a w (n := 4) (k := 0) (by decide) (by decide)
  have b1 := storeBytes_inside m a w (n := 4) (k := 1) (by decide) (by decide)
  have b2 := storeBytes_inside m a w (n := 4) (k := 2) (by decide) (by decide)
  have b3 := storeBytes_inside m a w (n := 4) (k := 3) (by decide) (by decide)
  simp only [BitVec.add_zero] at b0
  simp [iMemReadWord, ha, h4, storeInstrWord, b0, b1, b2, b3, wordOfBytes4_byteOfWord]

end Sys2Proof.Machine
end

