-- ==== Sys2Proof/Laws/State.lean ====
section
/-! SUPPORT. One lemma per field per named update of the state, and the register laws. -/

namespace Sys2Proof.Machine

@[simp] theorem State.advance_cfg (s : State) : s.advance.cfg = s.cfg := rfl
@[simp] theorem State.advance_x (s : State) : s.advance.x = s.x := rfl
@[simp] theorem State.advance_pc (s : State) : s.advance.pc = s.pc + 4#32 := rfl
@[simp] theorem State.advance_imem (s : State) : s.advance.imem = s.imem := rfl
@[simp] theorem State.advance_dmem (s : State) : s.advance.dmem = s.dmem := rfl
@[simp] theorem State.advance_ifid (s : State) : s.advance.ifid = s.ifid := rfl
@[simp] theorem State.advance_idex (s : State) : s.advance.idex = s.idex := rfl
@[simp] theorem State.advance_exmem (s : State) : s.advance.exmem = s.exmem := rfl
@[simp] theorem State.advance_memwb (s : State) : s.advance.memwb = s.memwb := rfl
@[simp] theorem State.advance_bht (s : State) : s.advance.bht = s.bht := rfl
@[simp] theorem State.advance_btb (s : State) : s.advance.btb = s.btb := rfl
@[simp] theorem State.advance_fwd (s : State) : s.advance.fwd = s.fwd := rfl
@[simp] theorem State.advance_status (s : State) : s.advance.status = s.status := rfl
@[simp] theorem State.advance_stats (s : State) : s.advance.stats = s.stats := rfl
@[simp] theorem State.advance_events (s : State) : s.advance.events = s.events := rfl

@[simp] theorem State.jumpTo_cfg (s : State) (t : Word) : (s.jumpTo t).cfg = s.cfg := rfl
@[simp] theorem State.jumpTo_x (s : State) (t : Word) : (s.jumpTo t).x = s.x := rfl
@[simp] theorem State.jumpTo_pc (s : State) (t : Word) : (s.jumpTo t).pc = t := rfl
@[simp] theorem State.jumpTo_imem (s : State) (t : Word) : (s.jumpTo t).imem = s.imem := rfl
@[simp] theorem State.jumpTo_dmem (s : State) (t : Word) : (s.jumpTo t).dmem = s.dmem := rfl
@[simp] theorem State.jumpTo_ifid (s : State) (t : Word) : (s.jumpTo t).ifid = s.ifid := rfl
@[simp] theorem State.jumpTo_idex (s : State) (t : Word) : (s.jumpTo t).idex = s.idex := rfl
@[simp] theorem State.jumpTo_exmem (s : State) (t : Word) : (s.jumpTo t).exmem = s.exmem := rfl
@[simp] theorem State.jumpTo_memwb (s : State) (t : Word) : (s.jumpTo t).memwb = s.memwb := rfl
@[simp] theorem State.jumpTo_bht (s : State) (t : Word) : (s.jumpTo t).bht = s.bht := rfl
@[simp] theorem State.jumpTo_btb (s : State) (t : Word) : (s.jumpTo t).btb = s.btb := rfl
@[simp] theorem State.jumpTo_fwd (s : State) (t : Word) : (s.jumpTo t).fwd = s.fwd := rfl
@[simp] theorem State.jumpTo_status (s : State) (t : Word) : (s.jumpTo t).status = s.status := rfl
@[simp] theorem State.jumpTo_stats (s : State) (t : Word) : (s.jumpTo t).stats = s.stats := rfl
@[simp] theorem State.jumpTo_events (s : State) (t : Word) : (s.jumpTo t).events = s.events := rfl

@[simp] theorem State.raise_cfg (s : State) (e : Error) : (s.raise e).cfg = s.cfg := rfl
@[simp] theorem State.raise_x (s : State) (e : Error) : (s.raise e).x = s.x := rfl
@[simp] theorem State.raise_pc (s : State) (e : Error) : (s.raise e).pc = s.pc := rfl
@[simp] theorem State.raise_imem (s : State) (e : Error) : (s.raise e).imem = s.imem := rfl
@[simp] theorem State.raise_dmem (s : State) (e : Error) : (s.raise e).dmem = s.dmem := rfl
@[simp] theorem State.raise_ifid (s : State) (e : Error) : (s.raise e).ifid = s.ifid := rfl
@[simp] theorem State.raise_idex (s : State) (e : Error) : (s.raise e).idex = s.idex := rfl
@[simp] theorem State.raise_exmem (s : State) (e : Error) : (s.raise e).exmem = s.exmem := rfl
@[simp] theorem State.raise_memwb (s : State) (e : Error) : (s.raise e).memwb = s.memwb := rfl
@[simp] theorem State.raise_bht (s : State) (e : Error) : (s.raise e).bht = s.bht := rfl
@[simp] theorem State.raise_btb (s : State) (e : Error) : (s.raise e).btb = s.btb := rfl
@[simp] theorem State.raise_fwd (s : State) (e : Error) : (s.raise e).fwd = s.fwd := rfl
@[simp] theorem State.raise_status (s : State) (e : Error) : (s.raise e).status = .faulted e := rfl
@[simp] theorem State.raise_stats (s : State) (e : Error) : (s.raise e).stats = s.stats := rfl
@[simp] theorem State.raise_events (s : State) (e : Error) : (s.raise e).events = s.events := rfl

@[simp] theorem State.countRetired_cfg (s : State) (m c : Bool) : (s.countRetired m c).cfg = s.cfg := rfl
@[simp] theorem State.countRetired_x (s : State) (m c : Bool) : (s.countRetired m c).x = s.x := rfl
@[simp] theorem State.countRetired_pc (s : State) (m c : Bool) : (s.countRetired m c).pc = s.pc := rfl
@[simp] theorem State.countRetired_imem (s : State) (m c : Bool) : (s.countRetired m c).imem = s.imem := rfl
@[simp] theorem State.countRetired_dmem (s : State) (m c : Bool) : (s.countRetired m c).dmem = s.dmem := rfl
@[simp] theorem State.countRetired_ifid (s : State) (m c : Bool) : (s.countRetired m c).ifid = s.ifid := rfl
@[simp] theorem State.countRetired_idex (s : State) (m c : Bool) : (s.countRetired m c).idex = s.idex := rfl
@[simp] theorem State.countRetired_exmem (s : State) (m c : Bool) : (s.countRetired m c).exmem = s.exmem := rfl
@[simp] theorem State.countRetired_memwb (s : State) (m c : Bool) : (s.countRetired m c).memwb = s.memwb := rfl
@[simp] theorem State.countRetired_bht (s : State) (m c : Bool) : (s.countRetired m c).bht = s.bht := rfl
@[simp] theorem State.countRetired_btb (s : State) (m c : Bool) : (s.countRetired m c).btb = s.btb := rfl
@[simp] theorem State.countRetired_fwd (s : State) (m c : Bool) : (s.countRetired m c).fwd = s.fwd := rfl
@[simp] theorem State.countRetired_status (s : State) (m c : Bool) : (s.countRetired m c).status = s.status := rfl
@[simp] theorem State.countRetired_events (s : State) (m c : Bool) : (s.countRetired m c).events = s.events := rfl

@[simp] theorem State.countResolved_cfg (s : State) : s.countResolved.cfg = s.cfg := rfl
@[simp] theorem State.countResolved_x (s : State) : s.countResolved.x = s.x := rfl
@[simp] theorem State.countResolved_pc (s : State) : s.countResolved.pc = s.pc := rfl
@[simp] theorem State.countResolved_imem (s : State) : s.countResolved.imem = s.imem := rfl
@[simp] theorem State.countResolved_dmem (s : State) : s.countResolved.dmem = s.dmem := rfl
@[simp] theorem State.countResolved_ifid (s : State) : s.countResolved.ifid = s.ifid := rfl
@[simp] theorem State.countResolved_idex (s : State) : s.countResolved.idex = s.idex := rfl
@[simp] theorem State.countResolved_exmem (s : State) : s.countResolved.exmem = s.exmem := rfl
@[simp] theorem State.countResolved_memwb (s : State) : s.countResolved.memwb = s.memwb := rfl
@[simp] theorem State.countResolved_bht (s : State) : s.countResolved.bht = s.bht := rfl
@[simp] theorem State.countResolved_btb (s : State) : s.countResolved.btb = s.btb := rfl
@[simp] theorem State.countResolved_fwd (s : State) : s.countResolved.fwd = s.fwd := rfl
@[simp] theorem State.countResolved_status (s : State) : s.countResolved.status = s.status := rfl
@[simp] theorem State.countResolved_stats (s : State) : s.countResolved.stats = { s.stats with ctrlHazards := s.stats.ctrlHazards + 1 } := rfl
@[simp] theorem State.countResolved_events (s : State) : s.countResolved.events = s.events := rfl

@[simp] theorem State.countMispredict_cfg (s : State) : s.countMispredict.cfg = s.cfg := rfl
@[simp] theorem State.countMispredict_x (s : State) : s.countMispredict.x = s.x := rfl
@[simp] theorem State.countMispredict_pc (s : State) : s.countMispredict.pc = s.pc := rfl
@[simp] theorem State.countMispredict_imem (s : State) : s.countMispredict.imem = s.imem := rfl
@[simp] theorem State.countMispredict_dmem (s : State) : s.countMispredict.dmem = s.dmem := rfl
@[simp] theorem State.countMispredict_ifid (s : State) : s.countMispredict.ifid = s.ifid := rfl
@[simp] theorem State.countMispredict_idex (s : State) : s.countMispredict.idex = s.idex := rfl
@[simp] theorem State.countMispredict_exmem (s : State) : s.countMispredict.exmem = s.exmem := rfl
@[simp] theorem State.countMispredict_memwb (s : State) : s.countMispredict.memwb = s.memwb := rfl
@[simp] theorem State.countMispredict_bht (s : State) : s.countMispredict.bht = s.bht := rfl
@[simp] theorem State.countMispredict_btb (s : State) : s.countMispredict.btb = s.btb := rfl
@[simp] theorem State.countMispredict_fwd (s : State) : s.countMispredict.fwd = s.fwd := rfl
@[simp] theorem State.countMispredict_status (s : State) : s.countMispredict.status = s.status := rfl
@[simp] theorem State.countMispredict_stats (s : State) : s.countMispredict.stats = { s.stats with mispredicts := s.stats.mispredicts + 1 } := rfl
@[simp] theorem State.countMispredict_events (s : State) : s.countMispredict.events = s.events := rfl

@[simp] theorem State.countHazards_cfg (s : State) (h st : Bool) : (s.countHazards h st).cfg = s.cfg := rfl
@[simp] theorem State.countHazards_x (s : State) (h st : Bool) : (s.countHazards h st).x = s.x := rfl
@[simp] theorem State.countHazards_pc (s : State) (h st : Bool) : (s.countHazards h st).pc = s.pc := rfl
@[simp] theorem State.countHazards_imem (s : State) (h st : Bool) : (s.countHazards h st).imem = s.imem := rfl
@[simp] theorem State.countHazards_dmem (s : State) (h st : Bool) : (s.countHazards h st).dmem = s.dmem := rfl
@[simp] theorem State.countHazards_ifid (s : State) (h st : Bool) : (s.countHazards h st).ifid = s.ifid := rfl
@[simp] theorem State.countHazards_idex (s : State) (h st : Bool) : (s.countHazards h st).idex = s.idex := rfl
@[simp] theorem State.countHazards_exmem (s : State) (h st : Bool) : (s.countHazards h st).exmem = s.exmem := rfl
@[simp] theorem State.countHazards_memwb (s : State) (h st : Bool) : (s.countHazards h st).memwb = s.memwb := rfl
@[simp] theorem State.countHazards_bht (s : State) (h st : Bool) : (s.countHazards h st).bht = s.bht := rfl
@[simp] theorem State.countHazards_btb (s : State) (h st : Bool) : (s.countHazards h st).btb = s.btb := rfl
@[simp] theorem State.countHazards_fwd (s : State) (h st : Bool) : (s.countHazards h st).fwd = s.fwd := rfl
@[simp] theorem State.countHazards_status (s : State) (h st : Bool) : (s.countHazards h st).status = s.status := rfl
@[simp] theorem State.countHazards_events (s : State) (h st : Bool) : (s.countHazards h st).events = s.events := rfl

@[simp] theorem State.logEvents_cfg (s : State) (es : List Event) : (s.logEvents es).cfg = s.cfg := rfl
@[simp] theorem State.logEvents_x (s : State) (es : List Event) : (s.logEvents es).x = s.x := rfl
@[simp] theorem State.logEvents_pc (s : State) (es : List Event) : (s.logEvents es).pc = s.pc := rfl
@[simp] theorem State.logEvents_imem (s : State) (es : List Event) : (s.logEvents es).imem = s.imem := rfl
@[simp] theorem State.logEvents_dmem (s : State) (es : List Event) : (s.logEvents es).dmem = s.dmem := rfl
@[simp] theorem State.logEvents_ifid (s : State) (es : List Event) : (s.logEvents es).ifid = s.ifid := rfl
@[simp] theorem State.logEvents_idex (s : State) (es : List Event) : (s.logEvents es).idex = s.idex := rfl
@[simp] theorem State.logEvents_exmem (s : State) (es : List Event) : (s.logEvents es).exmem = s.exmem := rfl
@[simp] theorem State.logEvents_memwb (s : State) (es : List Event) : (s.logEvents es).memwb = s.memwb := rfl
@[simp] theorem State.logEvents_bht (s : State) (es : List Event) : (s.logEvents es).bht = s.bht := rfl
@[simp] theorem State.logEvents_btb (s : State) (es : List Event) : (s.logEvents es).btb = s.btb := rfl
@[simp] theorem State.logEvents_fwd (s : State) (es : List Event) : (s.logEvents es).fwd = s.fwd := rfl
@[simp] theorem State.logEvents_status (s : State) (es : List Event) : (s.logEvents es).status = s.status := rfl
@[simp] theorem State.logEvents_stats (s : State) (es : List Event) : (s.logEvents es).stats = s.stats := rfl
@[simp] theorem State.logEvents_events (s : State) (es : List Event) : (s.logEvents es).events = s.events ++ es := rfl

@[simp] theorem State.updatePredictor_cfg (s : State) (a : Word) (tk : Bool) (t : Word) : (s.updatePredictor a tk t).cfg = s.cfg := rfl
@[simp] theorem State.updatePredictor_x (s : State) (a : Word) (tk : Bool) (t : Word) : (s.updatePredictor a tk t).x = s.x := rfl
@[simp] theorem State.updatePredictor_pc (s : State) (a : Word) (tk : Bool) (t : Word) : (s.updatePredictor a tk t).pc = s.pc := rfl
@[simp] theorem State.updatePredictor_imem (s : State) (a : Word) (tk : Bool) (t : Word) : (s.updatePredictor a tk t).imem = s.imem := rfl
@[simp] theorem State.updatePredictor_dmem (s : State) (a : Word) (tk : Bool) (t : Word) : (s.updatePredictor a tk t).dmem = s.dmem := rfl
@[simp] theorem State.updatePredictor_ifid (s : State) (a : Word) (tk : Bool) (t : Word) : (s.updatePredictor a tk t).ifid = s.ifid := rfl
@[simp] theorem State.updatePredictor_idex (s : State) (a : Word) (tk : Bool) (t : Word) : (s.updatePredictor a tk t).idex = s.idex := rfl
@[simp] theorem State.updatePredictor_exmem (s : State) (a : Word) (tk : Bool) (t : Word) : (s.updatePredictor a tk t).exmem = s.exmem := rfl
@[simp] theorem State.updatePredictor_memwb (s : State) (a : Word) (tk : Bool) (t : Word) : (s.updatePredictor a tk t).memwb = s.memwb := rfl
@[simp] theorem State.updatePredictor_bht (s : State) (a : Word) (tk : Bool) (t : Word) : (s.updatePredictor a tk t).bht = PMap.set s.bht a.toNat tk := rfl
@[simp] theorem State.updatePredictor_btb (s : State) (a : Word) (tk : Bool) (t : Word) : (s.updatePredictor a tk t).btb = if tk then PMap.set s.btb a.toNat t else s.btb := rfl
@[simp] theorem State.updatePredictor_fwd (s : State) (a : Word) (tk : Bool) (t : Word) : (s.updatePredictor a tk t).fwd = s.fwd := rfl
@[simp] theorem State.updatePredictor_status (s : State) (a : Word) (tk : Bool) (t : Word) : (s.updatePredictor a tk t).status = s.status := rfl
@[simp] theorem State.updatePredictor_stats (s : State) (a : Word) (tk : Bool) (t : Word) : (s.updatePredictor a tk t).stats = s.stats := rfl
@[simp] theorem State.updatePredictor_events (s : State) (a : Word) (tk : Bool) (t : Word) : (s.updatePredictor a tk t).events = s.events := rfl

@[simp] theorem State.setForwarding_cfg (s : State) (b : Bool) : (s.setForwarding b).cfg = s.cfg := by
  unfold State.setForwarding; split <;> rfl
@[simp] theorem State.setForwarding_x (s : State) (b : Bool) : (s.setForwarding b).x = s.x := by
  unfold State.setForwarding; split <;> rfl
@[simp] theorem State.setForwarding_pc (s : State) (b : Bool) : (s.setForwarding b).pc = s.pc := by
  unfold State.setForwarding; split <;> rfl
@[simp] theorem State.setForwarding_imem (s : State) (b : Bool) : (s.setForwarding b).imem = s.imem := by
  unfold State.setForwarding; split <;> rfl
@[simp] theorem State.setForwarding_dmem (s : State) (b : Bool) : (s.setForwarding b).dmem = s.dmem := by
  unfold State.setForwarding; split <;> rfl
@[simp] theorem State.setForwarding_ifid (s : State) (b : Bool) : (s.setForwarding b).ifid = s.ifid := by
  unfold State.setForwarding; split <;> rfl
@[simp] theorem State.setForwarding_idex (s : State) (b : Bool) : (s.setForwarding b).idex = s.idex := by
  unfold State.setForwarding; split <;> rfl
@[simp] theorem State.setForwarding_exmem (s : State) (b : Bool) : (s.setForwarding b).exmem = s.exmem := by
  unfold State.setForwarding; split <;> rfl
@[simp] theorem State.setForwarding_memwb (s : State) (b : Bool) : (s.setForwarding b).memwb = s.memwb := by
  unfold State.setForwarding; split <;> rfl
@[simp] theorem State.setForwarding_bht (s : State) (b : Bool) : (s.setForwarding b).bht = s.bht := by
  unfold State.setForwarding; split <;> rfl
@[simp] theorem State.setForwarding_btb (s : State) (b : Bool) : (s.setForwarding b).btb = s.btb := by
  unfold State.setForwarding; split <;> rfl
@[simp] theorem State.setForwarding_fwd (s : State) (b : Bool) :
    (s.setForwarding b).fwd = if s.takesHostWrites then b else s.fwd := by
  unfold State.setForwarding; split <;> rfl
@[simp] theorem State.setForwarding_status (s : State) (b : Bool) : (s.setForwarding b).status = s.status := by
  unfold State.setForwarding; split <;> rfl
@[simp] theorem State.setForwarding_stats (s : State) (b : Bool) : (s.setForwarding b).stats = s.stats := by
  unfold State.setForwarding; split <;> rfl
@[simp] theorem State.setForwarding_events (s : State) (b : Bool) : (s.setForwarding b).events = s.events := by
  unfold State.setForwarding; split <;> rfl

@[simp] theorem State.writeReg_cfg (s : State) (r : RegIdx) (v : Word) : (s.writeReg r v).cfg = s.cfg := by unfold State.writeReg; split <;> rfl
@[simp] theorem State.writeReg_x (s : State) (r : RegIdx) (v : Word) : (s.writeReg r v).x = regsAfterWrite s.x r v := by unfold State.writeReg regsAfterWrite; split <;> rfl
@[simp] theorem State.writeReg_pc (s : State) (r : RegIdx) (v : Word) : (s.writeReg r v).pc = s.pc := by unfold State.writeReg; split <;> rfl
@[simp] theorem State.writeReg_imem (s : State) (r : RegIdx) (v : Word) : (s.writeReg r v).imem = s.imem := by unfold State.writeReg; split <;> rfl
@[simp] theorem State.writeReg_dmem (s : State) (r : RegIdx) (v : Word) : (s.writeReg r v).dmem = s.dmem := by unfold State.writeReg; split <;> rfl
@[simp] theorem State.writeReg_ifid (s : State) (r : RegIdx) (v : Word) : (s.writeReg r v).ifid = s.ifid := by unfold State.writeReg; split <;> rfl
@[simp] theorem State.writeReg_idex (s : State) (r : RegIdx) (v : Word) : (s.writeReg r v).idex = s.idex := by unfold State.writeReg; split <;> rfl
@[simp] theorem State.writeReg_exmem (s : State) (r : RegIdx) (v : Word) : (s.writeReg r v).exmem = s.exmem := by unfold State.writeReg; split <;> rfl
@[simp] theorem State.writeReg_memwb (s : State) (r : RegIdx) (v : Word) : (s.writeReg r v).memwb = s.memwb := by unfold State.writeReg; split <;> rfl
@[simp] theorem State.writeReg_bht (s : State) (r : RegIdx) (v : Word) : (s.writeReg r v).bht = s.bht := by unfold State.writeReg; split <;> rfl
@[simp] theorem State.writeReg_btb (s : State) (r : RegIdx) (v : Word) : (s.writeReg r v).btb = s.btb := by unfold State.writeReg; split <;> rfl
@[simp] theorem State.writeReg_fwd (s : State) (r : RegIdx) (v : Word) : (s.writeReg r v).fwd = s.fwd := by unfold State.writeReg; split <;> rfl
@[simp] theorem State.writeReg_status (s : State) (r : RegIdx) (v : Word) : (s.writeReg r v).status = s.status := by unfold State.writeReg; split <;> rfl
@[simp] theorem State.writeReg_stats (s : State) (r : RegIdx) (v : Word) : (s.writeReg r v).stats = s.stats := by unfold State.writeReg; split <;> rfl
@[simp] theorem State.writeReg_events (s : State) (r : RegIdx) (v : Word) : (s.writeReg r v).events = s.events := by unfold State.writeReg; split <;> rfl

@[simp] theorem State.writeDest_cfg (s : State) (r : Option RegIdx) (v : Word) : (s.writeDest r v).cfg = s.cfg := by cases r <;> simp [State.writeDest]
@[simp] theorem State.writeDest_pc (s : State) (r : Option RegIdx) (v : Word) : (s.writeDest r v).pc = s.pc := by cases r <;> simp [State.writeDest]
@[simp] theorem State.writeDest_imem (s : State) (r : Option RegIdx) (v : Word) : (s.writeDest r v).imem = s.imem := by cases r <;> simp [State.writeDest]
@[simp] theorem State.writeDest_dmem (s : State) (r : Option RegIdx) (v : Word) : (s.writeDest r v).dmem = s.dmem := by cases r <;> simp [State.writeDest]
@[simp] theorem State.writeDest_ifid (s : State) (r : Option RegIdx) (v : Word) : (s.writeDest r v).ifid = s.ifid := by cases r <;> simp [State.writeDest]
@[simp] theorem State.writeDest_idex (s : State) (r : Option RegIdx) (v : Word) : (s.writeDest r v).idex = s.idex := by cases r <;> simp [State.writeDest]
@[simp] theorem State.writeDest_exmem (s : State) (r : Option RegIdx) (v : Word) : (s.writeDest r v).exmem = s.exmem := by cases r <;> simp [State.writeDest]
@[simp] theorem State.writeDest_memwb (s : State) (r : Option RegIdx) (v : Word) : (s.writeDest r v).memwb = s.memwb := by cases r <;> simp [State.writeDest]
@[simp] theorem State.writeDest_bht (s : State) (r : Option RegIdx) (v : Word) : (s.writeDest r v).bht = s.bht := by cases r <;> simp [State.writeDest]
@[simp] theorem State.writeDest_btb (s : State) (r : Option RegIdx) (v : Word) : (s.writeDest r v).btb = s.btb := by cases r <;> simp [State.writeDest]
@[simp] theorem State.writeDest_fwd (s : State) (r : Option RegIdx) (v : Word) : (s.writeDest r v).fwd = s.fwd := by cases r <;> simp [State.writeDest]
@[simp] theorem State.writeDest_status (s : State) (r : Option RegIdx) (v : Word) : (s.writeDest r v).status = s.status := by cases r <;> simp [State.writeDest]
@[simp] theorem State.writeDest_stats (s : State) (r : Option RegIdx) (v : Word) : (s.writeDest r v).stats = s.stats := by cases r <;> simp [State.writeDest]
@[simp] theorem State.writeDest_events (s : State) (r : Option RegIdx) (v : Word) : (s.writeDest r v).events = s.events := by cases r <;> simp [State.writeDest]

/-! The counters (spec/60_exceptions.md R414). -/

/-- A retired instruction counts once in `retired` and once in its class. -/
theorem State.countRetired_stats (s : State) (m c : Bool) :
    (s.countRetired m c).stats =
      { s.stats with
        retired := s.stats.retired + 1
        memCount := s.stats.memCount + (if m then 1 else 0)
        ctrlCount := s.stats.ctrlCount + (if !m && c then 1 else 0)
        aluCount := s.stats.aluCount + (if !m && !c then 1 else 0) } := rfl

/-- The three class counters move together with `retired`. -/
theorem State.countRetired_adds_up (s : State) (m c : Bool)
    (h : s.stats.retired = s.stats.memCount + s.stats.ctrlCount + s.stats.aluCount) :
    (s.countRetired m c).stats.retired =
      (s.countRetired m c).stats.memCount + (s.countRetired m c).stats.ctrlCount + (s.countRetired m c).stats.aluCount := by
  cases m <;> cases c <;> simp [State.countRetired] <;> omega

/-! The register file (spec/00_scope.md R11, spec/10_state.md R31). -/

/-- x0 reads 0. -/
@[simp] theorem State.readReg_zero (s : State) : s.readReg 0#5 = 0#32 := rfl

/-- A read depends on the register file alone. -/
theorem State.readReg_congr {s t : State} (h : s.x = t.x) (r : RegIdx) : s.readReg r = t.readReg r := by
  simp only [State.readReg, h]

/-- A source read depends on the register file alone. -/
theorem State.readSource_congr {s t : State} (h : s.x = t.x) (r : Option RegIdx) : s.readSource r = t.readSource r := by
  cases r with
  | none => rfl
  | some r => exact State.readReg_congr h r

/-- A register read after a write of register rd. -/
theorem State.readReg_writeReg (s : State) (rd r : RegIdx) (v : Word) :
    (s.writeReg rd v).readReg r = if r = rd ∧ rd ≠ 0#5 then v else s.readReg r := by
  by_cases h0 : rd = 0#5
  · simp [State.writeReg, h0]
  · by_cases hr0 : r = 0#5
    · subst hr0
      have : ¬(0#5 = rd) := fun h => h0 h.symm
      simp [State.readReg, this]
    · by_cases hr : r = rd
      · subst hr
        simp [State.writeReg, State.readReg, h0]
      · have hne : rd.toNat ≠ r.toNat := fun h => hr (BitVec.eq_of_toNat_eq h.symm)
        simp [State.writeReg, State.readReg, h0, hr0, hr, hne]

/-- The written register reads the value, unless it is x0. -/
theorem State.readReg_writeReg_self (s : State) (rd : RegIdx) (v : Word) (h : rd ≠ 0#5) : (s.writeReg rd v).readReg rd = v := by
  simp [State.readReg_writeReg, h]

/-- Every other register reads as before. -/
theorem State.readReg_writeReg_other (s : State) {rd r : RegIdx} (v : Word) (h : r ≠ rd) :
    (s.writeReg rd v).readReg r = s.readReg r := by
  simp [State.readReg_writeReg, h]

/-- A write of x0 changes nothing. -/
@[simp] theorem State.writeReg_zero (s : State) (v : Word) : s.writeReg 0#5 v = s := rfl

/-- Entry 0 of the register file keeps its stored value. -/
theorem State.writeReg_x_zero (s : State) (rd : RegIdx) (v : Word) : (s.writeReg rd v).x[0] = s.x[0] := by
  unfold State.writeReg
  split
  · rfl
  · rename_i h
    have : rd.toNat ≠ 0 := fun e => h (BitVec.eq_of_toNat_eq e)
    simp [this]

/-- A register read of the file after a write, in the form of `regsAfterWrite`. -/
theorem State.readReg_regsAfterWrite (s t : State) (rd r : RegIdx) (v : Word) (h : t.x = regsAfterWrite s.x rd v) :
    t.readReg r = if r = rd ∧ rd ≠ 0#5 then v else s.readReg r := by
  rw [← State.readReg_writeReg]
  exact State.readReg_congr (by simp [h]) r

end Sys2Proof.Machine
end

