-- ==== Sys2Proof/Laws/Exec.lean ====
section
/-! SUPPORT. One lemma per shared operation of the meanings: the state it answers, in the terms of Safety.lean. -/

namespace Sys2Proof.Machine

/-! The ends of an instruction. -/

theorem finishAlu_eq (s : State) (rd : RegIdx) (v : Word) : finishAlu s rd v = .next (s.afterAlu rd v) := by
  unfold finishAlu State.writeReg State.afterAlu regsAfterWrite
  split <;> rfl

theorem failWith_eq (s : State) (e : Error) : failWith s e = .next (s.afterFailure e) := rfl

theorem resolveTo_eq (s : State) (taken : Bool) (target : Word) :
    resolveTo s taken target = s.afterControl s.x taken target := rfl

/-! The ALU. -/

/-- The ALU has no result only for an undefined division under DIV_POLICY = Fault (spec/40_alu.md R221). -/
theorem alu_eq_none {p : DivPolicy} {op : AluOp} {a b : Word} (h : alu p op a b = none) :
    (op = .div ∨ op = .rem) ∧ p = .fault ∧ divisionUndefined a b = true := by
  cases op <;> simp only [alu, reduceCtorEq] at h
  · unfold divQ at h
    split at h
    · rename_i hu
      cases p with
      | fault => exact ⟨.inl rfl, rfl, hu⟩
      | riscv => simp only at h; split at h <;> simp at h
    · simp at h
  · unfold divR at h
    split at h
    · rename_i hu
      cases p with
      | fault => exact ⟨.inr rfl, rfl, hu⟩
      | riscv => simp only at h; split at h <;> simp at h
    · simp at h

/-- An operation that is no division always has a result. -/
theorem alu_isSome (p : DivPolicy) {op : AluOp} (a b : Word) (hd : op ≠ .div) (hr : op ≠ .rem) : ∃ v, alu p op a b = some v := by
  cases h : alu p op a b with
  | some v => exact ⟨v, rfl⟩
  | none => exact absurd (alu_eq_none h).1 (by simp [hd, hr])

/-- The quotient of a defined division. -/
theorem divQ_defined (p : DivPolicy) {a b : Word} (h : divisionUndefined a b = false) :
    divQ p a b = some (BitVec.ofInt 32 (a.toInt.tdiv b.toInt)) := by simp [divQ, h]

/-- The remainder of a defined division. -/
theorem divR_defined (p : DivPolicy) {a b : Word} (h : divisionUndefined a b = false) :
    divR p a b = some (BitVec.ofInt 32 (a.toInt - a.toInt.tdiv b.toInt * b.toInt)) := by simp [divR, h]

/-! Register operations. -/

theorem regRegOp_some {op : AluOp} {rd rs1 rs2 : RegIdx} {s : State} {v : Word}
    (h : alu s.cfg.divPolicy op (s.readReg rs1) (s.readReg rs2) = some v) :
    regRegOp op rd rs1 rs2 s = .next (s.afterAlu rd v) := by
  unfold regRegOp
  rw [h]
  exact finishAlu_eq s rd v

theorem regRegOp_none {op : AluOp} {rd rs1 rs2 : RegIdx} {s : State}
    (h : alu s.cfg.divPolicy op (s.readReg rs1) (s.readReg rs2) = none) :
    regRegOp op rd rs1 rs2 s = .next (s.afterFailure (.arithmeticUndefined s.pc)) := by
  unfold regRegOp
  rw [h]
  rfl

theorem regImmOp_some {op : AluOp} {rd rs1 : RegIdx} {imm : BitVec 12} {s : State} {v : Word}
    (h : alu s.cfg.divPolicy op (s.readReg rs1) (imm.signExtend 32) = some v) :
    regImmOp op rd rs1 imm s = .next (s.afterAlu rd v) := by
  unfold regImmOp
  rw [h]
  exact finishAlu_eq s rd v

/-! Loads and stores. -/

theorem loadOp_ok {n : Nat} {rd rs1 : RegIdx} {imm : BitVec 12} {s : State} {v : Word}
    (h : memRead s.cfg.unwrittenDataRead s.dmem (effectiveAddr s rs1 imm) n = .ok v) :
    loadOp n rd rs1 imm s = .next (s.afterLoad rd (extendLoaded n v)) := by
  unfold loadOp
  rw [h]
  simp only [State.writeReg, State.afterLoad, regsAfterWrite]
  split <;> rfl

theorem loadOp_error {n : Nat} {rd rs1 : RegIdx} {imm : BitVec 12} {s : State} {e : Error}
    (h : memRead s.cfg.unwrittenDataRead s.dmem (effectiveAddr s rs1 imm) n = .error e) :
    loadOp n rd rs1 imm s = .next (s.afterFailure e) := by
  unfold loadOp
  rw [h]
  rfl

theorem storeOp_ok {n : Nat} {rs2 rs1 : RegIdx} {imm : BitVec 12} {s : State} (h : accessInData (effectiveAddr s rs1 imm) n) :
    storeOp n rs2 rs1 imm s = .next (s.afterStore (storeBytes s.dmem (effectiveAddr s rs1 imm) (s.readReg rs2) n)) := by
  unfold storeOp
  rw [memWrite_ok h]
  rfl

theorem storeOp_error {n : Nat} {rs2 rs1 : RegIdx} {imm : BitVec 12} {s : State} {b : Word}
    (h : firstOutsideData (accessAddrs (effectiveAddr s rs1 imm) n) = some b) :
    storeOp n rs2 rs1 imm s = .next (s.afterFailure (.segmentAccessViolation b)) := by
  unfold storeOp memWrite
  rw [h]
  rfl

/-- A store answers either the stored bytes or an error that leaves data memory alone. -/
theorem storeOp_cases {n : Nat} {rs2 rs1 : RegIdx} {imm : BitVec 12} {s : State} {t : State}
    (h : storeOp n rs2 rs1 imm s = .next t) :
    (accessInData (effectiveAddr s rs1 imm) n ∧
      t = s.afterStore (storeBytes s.dmem (effectiveAddr s rs1 imm) (s.readReg rs2) n)) ∨
    (∃ e, t = s.afterFailure e) := by
  unfold storeOp at h
  split at h
  · rename_i m hm
    obtain ⟨ha, rfl⟩ := memWrite_cases hm
    exact .inl ⟨ha, by cases h; rfl⟩
  · rename_i e he
    exact .inr ⟨e, by cases h; rfl⟩

/-- A load answers either a register write or an error. -/
theorem loadOp_cases {n : Nat} {rd rs1 : RegIdx} {imm : BitVec 12} {s : State} {t : State}
    (h : loadOp n rd rs1 imm s = .next t) : (∃ v, t = s.afterLoad rd v) ∨ (∃ e, t = s.afterFailure e) := by
  cases hm : memRead s.cfg.unwrittenDataRead s.dmem (effectiveAddr s rs1 imm) n with
  | ok v => exact .inl ⟨_, by rw [loadOp_ok hm] at h; exact (Host.Outcome.next.inj h).symm⟩
  | error e => exact .inr ⟨e, by rw [loadOp_error hm] at h; exact (Host.Outcome.next.inj h).symm⟩

/-- A register operation answers either a register write or ArithmeticUndefined. -/
theorem regRegOp_cases {op : AluOp} {rd rs1 rs2 : RegIdx} {s t : State} (h : regRegOp op rd rs1 rs2 s = .next t) :
    (∃ v, t = s.afterAlu rd v) ∨ t = s.afterFailure (.arithmeticUndefined s.pc) := by
  cases hv : alu s.cfg.divPolicy op (s.readReg rs1) (s.readReg rs2) with
  | some v => exact .inl ⟨v, by rw [regRegOp_some hv] at h; exact (Host.Outcome.next.inj h).symm⟩
  | none => exact .inr (by rw [regRegOp_none hv] at h; exact (Host.Outcome.next.inj h).symm)

end Sys2Proof.Machine
end

