-- ==== Sys2Proof/Laws/Stages.lean ====
section
/-! SUPPORT. What each pipeline stage can do, one inversion lemma per stage and one for the whole cycle, so that no later proof
unfolds a stage. -/

namespace Sys2Proof.Machine

/-! Write-back (spec/45_pipeline.md R323). -/

/-- The three cases of the WB stage. -/
theorem wbStage_cases (s : State) :
    (s.memwb = none ∧ wbStage s = (s, false)) ∨
    (∃ m, s.memwb = some m ∧ m.ins = .halt ∧ wbStage s = (s, true)) ∨
    (∃ m, s.memwb = some m ∧ m.ins ≠ .halt ∧
      wbStage s = ((writeBackReg s m).countRetired (m.memRead || m.memWrite) m.isControl, false)) := by
  unfold wbStage
  cases s.memwb with
  | none => exact .inl ⟨rfl, rfl⟩
  | some m =>
    by_cases h : m.ins = .halt
    · exact .inr (.inl ⟨m, rfl, h, by simp [h]⟩)
    · exact .inr (.inr ⟨m, rfl, h, by simp [h]⟩)

/-- Write-back touches the register file and the counters only. -/
theorem writeBackReg_frame (s : State) (m : MEMWB) : ∃ x, writeBackReg s m = { s with x := x } := by
  unfold writeBackReg State.writeDest State.writeReg
  split
  · cases m.rd with
    | none => exact ⟨s.x, rfl⟩
    | some r =>
      by_cases h : r = 0#5
      · exact ⟨s.x, by simp [h]⟩
      · exact ⟨s.x.set r.toNat m.wbValue, by simp [h]⟩
  · exact ⟨s.x, rfl⟩

/-- The WB stage touches the register file and the counters only. -/
theorem wbStage_frame (s : State) : ∃ x st, (wbStage s).1 = { s with x := x, stats := st } := by
  rcases wbStage_cases s with ⟨_, h⟩ | ⟨m, _, _, h⟩ | ⟨m, _, _, h⟩
  · exact ⟨s.x, s.stats, by rw [h]⟩
  · exact ⟨s.x, s.stats, by rw [h]⟩
  · obtain ⟨x, hx⟩ := writeBackReg_frame s m
    exact ⟨x, ((writeBackReg s m).countRetired (m.memRead || m.memWrite) m.isControl).stats, by
      rw [h, hx]; rfl⟩

@[simp] theorem wbStage_cfg (s : State) : (wbStage s).1.cfg = s.cfg := by obtain ⟨x, st, h⟩ := wbStage_frame s; rw [h]
@[simp] theorem wbStage_pc (s : State) : (wbStage s).1.pc = s.pc := by obtain ⟨x, st, h⟩ := wbStage_frame s; rw [h]
@[simp] theorem wbStage_imem (s : State) : (wbStage s).1.imem = s.imem := by obtain ⟨x, st, h⟩ := wbStage_frame s; rw [h]
@[simp] theorem wbStage_dmem (s : State) : (wbStage s).1.dmem = s.dmem := by obtain ⟨x, st, h⟩ := wbStage_frame s; rw [h]
@[simp] theorem wbStage_ifid (s : State) : (wbStage s).1.ifid = s.ifid := by obtain ⟨x, st, h⟩ := wbStage_frame s; rw [h]
@[simp] theorem wbStage_idex (s : State) : (wbStage s).1.idex = s.idex := by obtain ⟨x, st, h⟩ := wbStage_frame s; rw [h]
@[simp] theorem wbStage_exmem (s : State) : (wbStage s).1.exmem = s.exmem := by obtain ⟨x, st, h⟩ := wbStage_frame s; rw [h]
@[simp] theorem wbStage_memwb (s : State) : (wbStage s).1.memwb = s.memwb := by obtain ⟨x, st, h⟩ := wbStage_frame s; rw [h]
@[simp] theorem wbStage_bht (s : State) : (wbStage s).1.bht = s.bht := by obtain ⟨x, st, h⟩ := wbStage_frame s; rw [h]
@[simp] theorem wbStage_btb (s : State) : (wbStage s).1.btb = s.btb := by obtain ⟨x, st, h⟩ := wbStage_frame s; rw [h]
@[simp] theorem wbStage_fwd (s : State) : (wbStage s).1.fwd = s.fwd := by obtain ⟨x, st, h⟩ := wbStage_frame s; rw [h]
@[simp] theorem wbStage_status (s : State) : (wbStage s).1.status = s.status := by obtain ⟨x, st, h⟩ := wbStage_frame s; rw [h]
@[simp] theorem wbStage_events (s : State) : (wbStage s).1.events = s.events := by obtain ⟨x, st, h⟩ := wbStage_frame s; rw [h]

/-! Memory (R324). -/

/-- The store part: data memory as it was, or the access's bytes stored. -/
theorem memStoreAccess_ok {s : State} {e : EXMEM} {m : Memory} (h : memStoreAccess s e = .ok m) :
    (e.memWrite = false ∧ m = s.dmem) ∨
    (e.memWrite = true ∧ ∃ n, e.ins.accessWidth = some n ∧ accessInData e.result n ∧ m = storeBytes s.dmem e.result e.v2 n) := by
  unfold memStoreAccess at h
  split at h
  · rename_i hw
    split at h
    · rename_i n hn
      split at h
      · rename_i m' hm
        obtain ⟨ha, rfl⟩ := memWrite_cases hm
        exact .inr ⟨hw, n, hn, ha, by cases h; rfl⟩
      · cases h
    · cases h
  · rename_i hw
    exact .inl ⟨by simpa using hw, by cases h; rfl⟩

/-- The load part: the execute result, or the loaded value, sign-extended. -/
theorem memLoadAccess_ok {s : State} {e : EXMEM} {m : Memory} {v : Word} (h : memLoadAccess s e m = .ok v) :
    (e.memRead = false ∧ v = e.result) ∨
    (e.memRead = true ∧ ∃ n r, e.ins.accessWidth = some n ∧ memRead s.cfg.unwrittenDataRead m e.result n = .ok r ∧
      v = extendLoaded n r) := by
  unfold memLoadAccess at h
  split at h
  · rename_i hr
    split at h
    · rename_i n hn
      split at h
      · rename_i r hm
        exact .inr ⟨hr, n, r, hn, hm, by cases h; rfl⟩
      · cases h
    · cases h
  · rename_i hr
    exact .inl ⟨by simpa using hr, by cases h; rfl⟩

/-- The MEM stage, when it completes. -/
theorem memStage_ok {s t : State} (h : memStage s = .ok t) :
    (s.exmem = none ∧ t = { s with memwb := none }) ∨
    (∃ e m v, s.exmem = some e ∧ e.ins ≠ .ld ∧ e.ins ≠ .sd ∧ memStoreAccess s e = .ok m ∧ memLoadAccess s e m = .ok v ∧
      t = { s with dmem := m, memwb := some { e with wbValue := v } }) := by
  unfold memStage at h
  split at h
  · exact .inl ⟨‹_›, by cases h; rfl⟩
  · rename_i e he
    split at h
    · cases h
    · rename_i hi
      split at h
      · cases h
      · cases h
      · rename_i m hm
        split at h
        · cases h
        · cases h
        · rename_i v hv
          exact .inr ⟨e, m, v, he, fun hl => hi (.inl hl), fun hs => hi (.inr hs), hm, hv, by cases h; rfl⟩

/-- The MEM stage touches data memory and MEM/WB only. -/
theorem memStage_frame {s t : State} (h : memStage s = .ok t) : ∃ m w, t = { s with dmem := m, memwb := w } := by
  rcases memStage_ok h with ⟨_, rfl⟩ | ⟨e, m, v, _, _, _, _, _, rfl⟩
  · exact ⟨s.dmem, none, rfl⟩
  · exact ⟨m, _, rfl⟩

/-! Execute (R325 to R327). -/

/-- The two cases of a resolution: a misprediction with its flush and redirect, or a fetch that went the right way. -/
theorem applyResolution_cases (s : State) (pc : Word) (taken : Bool) (target : Word) :
    (mispredicted s (resolvedNext pc taken target) = true ∧
      applyResolution s pc taken target =
        (flush (s.countResolved.updatePredictor pc taken target) pc (resolvedNext pc taken target),
          some (resolvedNext pc taken target))) ∨
    (mispredicted s (resolvedNext pc taken target) = false ∧
      applyResolution s pc taken target = (s.countResolved.updatePredictor pc taken target, none)) := by
  have e : mispredicted (s.countResolved.updatePredictor pc taken target) (resolvedNext pc taken target) =
      mispredicted s (resolvedNext pc taken target) := rfl
  unfold applyResolution
  simp only
  rw [e]
  cases mispredicted s (resolvedNext pc taken target) with
  | true => exact .inl ⟨rfl, by simp⟩
  | false => exact .inr ⟨rfl, by simp⟩

/-- A resolution touches IF/ID, ID/EX, the predictor, the counters and the events only. -/
theorem applyResolution_frame (s : State) (pc : Word) (taken : Bool) (target : Word) :
    ∃ i d p q st ev, (applyResolution s pc taken target).1 =
      { s with ifid := i, idex := d, bht := p, btb := q, stats := st, events := ev } := by
  rcases applyResolution_cases s pc taken target with ⟨_, h⟩ | ⟨_, h⟩
  · exact ⟨none, none, PMap.set s.bht pc.toNat taken, if taken then PMap.set s.btb pc.toNat target else s.btb,
      { s.stats with ctrlHazards := s.stats.ctrlHazards + 1, mispredicts := s.stats.mispredicts + 1 },
      s.events ++ [.flush pc (resolvedNext pc taken target)], by rw [h]; rfl⟩
  · exact ⟨s.ifid, s.idex, PMap.set s.bht pc.toNat taken, if taken then PMap.set s.btb pc.toNat target else s.btb,
      { s.stats with ctrlHazards := s.stats.ctrlHazards + 1 }, s.events, by rw [h]; rfl⟩

/-- The EX stage, when it completes. -/
theorem exStage_ok {s : State} {r : State × Option Word} (h : exStage s = .ok r) :
    (s.idex = none ∧ r = ({ s with exmem := none }, none)) ∨
    (∃ d, s.idex = some d ∧ d.ins = .halt ∧ r = ({ s with exmem := some { d with result := 0#32 } }, none)) ∨
    (∃ d v, s.idex = some d ∧ d.ins ≠ .halt ∧ exAlu s d = .ok v ∧ d.isControl = false ∧
      r = ({ s with exmem := some { d with result := v } }, none)) ∨
    (∃ d v taken target, s.idex = some d ∧ d.ins ≠ .halt ∧ exAlu s d = .ok v ∧ d.isControl = true ∧
      resolve s d = .ok (taken, target) ∧
      r = ({ (applyResolution s d.pc taken target).1 with
              exmem := some { d with result := if d.isJal || d.isJalr then d.nextPc else v } },
            (applyResolution s d.pc taken target).2)) := by
  unfold exStage at h
  split at h
  · exact .inl ⟨‹_›, by cases h; rfl⟩
  · rename_i d hd
    split at h
    · exact .inr (.inl ⟨d, hd, ‹_›, by cases h; rfl⟩)
    · rename_i hn
      split at h
      · cases h
      · cases h
      · rename_i v hv
        split at h
        · rename_i hc
          split at h
          · cases h
          · cases h
          · rename_i taken target hr
            exact .inr (.inr (.inr ⟨d, v, taken, target, hd, hn, hv, hc, hr, (StageOut.ok.inj h).symm⟩))
        · rename_i hc
          exact .inr (.inr (.inl ⟨d, v, hd, hn, hv, by simpa using hc, by cases h; rfl⟩))

/-- The EX stage touches IF/ID, ID/EX, EX/MEM, the predictor, the counters and the events only. -/
theorem exStage_frame {s : State} {r : State × Option Word} (h : exStage s = .ok r) :
    ∃ i d e p q st ev, r.1 =
      { s with ifid := i, idex := d, exmem := e, bht := p, btb := q, stats := st, events := ev } := by
  rcases exStage_ok h with ⟨_, rfl⟩ | ⟨d, _, _, rfl⟩ | ⟨d, v, _, _, _, _, rfl⟩ | ⟨d, v, taken, target, _, _, _, _, _, rfl⟩
  · exact ⟨s.ifid, s.idex, _, s.bht, s.btb, s.stats, s.events, rfl⟩
  · exact ⟨s.ifid, s.idex, _, s.bht, s.btb, s.stats, s.events, rfl⟩
  · exact ⟨s.ifid, s.idex, _, s.bht, s.btb, s.stats, s.events, rfl⟩
  · obtain ⟨i, e, p, q, st, ev, hr⟩ := applyResolution_frame s d.pc taken target
    exact ⟨i, e, _, p, q, st, ev, by simp only [hr]; rfl⟩

/-! Decode (R328, R329). -/

/-- The hazard unit touches the counters and the events only. -/
theorem hazardUnit_frame (s : State) (pc : Word) (d : Decoded) :
    ∃ st ev, (hazardUnit s pc d).state = { s with stats := st, events := ev } := ⟨_, _, rfl⟩

/-- The ID stage, when it completes. -/
theorem idStage_ok {s : State} {r : State × Option Word} (h : idStage s = .ok r) :
    (s.ifid = none ∧ r = ({ s with idex := none }, none)) ∨
    (∃ f i, s.ifid = some f ∧ decode f.word = some i ∧ (hazardUnit s f.pc (decodedFields i)).stall = true ∧
      r = ({ (hazardUnit s f.pc (decodedFields i)).state with idex := none }, some f.pc)) ∨
    (∃ f i, s.ifid = some f ∧ decode f.word = some i ∧ (hazardUnit s f.pc (decodedFields i)).stall = false ∧
      r = ({ (hazardUnit s f.pc (decodedFields i)).state with
              idex := some (issueRecord f (decodedFields i) (hazardUnit s f.pc (decodedFields i)).v1
                (hazardUnit s f.pc (decodedFields i)).v2) }, none)) := by
  unfold idStage at h
  split at h
  · exact .inl ⟨‹_›, by cases h; rfl⟩
  · rename_i f hf
    split at h
    · cases h
    · rename_i i hi
      simp only at h
      split at h
      · exact .inr (.inl ⟨f, i, hf, hi, ‹_›, by cases h; rfl⟩)
      · rename_i hs
        exact .inr (.inr ⟨f, i, hf, hi, by simpa using hs, by cases h; rfl⟩)

/-- The ID stage touches ID/EX, the counters and the events only. -/
theorem idStage_frame {s : State} {r : State × Option Word} (h : idStage s = .ok r) :
    ∃ d st ev, r.1 = { s with idex := d, stats := st, events := ev } := by
  rcases idStage_ok h with ⟨_, rfl⟩ | ⟨f, i, _, _, _, rfl⟩ | ⟨f, i, _, _, _, rfl⟩
  · exact ⟨none, s.stats, s.events, rfl⟩
  · exact ⟨_, _, _, rfl⟩
  · exact ⟨_, _, _, rfl⟩

/-! Fetch (R330 to R334). -/

/-- A fetch, when it completes: a miss, or a hit with the prediction for the address. -/
theorem fetchAt_ok {s t : State} {fa : Word} (h : fetchAt s fa = .ok t) :
    (iMemReadWord s.imem fa = .ok none ∧ t = { s with ifid := none, pc := fa }) ∨
    (∃ w next, iMemReadWord s.imem fa = .ok (some w) ∧ predictNext s.bht s.btb fa = .ok next ∧
      t = { s with ifid := some (fetchRecord fa w), pc := next }) := by
  unfold fetchAt at h
  split at h
  · cases h
  · exact .inl ⟨‹_›, by cases h; rfl⟩
  · rename_i w hw
    split at h
    · cases h
    · rename_i next hn
      exact .inr ⟨w, next, hw, hn, by cases h; rfl⟩

/-- The IF stage, when it completes. -/
theorem ifStage_ok {s t : State} {redirect stallPc : Option Word} (h : ifStage s redirect stallPc = .ok t) :
    (∃ a, redirect = some a ∧ t = { s with ifid := none, pc := a }) ∨
    (redirect = none ∧ fetchAt s (stallPc.getD s.pc) = .ok t) := by
  unfold ifStage at h
  cases redirect with
  | some a => exact .inl ⟨a, rfl, by cases h; rfl⟩
  | none => exact .inr ⟨rfl, h⟩

/-- The IF stage touches IF/ID and pc only. -/
theorem ifStage_frame {s t : State} {redirect stallPc : Option Word} (h : ifStage s redirect stallPc = .ok t) :
    ∃ i p, t = { s with ifid := i, pc := p } := by
  rcases ifStage_ok h with ⟨a, _, rfl⟩ | ⟨_, h⟩
  · exact ⟨_, _, rfl⟩
  · rcases fetchAt_ok h with ⟨_, rfl⟩ | ⟨w, n, _, _, rfl⟩ <;> exact ⟨_, _, rfl⟩

/-! The cycle (R322). -/

/-- A cycle that answers a next state: the stage at which it raised, or all five stages. -/
theorem runCycle_next {s t : State} (h : runCycle s = .next t) :
    (∃ e, memStage (wbStage { s with events := [] }).1 = .raise e ∧ t = (wbStage { s with events := [] }).1.raise e) ∨
    (∃ s2, memStage (wbStage { s with events := [] }).1 = .ok s2 ∧
      ((∃ e, exStage s2 = .raise e ∧ t = s2.raise e) ∨
       (∃ ex, exStage s2 = .ok ex ∧
        ((∃ e, idStage ex.1 = .raise e ∧ t = ex.1.raise e) ∨
         (∃ id, idStage ex.1 = .ok id ∧
          ((∃ e, ifStage id.1 ex.2 id.2 = .raise e ∧ t = id.1.raise e) ∨
           (∃ s5, ifStage id.1 ex.2 id.2 = .ok s5 ∧ t = endCycle s5 (wbStage { s with events := [] }).2))))))) := by
  unfold runCycle at h
  simp only at h
  cases hm : memStage (wbStage { s with events := [] }).1 with
  | raise e => rw [hm] at h; exact .inl ⟨e, rfl, by cases h; rfl⟩
  | stuck f => rw [hm] at h; cases h
  | ok s2 =>
    rw [hm] at h
    refine .inr ⟨s2, rfl, ?_⟩
    simp only [StageOut.thenRun] at h
    cases hx : exStage s2 with
    | raise e => rw [hx] at h; exact .inl ⟨e, rfl, by cases h; rfl⟩
    | stuck f => rw [hx] at h; cases h
    | ok ex =>
      rw [hx] at h
      refine .inr ⟨ex, rfl, ?_⟩
      simp only at h
      cases hi : idStage ex.1 with
      | raise e => rw [hi] at h; exact .inl ⟨e, rfl, by cases h; rfl⟩
      | stuck f => rw [hi] at h; cases h
      | ok id =>
        rw [hi] at h
        refine .inr ⟨id, rfl, ?_⟩
        simp only at h
        cases hf : ifStage id.1 ex.2 id.2 with
        | raise e => rw [hf] at h; exact .inl ⟨e, rfl, by cases h; rfl⟩
        | stuck f => rw [hf] at h; cases h
        | ok s5 => rw [hf] at h; exact .inr ⟨s5, rfl, by cases h; rfl⟩

/-- A step of a running engine is a cycle. -/
theorem step_running {s : State} (h : s.status = .running) : step s = runCycle s := by
  unfold step cycle
  rw [if_pos h]

/-- A step that answers from an engine that has left Running answers the same state (R337). -/
theorem step_stopped {s : State} (h : s.status ≠ .running) : step s = .next s := by
  unfold step cycle
  rw [if_neg h]

end Sys2Proof.Machine
end

