-- ==== Sys2Proof/Laws/Invariant.lean ====
section
/-! SUPPORT. What a coherent buffer record is good for, and that each stage keeps the engine's invariant. -/

namespace Sys2Proof.Machine

/-! Coherent records. -/

/-- The flags and fields of a coherent record are those of its instruction. -/
theorem recordCoherent.fields {d : IDEX} (h : recordCoherent d) : ∃ i, decode d.word = some i ∧ d.toDecoded = decodedFields i ∧
    d.ins = mnemonicOf i ∧ d.rd = destOf i ∧ d.imm = immOf i ∧ d.memRead = (mnemonicOf i).readsMemory ∧
    d.memWrite = (mnemonicOf i).writesMemory ∧ d.regWrite = (mnemonicOf i).writesRegister := by
  obtain ⟨_, i, hi, hd⟩ := h
  exact ⟨i, hi, hd, by rw [hd]; rfl, by rw [hd]; rfl, by rw [hd]; rfl, by rw [hd]; rfl, by rw [hd]; rfl, by rw [hd]; rfl⟩

/-- Execute has an operation and a second operand for every coherent record but the halt word's. -/
theorem recordCoherent.alu_operands {d : IDEX} (h : recordCoherent d) (hn : d.ins ≠ .halt) :
    ∃ op b, aluOpOf d.ins = some op ∧ aluOperand2 d = some b := by
  obtain ⟨i, _, _, hins, _, himm, _⟩ := h.fields
  unfold aluOperand2
  rw [hins] at hn ⊢
  rw [himm]
  cases i <;> first | exact absurd rfl hn | exact ⟨_, _, rfl, rfl⟩

/-- Execute of a coherent record never finds an inconsistent one. -/
theorem exAlu_not_stuck (s : State) {d : IDEX} (h : recordCoherent d) (hn : d.ins ≠ .halt) (f : Fault) : exAlu s d ≠ .stuck f := by
  obtain ⟨op, b, h1, h2⟩ := h.alu_operands hn
  unfold exAlu
  rw [h1, h2]
  simp only
  split <;> simp

/-- Execute raises only for an undefined division under DIV_POLICY = Fault. -/
theorem exAlu_raise {s : State} {d : IDEX} {e : Error} (h : exAlu s d = .raise e) :
    (d.ins = .div ∨ d.ins = .rem) ∧ s.cfg.divPolicy = .fault ∧ e = .arithmeticUndefined d.pc := by
  unfold exAlu at h
  split at h
  · rename_i op b hop hb
    split at h
    · cases h
    · rename_i hn
      obtain ⟨ho, hp, _⟩ := alu_eq_none hn
      refine ⟨?_, hp, by cases h; rfl⟩
      revert hop
      cases d.ins <;> rcases ho with rfl | rfl <;> simp [aluOpOf]
  · cases h

/-- Every control instruction's coherent record resolves. -/
theorem resolve_not_stuck (s : State) {d : IDEX} (h : recordCoherent d) (hc : d.isControl = true) :
    ∃ taken target, resolve s d = .ok (taken, target) := by
  obtain ⟨i, _, hd, hins, _, himm, _⟩ := h.fields
  have hc' : (decodedFields i).isControl = true := by rw [← hd]; exact hc
  have hb : d.isBranch = (mnemonicOf i).isBranch := by
    show d.toDecoded.isBranch = _
    rw [hd]; rfl
  have hj : d.isJal = (mnemonicOf i).isJal := by
    show d.toDecoded.isJal = _
    rw [hd]; rfl
  unfold resolve
  rw [himm, hb, hj, hins]
  revert hc'
  cases i <;> intro hc' <;> first
    | exact ⟨_, _, rfl⟩
    | exact absurd hc' (by simp [decodedFields, mnemonicOf, Decoded.isControl, Mnemonic.isBranch, Mnemonic.isJal, Mnemonic.isJalr])

/-- A resolution never raises. -/
theorem resolve_not_raise (s : State) (d : IDEX) (e : Error) : resolve s d ≠ .raise e := by
  unfold resolve
  split
  · simp
  · split
    · split <;> simp
    · split <;> simp

/-- The MEM stage of a coherent record never finds an inconsistent one. -/
theorem memStage_not_stuck {s : State} (h : ∀ e, s.exmem = some e → recordCoherent e.toIDEX) (f : Fault) : memStage s ≠ .stuck f := by
  unfold memStage
  split
  · simp
  · rename_i e he
    obtain ⟨i, _, _, hins, _, _, hr, hw, _⟩ := (h e he).fields
    split
    · simp
    · rename_i hl
      have hlr : ∀ m, memLoadAccess s e m ≠ .stuck f := by
        intro m
        unfold memLoadAccess
        rw [hr, hins]
        rw [hins] at hl
        cases i <;> simp only [mnemonicOf, Mnemonic.readsMemory, Mnemonic.accessWidth, if_true, if_false, Bool.false_eq_true] <;>
          first
            | exact absurd (.inl rfl) hl
            | (intro hk; cases hk)
            | (split <;> (intro hk; cases hk))
      have hlw : ∀ g, memStoreAccess s e ≠ .stuck g := by
        intro g
        unfold memStoreAccess
        rw [hw, hins]
        rw [hins] at hl
        cases i <;> simp only [mnemonicOf, Mnemonic.writesMemory, Mnemonic.accessWidth, if_true, if_false, Bool.false_eq_true] <;>
          first
            | exact absurd (.inr rfl) hl
            | (intro hk; cases hk)
            | (split <;> (intro hk; cases hk))
      split
      · simp
      · rename_i g hg
        exact absurd hg (hlw g)
      · rename_i m _
        split
        · simp
        · rename_i g hg
          intro e'
          cases e'
          exact absurd hg (hlr m)
        · simp

end Sys2Proof.Machine
end

