-- ==== Sys2Proof/Laws/PerInstr.lean ====
section
/-! SUPPORT. Laws made per instruction. The family EncodedFields: the word of an instruction holds its opcode, its funct fields and its
register fields where its format has them (spec/30_encoding.md R133, R134, R148). -/

namespace Sys2Proof.Laws.EncodedFields

open Sys2Proof.Machine

/-- An absent field, or a field of the word with the stated value. -/
def fieldIs {α : Type} (field : Option α) (inWord : α) : Prop := field = none ∨ field = some inWord

/-- The fields of an instruction's word are the instruction's. -/
def Statement (i : Instr) : Prop :=
  opcodeOf (encode i) = (mnemonicOf i).opcode ∧
  fieldIs (mnemonicOf i).funct3 (funct3Of (encode i)) ∧
  fieldIs (mnemonicOf i).funct7 (funct7Of (encode i)) ∧
  fieldIs (destOf i) (rdOf (encode i)) ∧
  fieldIs (source1Of i) (rs1Of (encode i)) ∧
  fieldIs (source2Of i) (rs2Of (encode i))

/-- The fields of an R-format word. -/
theorem ofR {i : Instr} {f7 : BitVec 7} {rs2 rs1 : RegIdx} {f3 : BitVec 3} {rd : RegIdx} {op : BitVec 7}
    (he : encode i = packR f7 rs2 rs1 f3 rd op)
    (hf : (mnemonicOf i).opcode = op ∧ (mnemonicOf i).funct3 = some f3 ∧ (mnemonicOf i).funct7 = some f7 ∧ destOf i = some rd ∧
      source1Of i = some rs1 ∧ source2Of i = some rs2) : Statement i := by
  obtain ⟨h1, h2, h3, h4, h5, h6⟩ := hf
  simp [Statement, fieldIs, he, h1, h2, h3, h4, h5, h6]

/-- The fields of an I-format word. -/
theorem ofI {i : Instr} {v : BitVec 12} {rs1 : RegIdx} {f3 : BitVec 3} {rd : RegIdx} {op : BitVec 7}
    (he : encode i = packI v rs1 f3 rd op)
    (hf : (mnemonicOf i).opcode = op ∧ (mnemonicOf i).funct3 = some f3 ∧ (mnemonicOf i).funct7 = none ∧ destOf i = some rd ∧
      source1Of i = some rs1 ∧ source2Of i = none) : Statement i := by
  obtain ⟨h1, h2, h3, h4, h5, h6⟩ := hf
  simp [Statement, fieldIs, he, h1, h2, h3, h4, h5, h6]

/-- The fields of an S-format word. -/
theorem ofS {i : Instr} {v : BitVec 12} {rs2 rs1 : RegIdx} {f3 : BitVec 3} {op : BitVec 7}
    (he : encode i = packS v rs2 rs1 f3 op)
    (hf : (mnemonicOf i).opcode = op ∧ (mnemonicOf i).funct3 = some f3 ∧ (mnemonicOf i).funct7 = none ∧ destOf i = none ∧
      source1Of i = some rs1 ∧ source2Of i = some rs2) : Statement i := by
  obtain ⟨h1, h2, h3, h4, h5, h6⟩ := hf
  simp [Statement, fieldIs, he, h1, h2, h3, h4, h5, h6]

/-- The fields of an SB-format word. -/
theorem ofSB {i : Instr} {v : BitVec 13} {rs2 rs1 : RegIdx} {f3 : BitVec 3} {op : BitVec 7}
    (he : encode i = packSB v rs2 rs1 f3 op)
    (hf : (mnemonicOf i).opcode = op ∧ (mnemonicOf i).funct3 = some f3 ∧ (mnemonicOf i).funct7 = none ∧ destOf i = none ∧
      source1Of i = some rs1 ∧ source2Of i = some rs2) : Statement i := by
  obtain ⟨h1, h2, h3, h4, h5, h6⟩ := hf
  simp [Statement, fieldIs, he, h1, h2, h3, h4, h5, h6]

/-- The fields of a U-format word. -/
theorem ofU {i : Instr} {v : BitVec 20} {rd : RegIdx} {op : BitVec 7} (he : encode i = packU v rd op)
    (hf : (mnemonicOf i).opcode = op ∧ (mnemonicOf i).funct3 = none ∧ (mnemonicOf i).funct7 = none ∧ destOf i = some rd ∧
      source1Of i = none ∧ source2Of i = none) : Statement i := by
  obtain ⟨h1, h2, h3, h4, h5, h6⟩ := hf
  simp [Statement, fieldIs, he, h1, h2, h3, h4, h5, h6]

/-- The fields of a UJ-format word. -/
theorem ofUJ {i : Instr} {v : BitVec 21} {rd : RegIdx} {op : BitVec 7} (he : encode i = packUJ v rd op)
    (hf : (mnemonicOf i).opcode = op ∧ (mnemonicOf i).funct3 = none ∧ (mnemonicOf i).funct7 = none ∧ destOf i = some rd ∧
      source1Of i = none ∧ source2Of i = none) : Statement i := by
  obtain ⟨h1, h2, h3, h4, h5, h6⟩ := hf
  simp [Statement, fieldIs, he, h1, h2, h3, h4, h5, h6]

theorem add (rd rs1 rs2 : RegIdx) : Statement (.add rd rs1 rs2) := ofR rfl ⟨rfl, rfl, rfl, rfl, rfl, rfl⟩
theorem sub (rd rs1 rs2 : RegIdx) : Statement (.sub rd rs1 rs2) := ofR rfl ⟨rfl, rfl, rfl, rfl, rfl, rfl⟩
theorem sll (rd rs1 rs2 : RegIdx) : Statement (.sll rd rs1 rs2) := ofR rfl ⟨rfl, rfl, rfl, rfl, rfl, rfl⟩
theorem slt (rd rs1 rs2 : RegIdx) : Statement (.slt rd rs1 rs2) := ofR rfl ⟨rfl, rfl, rfl, rfl, rfl, rfl⟩
theorem xor (rd rs1 rs2 : RegIdx) : Statement (.xor rd rs1 rs2) := ofR rfl ⟨rfl, rfl, rfl, rfl, rfl, rfl⟩
theorem srl (rd rs1 rs2 : RegIdx) : Statement (.srl rd rs1 rs2) := ofR rfl ⟨rfl, rfl, rfl, rfl, rfl, rfl⟩
theorem sra (rd rs1 rs2 : RegIdx) : Statement (.sra rd rs1 rs2) := ofR rfl ⟨rfl, rfl, rfl, rfl, rfl, rfl⟩
theorem or (rd rs1 rs2 : RegIdx) : Statement (.or rd rs1 rs2) := ofR rfl ⟨rfl, rfl, rfl, rfl, rfl, rfl⟩
theorem and (rd rs1 rs2 : RegIdx) : Statement (.and rd rs1 rs2) := ofR rfl ⟨rfl, rfl, rfl, rfl, rfl, rfl⟩
theorem mul (rd rs1 rs2 : RegIdx) : Statement (.mul rd rs1 rs2) := ofR rfl ⟨rfl, rfl, rfl, rfl, rfl, rfl⟩
theorem div (rd rs1 rs2 : RegIdx) : Statement (.div rd rs1 rs2) := ofR rfl ⟨rfl, rfl, rfl, rfl, rfl, rfl⟩
theorem rem (rd rs1 rs2 : RegIdx) : Statement (.rem rd rs1 rs2) := ofR rfl ⟨rfl, rfl, rfl, rfl, rfl, rfl⟩
theorem addi (rd rs1 : RegIdx) (imm : BitVec 12) : Statement (.addi rd rs1 imm) := ofI rfl ⟨rfl, rfl, rfl, rfl, rfl, rfl⟩
theorem andi (rd rs1 : RegIdx) (imm : BitVec 12) : Statement (.andi rd rs1 imm) := ofI rfl ⟨rfl, rfl, rfl, rfl, rfl, rfl⟩
theorem ori (rd rs1 : RegIdx) (imm : BitVec 12) : Statement (.ori rd rs1 imm) := ofI rfl ⟨rfl, rfl, rfl, rfl, rfl, rfl⟩
theorem lb (rd rs1 : RegIdx) (imm : BitVec 12) : Statement (.lb rd rs1 imm) := ofI rfl ⟨rfl, rfl, rfl, rfl, rfl, rfl⟩
theorem lh (rd rs1 : RegIdx) (imm : BitVec 12) : Statement (.lh rd rs1 imm) := ofI rfl ⟨rfl, rfl, rfl, rfl, rfl, rfl⟩
theorem lw (rd rs1 : RegIdx) (imm : BitVec 12) : Statement (.lw rd rs1 imm) := ofI rfl ⟨rfl, rfl, rfl, rfl, rfl, rfl⟩
theorem ld (rd rs1 : RegIdx) (imm : BitVec 12) : Statement (.ld rd rs1 imm) := ofI rfl ⟨rfl, rfl, rfl, rfl, rfl, rfl⟩
theorem jalr (rd rs1 : RegIdx) (imm : BitVec 12) : Statement (.jalr rd rs1 imm) := ofI rfl ⟨rfl, rfl, rfl, rfl, rfl, rfl⟩
theorem sb (rs2 rs1 : RegIdx) (imm : BitVec 12) : Statement (.sb rs2 rs1 imm) := ofS rfl ⟨rfl, rfl, rfl, rfl, rfl, rfl⟩
theorem sh (rs2 rs1 : RegIdx) (imm : BitVec 12) : Statement (.sh rs2 rs1 imm) := ofS rfl ⟨rfl, rfl, rfl, rfl, rfl, rfl⟩
theorem sw (rs2 rs1 : RegIdx) (imm : BitVec 12) : Statement (.sw rs2 rs1 imm) := ofS rfl ⟨rfl, rfl, rfl, rfl, rfl, rfl⟩
theorem sd (rs2 rs1 : RegIdx) (imm : BitVec 12) : Statement (.sd rs2 rs1 imm) := ofS rfl ⟨rfl, rfl, rfl, rfl, rfl, rfl⟩
theorem beq (rs1 rs2 : RegIdx) (imm : BitVec 13) : Statement (.beq rs1 rs2 imm) := ofSB rfl ⟨rfl, rfl, rfl, rfl, rfl, rfl⟩
theorem bne (rs1 rs2 : RegIdx) (imm : BitVec 13) : Statement (.bne rs1 rs2 imm) := ofSB rfl ⟨rfl, rfl, rfl, rfl, rfl, rfl⟩
theorem blt (rs1 rs2 : RegIdx) (imm : BitVec 13) : Statement (.blt rs1 rs2 imm) := ofSB rfl ⟨rfl, rfl, rfl, rfl, rfl, rfl⟩
theorem bge (rs1 rs2 : RegIdx) (imm : BitVec 13) : Statement (.bge rs1 rs2 imm) := ofSB rfl ⟨rfl, rfl, rfl, rfl, rfl, rfl⟩
theorem lui (rd : RegIdx) (imm : BitVec 20) : Statement (.lui rd imm) := ofU rfl ⟨rfl, rfl, rfl, rfl, rfl, rfl⟩
theorem auipc (rd : RegIdx) (imm : BitVec 20) : Statement (.auipc rd imm) := ofU rfl ⟨rfl, rfl, rfl, rfl, rfl, rfl⟩
theorem jal (rd : RegIdx) (imm : BitVec 21) : Statement (.jal rd imm) := ofUJ rfl ⟨rfl, rfl, rfl, rfl, rfl, rfl⟩
theorem halt : Statement .halt := ⟨rfl, .inl rfl, .inl rfl, .inl rfl, .inl rfl, .inl rfl⟩

end Sys2Proof.Laws.EncodedFields
end

