-- ==== Sys2Proof/Tests/Slice0.lean ====
section
/-! SUPPORT. The model's own tests. Every expected value is the spec's: the examples of the instruction rules, the encodings of
spec/30_encoding.md, and the programs of spec/95_test_vectors.md. The last part shows, for every statement with hypotheses, a concrete
state that meets them. -/

namespace Sys2Proof.Tests

open Sys2Proof Sys2Proof.Machine

/-! Well-formedness: one ill-formed term for each check. -/

theorem test_odd_branch_offset_refused : (Instr.beq 1#5 2#5 3#13).wellFormed = false := by decide
theorem test_odd_bne_offset_refused : (Instr.bne 1#5 2#5 1#13).wellFormed = false := by decide
theorem test_odd_blt_offset_refused : (Instr.blt 1#5 2#5 5#13).wellFormed = false := by decide
theorem test_odd_bge_offset_refused : (Instr.bge 1#5 2#5 4095#13).wellFormed = false := by decide
theorem test_odd_jal_offset_refused : (Instr.jal 1#5 7#21).wellFormed = false := by decide

/-! Decoding: one word per constructor, the examples of spec/40_alu.md to 43_system.md. -/

theorem test_decode_register_register :
    [0x002081B3#32, 0x402081B3#32, 0x002091B3#32, 0x0020A1B3#32, 0x0020C1B3#32, 0x0020D1B3#32, 0x4020D1B3#32, 0x0020E1B3#32,
      0x0020F1B3#32, 0x022081B3#32, 0x0220C1B3#32, 0x0220E1B3#32].map decode =
    [some (.add 3#5 1#5 2#5), some (.sub 3#5 1#5 2#5), some (.sll 3#5 1#5 2#5), some (.slt 3#5 1#5 2#5),
      some (.xor 3#5 1#5 2#5), some (.srl 3#5 1#5 2#5), some (.sra 3#5 1#5 2#5), some (.or 3#5 1#5 2#5),
      some (.and 3#5 1#5 2#5), some (.mul 3#5 1#5 2#5), some (.div 3#5 1#5 2#5), some (.rem 3#5 1#5 2#5)] := by decide

theorem test_decode_immediate_and_loads :
    [0xFFF08193#32, 0x0F00F193#32, 0x7000E193#32, 0xFFF38303#32, 0x00239303#32, 0x0043A303#32, 0x0003B303#32,
      0x004280E7#32].map decode =
    [some (.addi 3#5 1#5 0xFFF#12), some (.andi 3#5 1#5 0x0F0#12), some (.ori 3#5 1#5 0x700#12), some (.lb 6#5 7#5 0xFFF#12),
      some (.lh 6#5 7#5 2#12), some (.lw 6#5 7#5 4#12), some (.ld 6#5 7#5 0#12), some (.jalr 1#5 5#5 4#12)] := by decide

theorem test_decode_stores_branches_upper_jumps :
    [0xFE638FA3#32, 0x00639123#32, 0x0063A223#32, 0x0063B023#32, 0x00208463#32, 0xFE209EE3#32, 0x0020C863#32, 0x0020D463#32,
      0x123452B7#32, 0x00001297#32, 0x00C000EF#32, 0x00000073#32].map decode =
    [some (.sb 6#5 7#5 0xFFF#12), some (.sh 6#5 7#5 2#12), some (.sw 6#5 7#5 4#12), some (.sd 6#5 7#5 0#12),
      some (.beq 1#5 2#5 8#13), some (.bne 1#5 2#5 0x1FFC#13), some (.blt 1#5 2#5 16#13), some (.bge 1#5 2#5 8#13),
      some (.lui 5#5 0x12345#20), some (.auipc 5#5 1#20), some (.jal 1#5 12#21), some .halt] := by decide

/-- The R layout bit by bit (spec/30_encoding.md R122): funct7 rs2 rs1 funct3 rd opcode. -/
theorem test_decode_sub_bits : decode 0b01000000011100110000001010110011#32 = some (.sub 5#5 6#5 7#5) := by decide

/-- The I layout bit by bit (R123): imm[11:0] rs1 funct3 rd opcode. -/
theorem test_decode_lh_bits : decode 0b10000000000100010001000110000011#32 = some (.lh 3#5 2#5 0x801#12) := by decide

/-- The S layout bit by bit (R124): imm[11:5] rs2 rs1 funct3 imm[4:0] opcode. -/
theorem test_decode_sw_bits : decode 0b10000000001100010010111110100011#32 = some (.sw 3#5 2#5 0x81F#12) := by decide

/-- The SB layout bit by bit (R125): imm[12] imm[10:5] rs2 rs1 funct3 imm[4:1] imm[11] opcode; the offset has bits 12 and 11 apart. -/
theorem test_decode_bge_bits : decode 0b00000010001000001101000011100011#32 = some (.bge 1#5 2#5 0x0820#13) := by decide

/-- The U layout bit by bit (R126): imm[31:12] rd opcode. -/
theorem test_decode_auipc_bits : decode 0b10000000000000000001111110010111#32 = some (.auipc 31#5 0x80001#20) := by decide

/-- The UJ layout bit by bit (R127): imm[20] imm[10:1] imm[11] imm[19:12] rd opcode. -/
theorem test_decode_jal_bits : decode 0b00000000001100000001000011101111#32 = some (.jal 1#5 0x01802#21) := by decide

/-- The boundary offsets of spec/42_control.md R285. -/
theorem test_decode_jal_boundaries :
    decode 0x7FDFF06F#32 = some (.jal 0#5 1048572#21) ∧ decode 0x8000006F#32 = some (.jal 0#5 (BitVec.ofInt 21 (-1048576))) := by
  decide

/-- Illegal words (spec/30_encoding.md R137, spec/43_system.md R311): sltu, lbu, bltu, ebreak, csrrw, all zeros, all ones. -/
theorem test_illegal_words_refused :
    [0x0020B1B3#32, 0x0000C083#32, 0x0020E463#32, 0x00100073#32, 0x30001073#32, 0x00000000#32, 0xFFFFFFFF#32].map decode =
    List.replicate 7 none := by decide

/-- Four bytes are consumed, the lowest address least significant; three bytes are too few. -/
theorem test_decode_bytes :
    decodeBytes [0xB3#8, 0x81#8, 0x20#8, 0x00#8, 0xAA#8] = .ok (.add 3#5 1#5 2#5, [0xAA#8]) ∧
    decodeBytes [0xB3#8, 0x81#8, 0x20#8] = .error .tooShort ∧
    decodeBytes [0x73#8, 0x00#8, 0x10#8, 0x00#8] = .error (.unknownMnemonic 0x00100073#32) := by decide

theorem test_decode_table_word : decodeTableWord 32 0x00000033 = some (.add 0#5 0#5 0#5) := by decide

/-! Instructions, one step each. -/

/-- x1 = a, x2 = b, at pc 0. -/
def twoRegs (a b : Word) : State := (State.reset.writeReg 1#5 a).writeReg 2#5 b

/-- Register r of the next state. -/
def regAfter (o : Host.Outcome State Fault Refusal) (r : RegIdx) : Option Word :=
  match o with
  | .next t => some (t.readReg r)
  | .fault _ => none
  | .refused _ => none

/-- pc of the next state. -/
def pcAfter (o : Host.Outcome State Fault Refusal) : Option Word :=
  match o with
  | .next t => some t.pc
  | .fault _ => none
  | .refused _ => none

/-- Status of the next state. -/
def statusAfter (o : Host.Outcome State Fault Refusal) : Option Status :=
  match o with
  | .next t => some t.status
  | .fault _ => none
  | .refused _ => none

/-- Data bytes of the next state from an address upwards. -/
def dataAfter (o : Host.Outcome State Fault Refusal) (a : Word) (n : Nat) : List (Option Byte) :=
  match o with
  | .next t => t.queryMem .data a n
  | .fault _ => []
  | .refused _ => []

theorem test_add : regAfter (exec (.add 3#5 1#5 2#5) (twoRegs 5#32 7#32)) 3#5 = some 12#32 := by decide
theorem test_add_wraps : regAfter (exec (.add 1#5 1#5 1#5) (twoRegs 0x80000001#32 0#32)) 1#5 = some 2#32 := by decide
theorem test_sub : regAfter (exec (.sub 3#5 1#5 2#5) (twoRegs 5#32 7#32)) 3#5 = some 0xFFFFFFFE#32 := by decide
theorem test_and : regAfter (exec (.and 3#5 1#5 2#5) (twoRegs 0xF0F0#32 0xFF00#32)) 3#5 = some 0xF000#32 := by decide
theorem test_or : regAfter (exec (.or 3#5 1#5 2#5) (twoRegs 0xF0F0#32 0xFF00#32)) 3#5 = some 0xFFF0#32 := by decide
theorem test_xor : regAfter (exec (.xor 3#5 1#5 2#5) (twoRegs 0xF0F0#32 0xFF00#32)) 3#5 = some 0x0FF0#32 := by decide
theorem test_sll_uses_five_bits : regAfter (exec (.sll 3#5 1#5 2#5) (twoRegs 1#32 35#32)) 3#5 = some 8#32 := by decide
theorem test_srl : regAfter (exec (.srl 3#5 1#5 2#5) (twoRegs 0x80000000#32 4#32)) 3#5 = some 0x08000000#32 := by decide
theorem test_sra : regAfter (exec (.sra 3#5 1#5 2#5) (twoRegs 0x80000000#32 4#32)) 3#5 = some 0xF8000000#32 := by decide
theorem test_slt_signed : regAfter (exec (.slt 3#5 1#5 2#5) (twoRegs 0xFFFFFFFF#32 1#32)) 3#5 = some 1#32 := by decide
theorem test_mul : regAfter (exec (.mul 3#5 1#5 2#5) (twoRegs 0xFFFFFFFD#32 7#32)) 3#5 = some 0xFFFFFFEB#32 := by decide
theorem test_div : regAfter (exec (.div 3#5 1#5 2#5) (twoRegs 0xFFFFFFF9#32 2#32)) 3#5 = some 0xFFFFFFFD#32 := by decide
theorem test_div_by_zero_raises :
    statusAfter (exec (.div 3#5 1#5 2#5) (twoRegs 1#32 0#32)) = some (.faulted (.arithmeticUndefined 0#32)) := by decide
theorem test_rem : regAfter (exec (.rem 3#5 1#5 2#5) (twoRegs 0xFFFFFFF9#32 2#32)) 3#5 = some 0xFFFFFFFF#32 := by decide
theorem test_rem_dividend_sign : regAfter (exec (.rem 3#5 1#5 2#5) (twoRegs 7#32 0xFFFFFFFE#32)) 3#5 = some 1#32 := by decide
theorem test_addi : regAfter (exec (.addi 3#5 1#5 0xFFF#12) (twoRegs 5#32 0#32)) 3#5 = some 4#32 := by decide
theorem test_addi_x0 : regAfter (exec (.addi 0#5 1#5 1#12) (twoRegs 5#32 0#32)) 0#5 = some 0#32 := by decide
theorem test_andi : regAfter (exec (.andi 3#5 1#5 0x0F0#12) (twoRegs 0x1234#32 0#32)) 3#5 = some 0x30#32 := by decide
theorem test_ori : regAfter (exec (.ori 3#5 1#5 0x700#12) (twoRegs 0x1234#32 0#32)) 3#5 = some 0x1734#32 := by decide
theorem test_lui : regAfter (exec (.lui 5#5 0x12345#20) State.reset) 5#5 = some 0x12345000#32 := by decide
theorem test_auipc : regAfter (exec (.auipc 5#5 1#20) (State.reset.jumpTo 0x100#32)) 5#5 = some 0x1100#32 := by decide

/-- x7 = b, x6 = v, and a word w at 0x10000000. -/
def withData (b v : Word) (a w : Word) : State :=
  { (State.reset.writeReg 7#5 b).writeReg 6#5 v with dmem := storeBytes [] a w 4 }

theorem test_lb_sign :
    regAfter (exec (.lb 6#5 7#5 0xFFF#12) (withData 0x10000004#32 0#32 0x10000000#32 0x80000000#32)) 6#5 = some 0xFFFFFF80#32 := by
  decide
theorem test_lh_sign :
    regAfter (exec (.lh 6#5 7#5 2#12) (withData 0x10000000#32 0#32 0x10000000#32 0x92340000#32)) 6#5 = some 0xFFFF9234#32 := by
  decide
theorem test_lh_wrap_raises :
    statusAfter (exec (.lh 6#5 7#5 0#12) (withData 0xFFFFFFFF#32 0#32 0x10000000#32 0#32)) =
      some (.faulted (.segmentAccessViolation 0#32)) := by decide
theorem test_lw :
    regAfter (exec (.lw 6#5 7#5 4#12) (withData 0x10000000#32 0#32 0x10000004#32 0x11223344#32)) 6#5 = some 0x11223344#32 := by
  decide
theorem test_lw_unwritten_reads_zero :
    regAfter (exec (.lw 6#5 7#5 0#12) (withData 0x10000001#32 9#32 0x10000000#32 0x11223344#32)) 6#5 = some 0x00112233#32 := by
  decide
theorem test_ld_raises :
    statusAfter (exec (.ld 6#5 7#5 0#12) (withData 0#32 0#32 0x10000000#32 0#32)) = some (.faulted (.unsupportedWidth 0#32)) := by
  decide
theorem test_sb :
    dataAfter (exec (.sb 6#5 7#5 0xFFF#12) (withData 0x10000004#32 0x12345680#32 0x10000000#32 0x44332211#32)) 0x10000002#32 3 =
      [some 0x33#8, some 0x80#8, none] := by decide
theorem test_sh :
    dataAfter (exec (.sh 6#5 7#5 2#12) (withData 0x10000000#32 0xABCD9234#32 0x10000010#32 0#32)) 0x10000001#32 4 =
      [none, some 0x34#8, some 0x92#8, none] := by decide
theorem test_sw :
    dataAfter (exec (.sw 6#5 7#5 4#12) (withData 0x10000000#32 0x11223344#32 0x10000010#32 0#32)) 0x10000004#32 4 =
      [some 0x44#8, some 0x33#8, some 0x22#8, some 0x11#8] := by decide
theorem test_sw_across_base_writes_nothing :
    dataAfter (exec (.sw 6#5 7#5 0#12) (withData 0x0FFFFFFE#32 0x11223344#32 0x10000010#32 0#32)) 0x10000000#32 2 =
      [none, none] := by decide
theorem test_sd_raises :
    statusAfter (exec (.sd 6#5 7#5 0#12) (withData 0x10000000#32 0#32 0x10000000#32 0#32)) =
      some (.faulted (.unsupportedWidth 0#32)) := by decide

theorem test_beq_taken : pcAfter (exec (.beq 1#5 2#5 8#13) (twoRegs 3#32 3#32)) = some 8#32 := by decide
theorem test_beq_not_taken : pcAfter (exec (.beq 1#5 2#5 8#13) (twoRegs 3#32 4#32)) = some 4#32 := by decide
theorem test_bne : pcAfter (exec (.bne 1#5 2#5 0x1FFC#13) ((twoRegs 1#32 2#32).jumpTo 4#32)) = some 0#32 := by decide
theorem test_blt_signed : pcAfter (exec (.blt 1#5 2#5 16#13) (twoRegs 0xFFFFFFFF#32 1#32)) = some 16#32 := by decide
theorem test_bge_signed : pcAfter (exec (.bge 1#5 2#5 8#13) (twoRegs 0x80000000#32 0#32)) = some 4#32 := by decide
theorem test_bge_equal : pcAfter (exec (.bge 1#5 2#5 8#13) (twoRegs 5#32 5#32)) = some 8#32 := by decide
theorem test_jal :
    pcAfter (exec (.jal 1#5 12#21) State.reset) = some 12#32 ∧ regAfter (exec (.jal 1#5 12#21) State.reset) 1#5 = some 4#32 := by
  decide
theorem test_jalr :
    pcAfter (exec (.jalr 1#5 5#5 4#12) ((State.reset.writeReg 5#5 0x101#32).jumpTo 0x20#32)) = some 0x104#32 ∧
    regAfter (exec (.jalr 1#5 5#5 4#12) ((State.reset.writeReg 5#5 0x101#32).jumpTo 0x20#32)) 1#5 = some 0x24#32 := by decide
theorem test_jalr_same_register : pcAfter (exec (.jalr 1#5 1#5 4#12) (twoRegs 0x100#32 0#32)) = some 0x104#32 := by decide
theorem test_halt : statusAfter (exec .halt State.reset) = some .halted := by decide

/-! The encoder and the assembler (spec/30_encoding.md R142 to R162). -/

theorem test_register_tokens :
    parseRegister ['x','0','5'] = .ok 5#5 ∧ parseRegister ['x','3','2'] = .error (.unknownRegister ['x','3','2']) ∧
    parseRegister ['s','p'] = .error (.unknownRegister ['s','p']) := by decide
theorem test_literals :
    parseImm12 ['2','0','4','7'] = .ok 2047 ∧ parseImm12 ['2','0','4','8'] = .error (.valueOutOfRange 2048) ∧
    parseImm12 ['-','2','0','4','8'] = .ok (-2048) ∧ parseImm12 ['0','x'] = .error (.malformedNumber ['0','x']) ∧
    parseImm12 ['\'','A','\''] = .ok 65 := by decide
theorem test_encode_store :
    (encodeStatement 0 ['s','w'] [['x','6'], ['4','(','x','7',')']] []).map (·.word) = .ok 0x0063A223#32 := by rfl
theorem test_encode_branch_back :
    (encodeStatement 4 ['b','n','e'] [['x','1'], ['x','2'], ['L']] [(['L'], 0)]).map (·.word) = .ok 0xFE209EE3#32 := by rfl
theorem test_halt_is_no_mnemonic :
    encodeStatement 0 ['h','a','l','t'] [] [] = .error (.error (.unknownMnemonic ['h','a','l','t'])) := by rfl
theorem test_word_directive :
    encodeData ['.','h','a','l','f'] [['-','2'], ['0','x','1','2','3','4']] = .ok [0xFE#8, 0xFF#8, 0x34#8, 0x12#8] := by rfl
theorem test_asciz_escape : encodeData ['.','a','s','c','i','z'] [['"','A','\\','n','"']] = .ok [0x41#8, 0x0A#8] := by rfl

/-- addi x1, x0, 5. -/
def oneLine : List SourceLine := [⟨none, .op ['a','d','d','i'] [['x','1'], ['x','0'], ['5']], []⟩]

theorem test_assemble_appends_halt :
    (assemble oneLine).map AsmOutput.image = .ok [(0#32, 0x00500093#32), (4#32, 0x00000073#32)] := by rfl

/-- `'('` is an immediate of value 40 (spec/30_encoding.md R143), and its parenthesis is not that of `imm(rs1)` (R152). -/
theorem test_char_literal_displacement :
    (encodeStatement 0 ['l','w'] [['x','1'], ['\'','(','\'','(','x','2',')']] []).map Encoded.instr = .ok (.lw 1#5 2#5 40#12) := by rfl

/-- The template of spec/30_encoding.md R163 around the open field texts, for the halt word's line: every field but opcode is NULL. -/
theorem test_line_template :
    (haltEntry 1).line =
      Config.addrText 4#32 ++ [' '] ++ Config.wordText 0x00000073#32 ++ [' ', ',', ' ', ' ', '#', ' '] ++
        Config.traceFieldText .opcode 115 ++
        ['-','N','U','L','L','-','N','U','L','L','-','N','U','L','L','-','N','U','L','L','-','N','U','L','L','-','N','U','L','L'] := by
  simp [TextEntry.line, haltEntry, traceText, traceOf, mnemonicOf, Mnemonic.opcode, Mnemonic.funct3, Mnemonic.funct7, destOf, source1Of,
    source2Of, traceFieldText, fieldValue, List.intercalate, textAddr, textBase, haltWord]

/-- A textual load stops at a field that is not hexadecimal, and the entries before it stand (spec/70_reset_and_hazards.md R462). -/
theorem test_load_text_malformed :
    State.reset.loadText [(['0'], ['7','3']), (['4'], ['g'])] [] =
      ((State.reset.load [(0#32, 0x00000073#32)] []).1, some (.malformedNumber ['g'])) := by rfl

/-- A byte field wider than 8 bits is ValueOutOfRange (spec/70_reset_and_hazards.md R462). -/
theorem test_load_text_wide_byte :
    (State.reset.loadText [] [(['1','0','0','0','0','0','0','0'], ['1','0','0'])]).2 = some (.valueOutOfRange 256) := by rfl

/-! The pipeline, one cycle each (spec/45_pipeline.md R322; spec/95_test_vectors.md). -/

/-- The next step executes the word placed by `withFetchWord`, here `addi x1, x0, 5`: the result is in EX/MEM. -/
theorem test_placed_word_is_executed :
    (match step (State.reset.withFetchWord 32 0x00500093) with
      | .next t => t.exmem.map (fun e => (e.pc, e.ins, e.result))
      | .fault _ => none
      | .refused _ => none) = some (0#32, .addi, 5#32) := by decide

/-- A placed word that decodes to nothing raises at the next step. -/
theorem test_placed_illegal_word_raises :
    (match step (State.reset.withFetchWord 32 0x00100073) with
      | .next t => t.status
      | .fault _ => .halted
      | .refused _ => .halted) = .faulted (.unknownWord 0x00100073#32) := by decide

/-! Witnesses: for every statement with hypotheses, states and operands that meet them all. Statements that share their hypotheses
share a witness. -/

/-- Encoding statements: a well-formed instruction, and words that decode, one per format. -/
theorem witness_encoding :
    (Instr.beq 1#5 2#5 0x1000#13).wellFormed = true ∧ (Instr.jal 31#5 0x1FFFFE#21).wellFormed = true ∧
    opcodeOf 0x00000073#32 = 0b1110011#7 ∧ opcodeOf 0x00100073#32 = 0b1110011#7 ∧
    (decode 0x002081B3#32).map (fun i => (mnemonicOf i).format) = some .r ∧
    (decode 0xFFF08193#32).map (fun i => (mnemonicOf i).format) = some .i ∧
    (decode 0xFE638FA3#32).map (fun i => (mnemonicOf i).format) = some .s ∧
    (decode 0xFE209EE3#32).map (fun i => (mnemonicOf i).format) = some .sb ∧
    (decode 0xFFFFFFB7#32).map (fun i => (mnemonicOf i).format) = some .u ∧
    (decode 0x8000006F#32).map (fun i => (mnemonicOf i).format) = some .uj ∧
    (decode 0x00000073#32).map (fun i => (mnemonicOf i).format) = some .halt := by decide

/-- LoadFillsTheMemories, LoadStopsAtTheFirstBadEntry, HostOperationsKeepEngineInv: engines that have not faulted, one of them halted, and
one that has. -/
theorem witness_host_status :
    ¬State.reset.hasFaulted ∧ ¬({ State.reset with status := .halted } : State).hasFaulted ∧
    ({ State.reset with status := .faulted (.unsupportedWidth 0#32) } : State).hasFaulted :=
  ⟨fun ⟨_, h⟩ => Status.noConfusion h, fun ⟨_, h⟩ => Status.noConfusion h, _, rfl⟩

/-- LoadFillsTheMemories and LoadStopsAtTheFirstBadEntry: acceptable entries at the boundaries of the partitions, and one entry for each
failing check. -/
theorem witness_load :
    (∀ p ∈ [((0#32 : Word), (1#32 : Word)), (0x0FFFFFFC#32, 2#32), (0#32, 3#32)], loadableEntry p) ∧
    (∀ p ∈ [((0x10000000#32 : Word), (1#8 : Byte)), (0xFFFFFFFF#32, 2#8)], inDataSegment p.1 = true) ∧
    lastWordAt [(0#32, 1#32), (0x0FFFFFFC#32, 2#32), (0#32, 3#32)] 0#32 = some 3#32 ∧
    inDataSegment 0x10000000#32 = true ∧ (inDataSegment 0x0FFFFFFE#32 = false ∧ (0x0FFFFFFE#32 : Word).extractLsb' 0 2 ≠ 0#2) ∧
    inDataSegment 0x0FFFFFFF#32 = false := by
  refine ⟨by simp [loadableEntry, inDataSegment, dataBase], by simp [inDataSegment, dataBase], by decide, by decide, by decide,
    by decide⟩

/-- DivisionCompletes: a quotient at the edge of the format. -/
theorem witness_division :
    ((twoRegs 0x80000000#32 1#32).readReg 2#5).toInt ≠ 0 ∧
    ¬(((twoRegs 0x80000000#32 1#32).readReg 1#5).toInt = -2 ^ 31 ∧ ((twoRegs 0x80000000#32 1#32).readReg 2#5).toInt = -1) := by
  decide

/-- x1 = a, x2 = b under DIV_POLICY = RiscV. -/
def twoRegsRiscv (a b : Word) : State := { twoRegs a b with cfg := ⟨.riscv, .zero⟩ }

/-- UndefinedDivisionFollowsPolicy: each clause. -/
theorem witness_undefined_division :
    ((twoRegs 1#32 0#32).readReg 2#5 = 0#32 ∧ (twoRegs 1#32 0#32).cfg.divPolicy = .fault) ∧
    ((twoRegs 0x80000000#32 0xFFFFFFFF#32).readReg 1#5 = 0x80000000#32 ∧
      (twoRegs 0x80000000#32 0xFFFFFFFF#32).readReg 2#5 = 0xFFFFFFFF#32) ∧
    ((twoRegsRiscv 1#32 0#32).readReg 2#5 = 0#32 ∧ (twoRegsRiscv 1#32 0#32).cfg.divPolicy = .riscv) ∧
    ((twoRegsRiscv 0x80000000#32 0xFFFFFFFF#32).readReg 1#5 = 0x80000000#32 ∧
      (twoRegsRiscv 0x80000000#32 0xFFFFFFFF#32).readReg 2#5 = 0xFFFFFFFF#32) := by decide

/-- `withData` under UNWRITTEN_DATA_READ = Fault. -/
def withDataStrict (b v : Word) (a w : Word) : State := { withData b v a w with cfg := ⟨.fault, .fault⟩ }

/-- LoadsComplete, StoresComplete, StoredWordIsLoaded: accesses at the first and the last data addresses, the strict parameter
included; the store of the last statement completes. -/
theorem witness_accesses :
    accessInData 0x10000000#32 4 ∧ accessInData 0xFFFFFFFC#32 4 ∧ accessInData 0xFFFFFFFE#32 2 ∧ accessInData 0xFFFFFFFF#32 1 ∧
    (withDataStrict 0x10000000#32 0#32 0x10000000#32 5#32).accessWritten 0x10000000#32 4 ∧
    (0x10000000#32 : Word) = (withDataStrict 0x10000000#32 0#32 0x10000000#32 5#32).readReg 7#5 + (0#12).signExtend 32 ∧
    (1#12).signExtend 32 = (0#12).signExtend 32 + BitVec.ofNat 32 1 := by
  unfold accessInData State.accessWritten
  decide

theorem witness_store_next : ∃ t, exec (.sw 6#5 7#5 0#12) (withData 0x10000000#32 9#32 0x10000000#32 5#32) = .next t := ⟨_, rfl⟩

/-- LoadErrors and StoreErrors: the first offending byte below DATA_BASE at offset 0 and, past the top of the address space, at offset
1; a byte nothing has written at offset 3. -/
theorem witness_access_errors :
    (accessInData 0x0FFFFFFF#32 0 ∧ inDataSegment (0x0FFFFFFF#32 + BitVec.ofNat 32 0) = false) ∧
    (accessInData 0xFFFFFFFF#32 1 ∧ inDataSegment (0xFFFFFFFF#32 + BitVec.ofNat 32 1) = false) ∧
    (accessInData 0x10000001#32 4 ∧ (withDataStrict 0x10000001#32 0#32 0x10000000#32 5#32).cfg.unwrittenDataRead = .fault ∧
      (withDataStrict 0x10000001#32 0#32 0x10000000#32 5#32).accessWritten 0x10000001#32 3 ∧
      Memory.byteAt (withDataStrict 0x10000001#32 0#32 0x10000000#32 5#32).dmem (0x10000001#32 + BitVec.ofNat 32 3) = none) := by
  unfold accessInData State.accessWritten
  decide

/-- X0IsNeverWritten and the frames: an instruction of each class that answers a next state, a failing one where the frame has that
case. -/
theorem witness_frames :
    (∃ t, exec (.add 0#5 1#5 2#5) (twoRegs 5#32 7#32) = .next t) ∧
    (∃ t, exec (.div 3#5 1#5 2#5) (twoRegs 5#32 0#32) = .next t ∧ t.hasFaulted) ∧
    (∃ t, exec (.lw 6#5 7#5 0#12) (withData 0x10000000#32 0#32 0x10000000#32 5#32) = .next t) ∧
    (∃ t, exec (.ld 6#5 7#5 0#12) (withData 0#32 0#32 0x10000000#32 5#32) = .next t ∧ t.hasFaulted) ∧
    (∃ t, exec (.sb 6#5 7#5 0#12) (withData 0x10000000#32 9#32 0x10000000#32 5#32) = .next t) ∧
    (∃ t, exec (.sd 6#5 7#5 0#12) (withData 0#32 0#32 0x10000000#32 5#32) = .next t ∧ t.hasFaulted) ∧
    (∃ t, exec (.beq 1#5 2#5 8#13) (twoRegs 3#32 3#32) = .next t) :=
  ⟨⟨_, rfl⟩, ⟨_, rfl, _, rfl⟩, ⟨_, rfl⟩, ⟨_, rfl, _, rfl⟩, ⟨_, rfl⟩, ⟨_, rfl, _, rfl⟩, ⟨_, rfl⟩⟩

/-- An engine with a program of one word at 0 and empty buffers. -/
def oneWord (w : Word) : State := { State.reset with imem := storeInstrWord [] 0#32 w }

/-- CyclesRunTheDecodedInstruction: `addi x1, x0, 5` alone at 0, with no word at 4. -/
theorem witness_cycles_run :
    (oneWord 0x00500093#32).status = .running ∧ (oneWord 0x00500093#32).drained ∧
    (oneWord 0x00500093#32).holdsWord (oneWord 0x00500093#32).pc 0x00500093#32 ∧
    decode 0x00500093#32 = some (.addi 1#5 0#5 5#12) ∧
    predictNext (oneWord 0x00500093#32).bht (oneWord 0x00500093#32).btb 0#32 = .ok 4#32 ∧
    iMemReadWord (oneWord 0x00500093#32).imem 4#32 = .ok none ∧
    (∃ t, exec (.addi 1#5 0#5 5#12) (oneWord 0x00500093#32) = .next t ∧ t.status = .running ∧
      iMemReadWord (oneWord 0x00500093#32).imem t.pc = .ok none) :=
  ⟨rfl, ⟨rfl, rfl, rfl, rfl⟩, rfl, rfl, rfl, rfl, _, rfl, rfl, rfl⟩

theorem witness_stopped : ({ State.reset with status := .halted } : State).status ≠ .running := by decide

/-- A record of IF/ID. -/
def fetched (a w : Word) : IFID := { pc := a, nextPc := a + 4#32, word := w }

/-- A record of ID/EX. -/
def decoded (a w : Word) (i : Instr) (v1 v2 : Word) : IDEX := issueRecord (fetched a w) (decodedFields i) v1 v2

/-- `addi x1, x0, 5` at 0 and the halt word at 4, with the halt word in IF/ID and `addi` in ID/EX. -/
def inFlight : State :=
  { State.reset with
    imem := storeInstrWord (storeInstrWord [] 0#32 0x00500093#32) 4#32 haltWord
    pc := 8#32
    ifid := some (fetched 4#32 haltWord)
    idex := some (decoded 0#32 0x00500093#32 (.addi 1#5 0#5 5#12) 0#32 0#32) }

/-- The engine's invariant of a state with empty data memory, empty predictor and nothing in EX/MEM or MEM/WB. -/
theorem engineInv_of_front {s : State} (hi : Memory.wf s.imem) (hp : ∀ p ∈ s.imem, p.1 < dataBase) (hd : s.dmem = []) (hb : s.bht = [])
    (ht : s.btb = []) (hx : s.x[0] = 0#32)
    (hc : s.stats.retired = s.stats.memCount + s.stats.ctrlCount + s.stats.aluCount)
    (h1 : ∀ f, s.ifid = some f → f.nextPc = f.pc + 4#32) (h2 : ∀ d, s.idex = some d → recordCoherent d)
    (h3 : s.exmem = none) (h4 : s.memwb = none) : EngineInv s :=
  { imemCanonical := hi
    imemPartition := hp
    dmemCanonical := by rw [hd]; exact .nil
    dmemPartition := by rw [hd]; intro p h; cases h
    bhtCanonical := by rw [hb]; exact .nil
    btbCanonical := by rw [ht]; exact .nil
    predictorClosed := by rw [hb]; intro a h; cases h
    x0Zero := hx
    countsAddUp := hc
    ifidCoherent := h1
    idexCoherent := h2
    exmemCoherent := by rw [h3]; intro e h; cases h
    memwbCoherent := by rw [h4]; intro e h; cases h }

/-- CoherentEngineAlwaysSteps, EngineInvKept, HostOperationsKeepEngineInv: an engine with two instructions in flight. -/
theorem witness_engine_inv : EngineInv inFlight :=
  engineInv_of_front (by decide) (by decide) rfl rfl rfl rfl rfl (fun f h => by cases h; rfl)
    (fun d h => by cases h; exact ⟨rfl, _, rfl, rfl⟩) rfl rfl

/-- PlacedInstructionRunsAtTheNextStep. -/
theorem witness_placed : EngineInv inFlight ∧ decode 0x002081B3#32 = some (.add 3#5 1#5 2#5) := ⟨witness_engine_inv, by decide⟩

/-- PathInvKept, PipelineRefinesInOrder (the clause of an instruction in ID/EX), PredictorLearnsEveryResolution (its first clause). -/
theorem witness_path_inv : PathInv inFlight :=
  { ifidWord := fun f h => by cases h; rfl
    idexWord := fun d h => by cases h; rfl
    predictorEntry := fun a h => absurd rfl h
    fetchFollows := fun f h => by cases h; rfl
    sequentialPath := fun d h _ => by cases h; exact ⟨fun f h => by cases h; rfl, fun h => by cases h⟩
    operandsCurrent := fun d h => by cases h; exact ⟨rfl, rfl⟩ }

theorem witness_path_step :
    ∃ t, step inFlight = .next t ∧ t.status = .running ∧ inFlight.status = .running ∧
      (∀ d, inFlight.idex = some d → d.isControl = false) :=
  ⟨_, rfl, rfl, rfl, fun d h => by cases h; rfl⟩

/-- The halt word alone at 0, with an empty pipeline; the second engine forwards, and has a predictor entry for no address. -/
theorem witness_halt_engine (b : Bool) : EngineInv { oneWord haltWord with fwd := b } ∧ PathInv { oneWord haltWord with fwd := b } := by
  have hw : Memory.wf (oneWord haltWord).imem := by decide
  have hp : ∀ p ∈ (oneWord haltWord).imem, p.1 < dataBase := by decide
  refine ⟨engineInv_of_front hw hp rfl rfl rfl rfl rfl (fun f h => by cases h) (fun d h => by cases h) rfl rfl, ?_⟩
  exact
    { ifidWord := fun f h => by cases h
      idexWord := fun d h => by cases h
      predictorEntry := fun a h => absurd rfl h
      fetchFollows := fun f h => by cases h
      sequentialPath := fun d h _ => by cases h
      operandsCurrent := fun d h => by cases h }

/-- A word read from the memory of `oneWord` stands at 0. -/
theorem oneWord_read {w v : Word} {a : Word} (h : iMemReadWord (oneWord w).imem a = .ok (some v)) : a = 0#32 := by
  by_contra hne
  have hb : Memory.byteAt (oneWord w).imem a ≠ none := by
    unfold iMemReadWord at h
    split at h
    · cases h
    · split at h
      · cases h
      · split at h
        · rename_i b0 _ _ _ h0 _ _ _
          rw [h0]
          exact Option.some_ne_none _
        · cases h
  have h4 : a.extractLsb' 0 2 = 0#2 := by
    unfold iMemReadWord at h
    split at h
    · cases h
    · split at h
      · cases h
      · rename_i h4
        exact Decidable.not_not.mp h4
  have hout : ∀ k < 4, a ≠ 0#32 + BitVec.ofNat 32 k := by
    intro k hk e
    have : k = 0 ∨ k = 1 ∨ k = 2 ∨ k = 3 := by omega
    rcases this with rfl | rfl | rfl | rfl <;> subst e <;> first | exact hne rfl | exact absurd h4 (by decide)
  exact hb (storeBytes_outside [] 0#32 w hout)

/-- PredictionAndForwardingInvisible and HaltingRunCycleCount: the program that is the halt word alone halts in the fifth cycle. -/
theorem witness_halting_runs :
    haltIsLast (oneWord haltWord).imem ∧
    sameProgramState (oneWord haltWord) { oneWord haltWord with fwd := true } ∧ (oneWord haltWord).drained ∧
    (∃ t, Host.Core.run Sys2Proof.core 5 (oneWord haltWord) = .next t ∧ t.status = .halted) ∧
    (∃ t, Host.Core.run Sys2Proof.core 5 { oneWord haltWord with fwd := true } = .next t ∧ t.status = .halted) ∧
    (boot Config.standard [(0#32, haltWord)] [] false).1 = oneWord haltWord := by
  refine ⟨fun a h => ?_, ⟨rfl, rfl, rfl, rfl, rfl⟩, ⟨rfl, rfl, rfl, rfl⟩, ⟨_, rfl, rfl⟩, ⟨_, rfl, rfl⟩, rfl⟩
  rw [oneWord_read h]
  rfl

/-- `addi x1, x0, 5` with its result in MEM/WB. -/
def atWriteBack : MEMWB := { decoded 0#32 0x00500093#32 (.addi 1#5 0#5 5#12) 0#32 0#32 with result := 5#32, wbValue := 5#32 }

/-- WriteBackWritesTheDestination, CycleWritesOnlyThroughItsStages, ErrorEndsTheCycle (no error): an instruction and the halt word in
MEM/WB. -/
theorem witness_write_back :
    (∃ t, step { State.reset with memwb := some atWriteBack } = .next t ∧ t.readReg 1#5 = 5#32 ∧ t.status = .running) ∧
    atWriteBack.ins ≠ .halt ∧ atWriteBack.regWrite = true ∧ atWriteBack.rd = some 1#5 ∧
    (∃ t, step { State.reset with memwb := some { atWriteBack with ins := .halt } } = .next t ∧ t.status = .halted) :=
  ⟨⟨_, rfl, rfl, rfl⟩, by decide, rfl, rfl, ⟨_, rfl, rfl⟩⟩

/-- ErrorEndsTheCycle (an error) and UnknownWordEndsAtDecode: an illegal word in IF/ID. -/
theorem witness_unknown_word :
    decode 0x00100073#32 = none ∧
    (∃ t, step { State.reset with ifid := some (fetched 0#32 0x00100073#32) } = .next t ∧ t.hasFaulted) :=
  ⟨by decide, _, rfl, _, rfl⟩

/-- `beq x0, x0, 8` at 0 in ID/EX, with IF/ID as given. -/
def branching (f : Option IFID) : State :=
  { State.reset with
    imem := storeInstrWord (storeInstrWord (storeInstrWord [] 0#32 0x00000463#32) 4#32 haltWord) 8#32 haltWord
    pc := 12#32
    ifid := f
    idex := some (decoded 0#32 0x00000463#32 (.beq 0#5 0#5 8#13) 0#32 0#32) }

/-- `lw x6, 4(x7)` at 0 in EX/MEM with the given effective address, under the given parameters. -/
def loading (cfg : Config) (a : Word) : State :=
  { State.reset with
    cfg := cfg
    exmem := some { decoded 0#32 0x0043A303#32 (.lw 6#5 7#5 4#12) 0#32 0#32 with result := a } }

/-- The load of 4, and the load of the first data byte where nothing is written. -/
def failingLoad : State := loading Config.standard 4#32
def unwrittenLoad : State := loading ⟨.fault, .fault⟩ 0x10000000#32

/-- The engine's invariant of `loading`. -/
theorem engineInv_of_load (cfg : Config) (a : Word) : EngineInv (loading cfg a) :=
  { imemCanonical := .nil
    imemPartition := fun p h => by cases h
    dmemCanonical := .nil
    dmemPartition := fun p h => by cases h
    bhtCanonical := .nil
    btbCanonical := .nil
    predictorClosed := fun k h => by cases h
    x0Zero := rfl
    countsAddUp := rfl
    ifidCoherent := fun f h => by cases h
    idexCoherent := fun d h => by cases h
    exmemCoherent := fun e h => by cases h; exact ⟨rfl, .lw 6#5 7#5 4#12, (rfl : decode 0x0043A303#32 = _), rfl⟩
    memwbCoherent := fun m h => by cases h }

/-- MispredictionFlushesAndRedirects: fetch went on to 4, and the branch goes to 8. -/
theorem witness_misprediction :
    recordCoherent (decoded 0#32 0x00000463#32 (.beq 0#5 0#5 8#13) 0#32 0#32) ∧
    (decoded 0#32 0x00000463#32 (.beq 0#5 0#5 8#13) 0#32 0#32).isControl = true ∧
    resolve (branching (some (fetched 4#32 haltWord))) (decoded 0#32 0x00000463#32 (.beq 0#5 0#5 8#13) 0#32 0#32) =
      .ok (true, 8#32) ∧
    (∀ f, (branching (some (fetched 4#32 haltWord))).ifid = some f → f.pc ≠ resolvedNext 0#32 true 8#32) ∧
    (∃ t, step (branching (some (fetched 4#32 haltWord))) = .next t ∧ t.status = .running) :=
  ⟨⟨rfl, _, rfl, rfl⟩, rfl, rfl, fun f h => by cases h; decide, _, rfl, rfl⟩

/-- PredictorLearnsEveryResolution: a resolution in a cycle that goes on, one in a cycle that decode then ends (IF/ID holds the target, and
no word of the opcode map), and a cycle that memory ends before execute. -/
theorem witness_resolutions :
    (∃ s2, memStage (wbStage (branching (some (fetched 8#32 haltWord)))).1 = .ok s2) ∧
    (∃ t, step (branching (some (fetched 8#32 0x00100073#32))) = .next t ∧ t.hasFaulted ∧ PMap.get t.bht 0 = some true) ∧
    (∀ s2, memStage (wbStage failingLoad).1 ≠ .ok s2) ∧ (∃ t, step failingLoad = .next t ∧ t.hasFaulted) :=
  ⟨⟨_, rfl⟩, ⟨_, rfl, ⟨_, rfl⟩, rfl⟩, fun s2 h => (by cases h), ⟨_, rfl, ⟨_, rfl⟩⟩⟩

/-- OnlyTheStatedErrors: a load in EX/MEM of an address below DATA_BASE, and, under UNWRITTEN_DATA_READ = Fault, of a byte nothing has
written; the other causes stand in the states of `witness_unknown_word` and `witness_resolutions`. -/
theorem witness_errors :
    EngineInv failingLoad ∧ failingLoad.status = .running ∧
    (∃ t, step failingLoad = .next t ∧ t.status = .faulted (.segmentAccessViolation 4#32)) ∧
    EngineInv unwrittenLoad ∧ unwrittenLoad.status = .running ∧
    (∃ t, step unwrittenLoad = .next t ∧ t.status = .faulted (.unwrittenRead 0x10000000#32)) :=
  ⟨engineInv_of_load _ _, rfl, ⟨_, rfl, rfl⟩, engineInv_of_load _ _, rfl, ⟨_, rfl, rfl⟩⟩

/-- CorrectPredictionGoesOn and PredictorLearnsEveryResolution: fetch holds the branch's target. -/
theorem witness_correct_prediction :
    EngineInv (branching (some (fetched 8#32 haltWord))) ∧
    (fetched 8#32 haltWord).pc = resolvedNext 0#32 true 8#32 ∧
    (∃ t, step (branching (some (fetched 8#32 haltWord))) = .next t ∧ t.status = .running) :=
  ⟨engineInv_of_front (by decide) (by decide) rfl rfl rfl rfl rfl (fun f h => by cases h; rfl)
    (fun d h => by cases h; exact ⟨rfl, _, rfl, rfl⟩) rfl rfl, rfl, _, rfl, rfl⟩

/-- `addi x1, x0, 5` in ID/EX and `addi x2, x1, 1` in IF/ID, without forwarding. -/
def dependent : State :=
  { State.reset with
    imem := storeInstrWord (storeInstrWord [] 0#32 0x00500093#32) 4#32 0x00108113#32
    pc := 8#32
    ifid := some (fetched 4#32 0x00108113#32)
    idex := some (decoded 0#32 0x00500093#32 (.addi 1#5 0#5 5#12) 0#32 0#32) }

/-- StallKeepsTheInstruction and NoForwardWhenDisabled. -/
theorem witness_stall :
    EngineInv dependent ∧ PathInv dependent ∧ dependent.fwd = false ∧
    (∃ t, step dependent = .next t ∧ t.status = .running ∧ t.stats.stalls ≠ dependent.stats.stalls) :=
  ⟨engineInv_of_front (by decide) (by decide) rfl rfl rfl rfl rfl (fun f h => by cases h; rfl)
    (fun d h => by cases h; exact ⟨rfl, _, rfl, rfl⟩) rfl rfl,
   { ifidWord := fun f h => by cases h; rfl
     idexWord := fun d h => by cases h; rfl
     predictorEntry := fun a h => absurd rfl h
     fetchFollows := fun f h => by cases h; rfl
     sequentialPath := fun d h _ => by cases h; exact ⟨fun f h => by cases h; rfl, fun h => by cases h⟩
     operandsCurrent := fun d h => by cases h; exact ⟨rfl, rfl⟩ },
   rfl, _, rfl, rfl, by decide⟩

/-- HazardTable: a producer of x1 in EX/MEM, one in MEM/WB with none in EX/MEM, and none at all. -/
theorem witness_hazards :
    (1#5 : RegIdx) ≠ 0#5 ∧
    (∃ p, ({ State.reset with exmem := some atWriteBack.toEXMEM } : State).exmem = some p ∧ p.regWrite = true ∧ p.rd = some 1#5 ∧
      p.memRead = false) ∧
    (∃ q, ({ State.reset with memwb := some atWriteBack } : State).memwb = some q ∧ q.regWrite = true ∧ q.rd = some 1#5) ∧
    State.reset.exmem = none ∧ State.reset.memwb = none :=
  ⟨by decide, ⟨_, rfl, rfl, rfl, rfl⟩, ⟨_, rfl, rfl, rfl⟩, rfl, rfl⟩

/-- FetchFromAnEmptyPipeline: a hit, a hit on a predicted-taken address, a miss, the first data address. -/
theorem witness_fetch :
    State.reset.drained ∧ (oneWord haltWord).holdsWord 0#32 haltWord ∧
    PMap.get ({ oneWord 0x0000006F#32 with bht := [(0, true)], btb := [(0, 0#32)] } : State).bht 0 = some true ∧
    PMap.get ({ oneWord 0x0000006F#32 with bht := [(0, true)], btb := [(0, 0#32)] } : State).btb 0 ≠ none ∧
    iMemReadWord State.reset.imem State.reset.pc = .ok none ∧ inDataSegment 0x10000000#32 = true :=
  ⟨⟨rfl, rfl, rfl, rfl⟩, rfl, rfl, by decide, rfl, rfl⟩

/-- EncodedStatementDecodes and ImmediateRanges: a statement that encodes; a literal at and one past the boundary; a label too far. -/
theorem witness_encoder :
    (∃ e, encodeStatement 0 ['s','w'] [['x','6'], ['4','(','x','7',')']] [] = .ok e ∧ e.instr.wellFormed = true) ∧
    (parseLiteral ['2','0','4','7']).map Literal.value = .ok 2047 ∧ (parseLiteral ['2','0','4','8']).map Literal.value = .ok 2048 ∧
    SymTab.find [(['L'], 4096)] ['L'] = some 4096 ∧ parseRegister ['x','1'] = .ok 1#5 ∧
    ¬(-4096 ≤ ((4096 : Nat) : Int) - (0 : Nat) ∧ ((4096 : Nat) : Int) - (0 : Nat) ≤ 4095) ∧
    (-4096 ≤ ((4096 : Nat) : Int) - (4 : Nat) ∧ ((4096 : Nat) : Int) - (4 : Nat) ≤ 4095) ∧
    ¬(-1048576 ≤ ((1048576 : Nat) : Int) - (0 : Nat) ∧ ((1048576 : Nat) : Int) - (0 : Nat) ≤ 1048575) ∧
    (-1048576 ≤ ((0 : Nat) : Int) - (1048576 : Nat) ∧ ((0 : Nat) : Int) - (1048576 : Nat) ≤ 1048575) :=
  ⟨⟨_, rfl, rfl⟩, rfl, rfl, rfl, rfl, by decide, by decide, by decide, by decide⟩

/-- A labelled `addi x1, x0, 5`. -/
def labelled (l : Text) : SourceLine := ⟨some l, .op ['a','d','d','i'] [['x','1'], ['x','0'], ['5']], []⟩

/-- LabelsAreUnique: two labelled `addi` lines (spec/95_test_vectors.md S3), with one label and with two. -/
theorem witness_labels :
    (([labelled ['L'], labelled ['M']]).filterMap (·.label)).Nodup ∧
    (([labelled ['L']]).filterMap (·.label)).Nodup ∧ (labelled ['L']).label = some ['L'] ∧
    ['L'] ∈ ([labelled ['L']]).filterMap (·.label) ∧
    symbolTable [labelled ['L'], labelled ['L']] = .error (.error (.duplicateLabel ['L'])) :=
  ⟨by decide, by decide, rfl, by decide, rfl⟩

/-- LabelsAreUnique (its second clause), AssembledImageLayout, AssembledProgramLoads: a source that assembles and fits. -/
theorem witness_assembler :
    (∃ t, symbolTable oneLine = .ok t) ∧
    (∃ o, assemble oneLine = .ok o ∧ 4 * o.text.length < 0x10000000 ∧ o.data.length ≤ 0xF0000000) :=
  ⟨⟨_, rfl⟩, _, rfl, by decide, by decide⟩

end Sys2Proof.Tests
end

section
/-! The register file under one instruction (spec/10_state.md R31): every meaning leaves it alone or writes the instruction's own
destination, and x0 takes no write. -/

namespace Sys2Proof.Machine

/-- The registers of t are those of s, but for at most one write of the destination d. -/
def State.writesAtMost (s t : State) (d : Option RegIdx) : Prop :=
  t.x = s.x ∨ ∃ rd v, d = some rd ∧ t.x = regsAfterWrite s.x rd v

/-- One write of the destination is allowed. -/
theorem State.writesAtMost_of_write {s t : State} {rd : RegIdx} {v : Word} (h : t.x = regsAfterWrite s.x rd v) :
    s.writesAtMost t (some rd) := .inr ⟨rd, v, rfl, h⟩

/-- Entry 0 of the register file keeps its stored value. -/
theorem State.writesAtMost.x_zero {s t : State} {d : Option RegIdx} (h : s.writesAtMost t d) : t.x[0] = s.x[0] := by
  obtain hx | ⟨rd, v, -, hx⟩ := h
  · simp only [hx]
  · simpa only [hx, State.writeReg_x] using State.writeReg_x_zero s rd v

/-- With x0 for its destination nothing is written. -/
theorem State.writesAtMost.x_eq_of_zero {s t : State} (h : s.writesAtMost t (some 0#5)) : t.x = s.x := by
  obtain hx | ⟨rd, v, hrd, hx⟩ := h
  · exact hx
  · cases hrd
    rw [hx, regsAfterWrite, if_pos rfl]

/-! The shared operations. -/

/-- A register-immediate operation that is no division only writes rd. -/
theorem regImmOp_next {op : AluOp} {rd rs1 : RegIdx} {imm : BitVec 12} {s t : State} (hd : op ≠ .div) (hr : op ≠ .rem)
    (h : regImmOp op rd rs1 imm s = .next t) : ∃ v, t = s.afterAlu rd v := by
  obtain ⟨v, hv⟩ := alu_isSome s.cfg.divPolicy (s.readReg rs1) (imm.signExtend 32) hd hr
  rw [regImmOp_some hv] at h
  exact ⟨v, (Host.Outcome.next.inj h).symm⟩

theorem regRegOp_writesAtMost {op : AluOp} {rd rs1 rs2 : RegIdx} {s t : State} (h : regRegOp op rd rs1 rs2 s = .next t) :
    s.writesAtMost t (some rd) := by
  obtain ⟨v, rfl⟩ | rfl := regRegOp_cases h
  · exact State.writesAtMost_of_write (v := v) rfl
  · exact .inl rfl

theorem regImmOp_writesAtMost {op : AluOp} {rd rs1 : RegIdx} {imm : BitVec 12} {s t : State} (hd : op ≠ .div) (hr : op ≠ .rem)
    (h : regImmOp op rd rs1 imm s = .next t) : s.writesAtMost t (some rd) := by
  obtain ⟨v, rfl⟩ := regImmOp_next hd hr h
  exact State.writesAtMost_of_write (v := v) rfl

theorem finishAlu_writesAtMost {rd : RegIdx} {v : Word} {s t : State} (h : finishAlu s rd v = .next t) :
    s.writesAtMost t (some rd) := by
  rw [finishAlu_eq] at h
  cases h
  exact State.writesAtMost_of_write (v := v) rfl

theorem loadOp_writesAtMost {n : Nat} {rd rs1 : RegIdx} {imm : BitVec 12} {s t : State} (h : loadOp n rd rs1 imm s = .next t) :
    s.writesAtMost t (some rd) := by
  obtain ⟨v, rfl⟩ | ⟨e, rfl⟩ := loadOp_cases h
  · exact State.writesAtMost_of_write (v := v) rfl
  · exact .inl rfl

theorem storeOp_x {n : Nat} {rs2 rs1 : RegIdx} {imm : BitVec 12} {s t : State} (h : storeOp n rs2 rs1 imm s = .next t) :
    t.x = s.x := by
  obtain ⟨-, rfl⟩ | ⟨e, rfl⟩ := storeOp_cases h <;> rfl

theorem failWith_x {e : Error} {s t : State} (h : failWith s e = .next t) : t.x = s.x := by
  cases h
  rfl

theorem branchOp_x {taken : Bool} {imm : BitVec 13} {s t : State} (h : branchOp taken imm s = .next t) : t.x = s.x := by
  cases h
  rfl

/-- A jump's resolution touches no register, so the link is its only write. -/
theorem resolveTo_writeReg_writesAtMost (s : State) (rd : RegIdx) (target v : Word) :
    s.writesAtMost ((resolveTo s true target).writeReg rd v) (some rd) :=
  State.writesAtMost_of_write (State.writeReg_x (resolveTo s true target) rd v)

/-! Every instruction. -/

/-- An instruction writes at most its destination register. -/
theorem exec_writesAtMost_destOf {i : Instr} {s t : State} (h : exec i s = .next t) : s.writesAtMost t (destOf i) := by
  cases i with
  | add | sub | sll | slt | xor | srl | sra | or | and | mul | div | rem =>
    simp only [exec, execAdd, execSub, execSll, execSlt, execXor, execSrl, execSra, execOr, execAnd, execMul, execDiv, execRem] at h
    exact regRegOp_writesAtMost h
  | addi | andi | ori =>
    simp only [exec, execAddi, execAndi, execOri] at h
    exact regImmOp_writesAtMost (by decide) (by decide) h
  | lui | auipc => exact finishAlu_writesAtMost h
  | lb | lh | lw => exact loadOp_writesAtMost h
  | jal | jalr =>
    cases h
    exact resolveTo_writeReg_writesAtMost s _ _ _
  | sb | sh | sw => exact .inl (storeOp_x h)
  | ld | sd => exact .inl (failWith_x h)
  | beq | bne | blt | bge => exact .inl (branchOp_x h)
  | halt =>
    cases h
    exact .inl rfl

/-- Settles O29: reads and writes by the laws of the register file, instructions by the one write each makes at most. -/
theorem x0IsNeverWritten : Obligations.X0IsNeverWritten := by
  unfold Obligations.X0IsNeverWritten
  refine ⟨fun s v => ⟨State.readReg_zero s, State.writeReg_zero s v, fun r hr => ?_⟩, fun i s t h => ?_⟩
  · exact ⟨State.readReg_writeReg_self s r v hr, fun q hq => State.readReg_writeReg_other s v hq⟩
  · have hw : s.writesAtMost t (destOf i) := exec_writesAtMost_destOf h
    refine ⟨hw.x_zero, fun hd => ?_⟩
    rw [hd] at hw
    exact State.readReg_congr hw.x_eq_of_zero

end Sys2Proof.Machine
end

section
/-! The halt opcode 1110011 (spec/30_encoding.md R135): it selects no row of the opcode map, so the word alone decides. -/

namespace Sys2Proof

/-- The nine opcodes of the other rows of R134 all differ from 1110011, so decode comes to its comparison with the halt word. -/
theorem decode_of_haltOpcode {w : Word} (h : opcodeOf w = 0b1110011#7) : decode w = if w = haltWord then some .halt else none := by
  simp only [decode, h, BitVec.reduceEq, if_false]

/-- Settles O4: past the other opcodes, decode compares the whole word with the halt word, which is 0x00000073. -/
theorem haltWordIsFullPattern : Obligations.HaltWordIsFullPattern := by
  unfold Obligations.HaltWordIsFullPattern
  intro w h
  rw [decode_of_haltOpcode h, haltWord]

end Sys2Proof
end

section
/-! The hazard unit with forwarding disabled (spec/70_reset_and_hazards.md R477): every producer it detects stalls decode, so no stage
of a cycle has a Forward event to log. -/

namespace Sys2Proof.Machine

/-! What the unit finds for one operand (R472, R474). -/

theorem exHit_iff {exmem : Option EXMEM} {r : RegIdx} :
    exHit exmem r = true ↔ ∃ p, exmem = some p ∧ p.regWrite = true ∧ p.rd = some r := by
  cases exmem <;> simp [exHit]

theorem memHit_iff {memwb : Option MEMWB} {r : RegIdx} :
    memHit memwb r = true ↔ ∃ q, memwb = some q ∧ q.regWrite = true ∧ q.rd = some r := by
  cases memwb <;> simp [memHit]

/-- With forwarding off a source other than x0 stalls on a producer in either stage, and otherwise reads the register. -/
theorem checkOperand_of_fwd_false {s : State} (hf : s.fwd = false) (name : Source) {r : RegIdx} (hr : r ≠ 0#5) :
    checkOperand s name (some r) =
      { stall := exHit s.exmem r || memHit s.memwb r
        hit := exHit s.exmem r || memHit s.memwb r
        value := if exHit s.exmem r || memHit s.memwb r then 0#32 else s.readReg r
        hazards := hazardEvents s name r
        fwds := [] } := by
  simp only [checkOperand, if_neg hr, hf]
  cases hx : exHit s.exmem r with
  | true =>
    obtain ⟨p, hp, -⟩ := exHit_iff.1 hx
    simp [hp]
  | false =>
    cases hm : memHit s.memwb r with
    | true =>
      obtain ⟨q, hq, -⟩ := memHit_iff.1 hm
      simp [hq]
    | false => simp [hazardEvents, hx, hm]

/-- An absent source and x0 are 0 and never hit (R471). -/
theorem checkOperand_of_none_or_zero (s : State) (name : Source) {src : Option RegIdx} (h : src = none ∨ src = some 0#5) :
    checkOperand s name src = { stall := false, hit := false, value := 0#32, hazards := [], fwds := [] } := by
  obtain rfl | rfl := h <;> rfl

/-! Event lists without a Forward event. -/

/-- No record of the list is a Forward event. -/
def NoForward (es : List Event) : Prop := ∀ (st : Stage) (op : Source) (r : RegIdx) (v : Word), Event.forward st op r v ∉ es

@[simp] theorem noForward_nil : NoForward [] := fun _ _ _ _ => List.not_mem_nil

@[simp] theorem noForward_append {es fs : List Event} : NoForward (es ++ fs) ↔ NoForward es ∧ NoForward fs := by
  simp only [NoForward, List.mem_append, not_or, forall_and]

@[simp] theorem noForward_flush (pc next : Word) : NoForward [.flush pc next] := by simp [NoForward]

@[simp] theorem noForward_stall (pc : Word) : NoForward [.stall pc] := by simp [NoForward]

@[simp] theorem noForward_hazard (st : Stage) (op : Source) (r : RegIdx) : NoForward [.hazard st op r] := by simp [NoForward]

@[simp] theorem noForward_hazardEvents (s : State) (name : Source) (r : RegIdx) : NoForward (hazardEvents s name r) := by
  unfold hazardEvents
  refine noForward_append.2 ⟨?_, ?_⟩ <;> split <;> simp

/-- With forwarding off an operand's check makes Hazard events only. -/
theorem checkOperand_noForward {s : State} (hf : s.fwd = false) (name : Source) (src : Option RegIdx) :
    NoForward (checkOperand s name src).hazards ∧ (checkOperand s name src).fwds = [] := by
  cases src with
  | none => simp [checkOperand_of_none_or_zero]
  | some r =>
    by_cases hr : r = 0#5
    · simp [checkOperand_of_none_or_zero, hr]
    · simp [checkOperand_of_fwd_false hf name hr]

/-! The stages of a cycle (R322). -/

/-- Forwarding is off and the cycle has logged no Forward event so far. -/
def State.unforwarded (s : State) : Prop := s.fwd = false ∧ NoForward s.events

theorem State.unforwarded.congr {s t : State} (h : s.unforwarded) (hf : t.fwd = s.fwd) (he : t.events = s.events) :
    t.unforwarded := by
  rw [State.unforwarded, hf, he]
  exact h

theorem State.unforwarded.logEvents {s : State} (h : s.unforwarded) {es : List Event} (he : NoForward es) :
    (s.logEvents es).unforwarded := ⟨h.1, noForward_append.2 ⟨h.2, he⟩⟩

theorem memStage_unforwarded {s t : State} (h : s.unforwarded) (ht : memStage s = .ok t) : t.unforwarded := by
  obtain ⟨m, w, rfl⟩ := memStage_frame ht
  exact h.congr rfl rfl

/-- A resolution logs a Flush event at most. -/
theorem applyResolution_unforwarded {s : State} (h : s.unforwarded) (pc : Word) (taken : Bool) (target : Word) :
    (applyResolution s pc taken target).1.unforwarded := by
  obtain ⟨-, hr⟩ | ⟨-, hr⟩ := applyResolution_cases s pc taken target <;> rw [hr]
  · exact (h.logEvents (noForward_flush pc (resolvedNext pc taken target))).congr rfl rfl
  · exact h.congr rfl rfl

theorem exStage_unforwarded {s : State} {r : State × Option Word} (h : s.unforwarded) (hr : exStage s = .ok r) :
    r.1.unforwarded := by
  obtain ⟨-, rfl⟩ | ⟨d, -, -, rfl⟩ | ⟨d, v, -, -, -, -, rfl⟩ | ⟨d, v, taken, target, -, -, -, -, -, rfl⟩ := exStage_ok hr
  · exact h.congr rfl rfl
  · exact h.congr rfl rfl
  · exact h.congr rfl rfl
  · exact (applyResolution_unforwarded h d.pc taken target).congr rfl rfl

/-- With forwarding off the hazard unit logs Hazard and Stall events only. -/
theorem hazardUnit_unforwarded {s : State} (h : s.unforwarded) (pc : Word) (d : Decoded) :
    (hazardUnit s pc d).state.unforwarded := by
  obtain ⟨hz1, hn1⟩ := checkOperand_noForward h.1 .rs1 d.rs1
  obtain ⟨hz2, hn2⟩ := checkOperand_noForward h.1 .rs2 d.rs2
  have hcount : ∀ hit stall, (s.countHazards hit stall).unforwarded := fun _ _ => h.congr rfl rfl
  refine (hcount _ _).logEvents (noForward_append.2 ⟨noForward_append.2 ⟨hz1, hz2⟩, ?_⟩)
  rw [hn1, hn2]
  split
  · exact noForward_stall pc
  · exact noForward_nil

theorem idStage_unforwarded {s : State} {r : State × Option Word} (h : s.unforwarded) (hr : idStage s = .ok r) :
    r.1.unforwarded := by
  obtain ⟨-, rfl⟩ | ⟨f, i, -, -, -, rfl⟩ | ⟨f, i, -, -, -, rfl⟩ := idStage_ok hr
  · exact h.congr rfl rfl
  · exact (hazardUnit_unforwarded h f.pc (decodedFields i)).congr rfl rfl
  · exact (hazardUnit_unforwarded h f.pc (decodedFields i)).congr rfl rfl

theorem ifStage_unforwarded {s t : State} {redirect stallPc : Option Word} (h : s.unforwarded)
    (ht : ifStage s redirect stallPc = .ok t) : t.unforwarded := by
  obtain ⟨i, p, rfl⟩ := ifStage_frame ht
  exact h.congr rfl rfl

/-- A cycle begins with no event; every stage it completes, and the error that may end it, keeps the log free of Forward events. -/
theorem runCycle_unforwarded {s t : State} (hf : s.fwd = false) (h : runCycle s = .next t) : t.unforwarded := by
  have hwb : (wbStage { s with events := [] }).1.unforwarded := ⟨by simpa using hf, by simp⟩
  obtain ⟨e, -, rfl⟩ | ⟨s2, hm, h⟩ := runCycle_next h
  · exact hwb.congr rfl rfl
  have hmem := memStage_unforwarded hwb hm
  obtain ⟨e, -, rfl⟩ | ⟨ex, hx, h⟩ := h
  · exact hmem.congr rfl rfl
  have hex := exStage_unforwarded hmem hx
  obtain ⟨e, -, rfl⟩ | ⟨id, hi, h⟩ := h
  · exact hex.congr rfl rfl
  have hid := idStage_unforwarded hex hi
  obtain ⟨e, -, rfl⟩ | ⟨s5, hfetch, rfl⟩ := h
  · exact hid.congr rfl rfl
  · exact (ifStage_unforwarded hid hfetch).congr rfl rfl

/-- Settles O49: no stage of a cycle logs a Forward event, and a producer of either stage is a hit, which stalls and is logged. -/
theorem noForwardWhenDisabled : Obligations.NoForwardWhenDisabled := by
  unfold Obligations.NoForwardWhenDisabled
  intro s hf
  refine ⟨fun t hs ht => ?_, fun name r hr => ?_⟩
  · exact (runCycle_unforwarded hf ((step_running hs).symm.trans ht)).2
  · rw [checkOperand_of_fwd_false hf name hr]
    refine ⟨fun p hp hw hrd => ?_, fun q hq hw hrd => ?_⟩
    · have hx : exHit s.exmem r = true := exHit_iff.2 ⟨p, hp, hw, hrd⟩
      simp [hazardEvents, hx]
    · have hm : memHit s.memwb r = true := memHit_iff.2 ⟨q, hq, hw, hrd⟩
      simp [hazardEvents, hm]

end Sys2Proof.Machine
end

section
/-! The decoder as the opcode map (spec/30_encoding.md R133 to R138): a word is an instruction's exactly if it meets the row of that
instruction's mnemonic, and the instruction is the row's with the word's fields. The round trips, the table, the fields and the immediates all
follow from this one equivalence. -/

namespace Sys2Proof.Machine

/-- The instruction of a mnemonic with the fields of a word. -/
def instrOfFields (w : Word) : Mnemonic → Instr
  | .add => .add (rdOf w) (rs1Of w) (rs2Of w)
  | .sub => .sub (rdOf w) (rs1Of w) (rs2Of w)
  | .sll => .sll (rdOf w) (rs1Of w) (rs2Of w)
  | .slt => .slt (rdOf w) (rs1Of w) (rs2Of w)
  | .xor => .xor (rdOf w) (rs1Of w) (rs2Of w)
  | .srl => .srl (rdOf w) (rs1Of w) (rs2Of w)
  | .sra => .sra (rdOf w) (rs1Of w) (rs2Of w)
  | .or => .or (rdOf w) (rs1Of w) (rs2Of w)
  | .and => .and (rdOf w) (rs1Of w) (rs2Of w)
  | .mul => .mul (rdOf w) (rs1Of w) (rs2Of w)
  | .div => .div (rdOf w) (rs1Of w) (rs2Of w)
  | .rem => .rem (rdOf w) (rs1Of w) (rs2Of w)
  | .addi => .addi (rdOf w) (rs1Of w) (immIOf w)
  | .andi => .andi (rdOf w) (rs1Of w) (immIOf w)
  | .ori => .ori (rdOf w) (rs1Of w) (immIOf w)
  | .lb => .lb (rdOf w) (rs1Of w) (immIOf w)
  | .lh => .lh (rdOf w) (rs1Of w) (immIOf w)
  | .lw => .lw (rdOf w) (rs1Of w) (immIOf w)
  | .ld => .ld (rdOf w) (rs1Of w) (immIOf w)
  | .jalr => .jalr (rdOf w) (rs1Of w) (immIOf w)
  | .sb => .sb (rs2Of w) (rs1Of w) (immSOf w)
  | .sh => .sh (rs2Of w) (rs1Of w) (immSOf w)
  | .sw => .sw (rs2Of w) (rs1Of w) (immSOf w)
  | .sd => .sd (rs2Of w) (rs1Of w) (immSOf w)
  | .beq => .beq (rs1Of w) (rs2Of w) (immBOf w)
  | .bne => .bne (rs1Of w) (rs2Of w) (immBOf w)
  | .blt => .blt (rs1Of w) (rs2Of w) (immBOf w)
  | .bge => .bge (rs1Of w) (rs2Of w) (immBOf w)
  | .lui => .lui (rdOf w) (immUOf w)
  | .auipc => .auipc (rdOf w) (immUOf w)
  | .jal => .jal (rdOf w) (immJOf w)
  | .halt => .halt

@[simp] theorem mnemonicOf_instrOfFields (w : Word) (m : Mnemonic) : mnemonicOf (instrOfFields w m) = m := by cases m <;> rfl

/-- The word meets the row of a mnemonic: its opcode and the funct fields the row fixes are the row's, and the halt word is whole (R134,
R135). -/
def matchesRow (w : Word) (m : Mnemonic) : Prop :=
  opcodeOf w = m.opcode ∧ (∀ f ∈ m.funct3, funct3Of w = f) ∧ (∀ f ∈ m.funct7, funct7Of w = f) ∧ (m = .halt → w = haltWord)

/-- An instruction is the one its mnemonic's row gives the word, and the word meets that row. -/
def isRowOf (i : Instr) (w : Word) : Prop := matchesRow w (mnemonicOf i) ∧ i = instrOfFields w (mnemonicOf i)

/-! Every branch of the decoder is one row, opcode by opcode. -/

theorem isRowOf_decodeOp {w : Word} {i : Instr} (hop : opcodeOf w = 0b0110011#7) (h : decodeOp w = some i) : isRowOf i w := by
  simp only [decodeOp] at h
  split_ifs at h <;> cases h <;> exact ⟨⟨hop, by rintro _ ⟨⟩; assumption, by rintro _ ⟨⟩; assumption, nofun⟩, rfl⟩

theorem isRowOf_decodeOpImm {w : Word} {i : Instr} (hop : opcodeOf w = 0b0010011#7) (h : decodeOpImm w = some i) : isRowOf i w := by
  simp only [decodeOpImm] at h
  split_ifs at h <;> cases h <;> exact ⟨⟨hop, by rintro _ ⟨⟩; assumption, nofun, nofun⟩, rfl⟩

theorem isRowOf_decodeLoad {w : Word} {i : Instr} (hop : opcodeOf w = 0b0000011#7) (h : decodeLoad w = some i) : isRowOf i w := by
  simp only [decodeLoad] at h
  split_ifs at h <;> cases h <;> exact ⟨⟨hop, by rintro _ ⟨⟩; assumption, nofun, nofun⟩, rfl⟩

theorem isRowOf_decodeStore {w : Word} {i : Instr} (hop : opcodeOf w = 0b0100011#7) (h : decodeStore w = some i) : isRowOf i w := by
  simp only [decodeStore] at h
  split_ifs at h <;> cases h <;> exact ⟨⟨hop, by rintro _ ⟨⟩; assumption, nofun, nofun⟩, rfl⟩

theorem isRowOf_decodeBranch {w : Word} {i : Instr} (hop : opcodeOf w = 0b1100011#7) (h : decodeBranch w = some i) : isRowOf i w := by
  simp only [decodeBranch] at h
  split_ifs at h <;> cases h <;> exact ⟨⟨hop, by rintro _ ⟨⟩; assumption, nofun, nofun⟩, rfl⟩

theorem isRowOf_decodeJalr {w : Word} {i : Instr} (hop : opcodeOf w = 0b1100111#7) (h : decodeJalr w = some i) : isRowOf i w := by
  simp only [decodeJalr] at h
  split_ifs at h
  cases h
  exact ⟨⟨hop, by rintro _ ⟨⟩; assumption, nofun, nofun⟩, rfl⟩

theorem isRowOf_of_decode {w : Word} {i : Instr} (h : decode w = some i) : isRowOf i w := by
  unfold decode at h
  split_ifs at h with h1 h2 h3 h4 h5 h6 h7 h8 h9 h10
  · exact isRowOf_decodeOp h1 h
  · exact isRowOf_decodeOpImm h2 h
  · exact isRowOf_decodeLoad h3 h
  · exact isRowOf_decodeStore h4 h
  · exact isRowOf_decodeBranch h5 h
  · exact isRowOf_decodeJalr h6 h
  · cases h
    exact ⟨⟨h7, nofun, nofun, nofun⟩, rfl⟩
  · cases h
    exact ⟨⟨h8, nofun, nofun, nofun⟩, rfl⟩
  · cases h
    exact ⟨⟨h9, nofun, nofun, nofun⟩, rfl⟩
  · cases h
    exact ⟨⟨by rw [h10]; rfl, nofun, nofun, fun _ => h10⟩, rfl⟩

/-- A word that decodes meets a row, and the row's instruction is what it decodes to. -/
theorem matchesRow_of_decode {w : Word} {i : Instr} (h : decode w = some i) : ∃ m, matchesRow w m ∧ i = instrOfFields w m :=
  ⟨_, isRowOf_of_decode h⟩

/-- A word of a row decodes to the row's instruction. -/
theorem decode_of_matchesRow {w : Word} {m : Mnemonic} (h : matchesRow w m) : decode w = some (instrOfFields w m) := by
  obtain ⟨hop, h3, h7, hw⟩ := h
  cases m <;>
    simp_all [Mnemonic.opcode, Mnemonic.funct3, Mnemonic.funct7, decode, decodeOp, decodeOpImm, decodeLoad, decodeStore, decodeBranch,
      decodeJalr, instrOfFields]

/-- The decoder gives an instruction exactly for the words of its mnemonic's row. -/
theorem decode_eq_some_iff {w : Word} {i : Instr} : decode w = some i ↔ isRowOf i w :=
  ⟨isRowOf_of_decode, fun ⟨hm, hi⟩ => (decode_of_matchesRow hm).trans (congrArg some hi.symm)⟩

/-- No word meets two rows: it decodes to one instruction. -/
theorem matchesRow_unique {w : Word} {m n : Mnemonic} (hm : matchesRow w m) (hn : matchesRow w n) : m = n := by
  have h := (decode_of_matchesRow hm).symm.trans (decode_of_matchesRow hn)
  simpa using congrArg mnemonicOf (Option.some.inj h)

/-! The round trips (R148). -/

/-- The word of an instruction holds its fields. -/
theorem encodedFields (i : Instr) : Sys2Proof.Laws.EncodedFields.Statement i := by
  cases i with
  | add | sub | sll | slt | xor | srl | sra | or | and | mul | div | rem => exact Laws.EncodedFields.ofR rfl ⟨rfl, rfl, rfl, rfl, rfl, rfl⟩
  | addi | andi | ori | lb | lh | lw | ld | jalr => exact Laws.EncodedFields.ofI rfl ⟨rfl, rfl, rfl, rfl, rfl, rfl⟩
  | sb | sh | sw | sd => exact Laws.EncodedFields.ofS rfl ⟨rfl, rfl, rfl, rfl, rfl, rfl⟩
  | beq | bne | blt | bge => exact Laws.EncodedFields.ofSB rfl ⟨rfl, rfl, rfl, rfl, rfl, rfl⟩
  | lui | auipc => exact Laws.EncodedFields.ofU rfl ⟨rfl, rfl, rfl, rfl, rfl, rfl⟩
  | jal => exact Laws.EncodedFields.ofUJ rfl ⟨rfl, rfl, rfl, rfl, rfl, rfl⟩
  | halt => exact Laws.EncodedFields.halt

/-- The word of an instruction meets the row of its mnemonic. -/
theorem matchesRow_encode (i : Instr) : matchesRow (encode i) (mnemonicOf i) := by
  obtain ⟨hop, h3, h7, -⟩ := encodedFields i
  have ofField : ∀ {α : Type} {o : Option α} {v : α}, Laws.EncodedFields.fieldIs o v → ∀ f ∈ o, v = f := by
    rintro α o v (rfl | rfl) f hf <;> simp_all
  refine ⟨hop, ofField h3, ofField h7, fun hh => ?_⟩
  cases i <;> first | rfl | cases hh

/-- The fields of a well-formed instruction's word make the instruction again. -/
theorem instrOfFields_encode {i : Instr} (h : i.wellFormed = true) : instrOfFields (encode i) (mnemonicOf i) = i := by
  cases i with
  | beq | bne | blt | bge =>
    simp only [Instr.wellFormed, branchOffsetOk, Bool.not_eq_true'] at h
    simp [mnemonicOf, instrOfFields, encode, immBOf_packSB _ _ _ _ _ h]
  | jal rd imm =>
    simp only [Instr.wellFormed, jumpOffsetOk, Bool.not_eq_true'] at h
    simp [mnemonicOf, instrOfFields, encode, immJOf_packUJ _ _ _ h]
  | halt => rfl
  | _ => simp [mnemonicOf, instrOfFields, encode]

/-- Settles O1: the word meets its mnemonic's row, and its fields are the instruction's. -/
theorem decodeOfEncodeIsIdentity : Obligations.DecodeOfEncodeIsIdentity := by
  unfold Obligations.DecodeOfEncodeIsIdentity
  exact fun i h => decode_eq_some_iff.mpr ⟨matchesRow_encode i, (instrOfFields_encode h).symm⟩

/-- What a word's fields make is well-formed: the decoder's offsets are even. -/
theorem wellFormed_instrOfFields (w : Word) (m : Mnemonic) : (instrOfFields w m).wellFormed = true := by
  cases m with
  | beq | bne | blt | bge => simp [instrOfFields, Instr.wellFormed, branchOffsetOk, immBOf_even, -BitVec.getLsbD_eq_getElem]
  | jal => simp [instrOfFields, Instr.wellFormed, jumpOffsetOk, immJOf_even, -BitVec.getLsbD_eq_getElem]
  | _ => rfl

/-- The packing of a word's own fields under a row it meets is the word. -/
theorem encode_instrOfFields {w : Word} {m : Mnemonic} (h : matchesRow w m) : encode (instrOfFields w m) = w := by
  obtain ⟨hop, h3, h7, hw⟩ := h
  cases m with
  | add | sub | sll | slt | xor | srl | sra | or | and | mul | div | rem =>
    simp only [Mnemonic.opcode, Mnemonic.funct3, Mnemonic.funct7, Option.mem_some_iff, forall_eq'] at hop h3 h7
    simpa only [instrOfFields, encode, hop, h3, h7] using packR_fields w
  | addi | andi | ori | lb | lh | lw | ld | jalr =>
    simp only [Mnemonic.opcode, Mnemonic.funct3, Option.mem_some_iff, forall_eq'] at hop h3
    simpa only [instrOfFields, encode, hop, h3] using packI_fields w
  | sb | sh | sw | sd =>
    simp only [Mnemonic.opcode, Mnemonic.funct3, Option.mem_some_iff, forall_eq'] at hop h3
    simpa only [instrOfFields, encode, hop, h3] using packS_fields w
  | beq | bne | blt | bge =>
    simp only [Mnemonic.opcode, Mnemonic.funct3, Option.mem_some_iff, forall_eq'] at hop h3
    simpa only [instrOfFields, encode, hop, h3] using packSB_fields w
  | lui | auipc =>
    simp only [Mnemonic.opcode] at hop
    simpa only [instrOfFields, encode, hop] using packU_fields w
  | jal =>
    simp only [Mnemonic.opcode] at hop
    simpa only [instrOfFields, encode, hop] using packUJ_fields w
  | halt => exact (hw rfl).symm

/-- Settles O2: a word that decodes meets a row, and the row's packing of its fields is the word. -/
theorem encodeOfDecodeIsIdentity : Obligations.EncodeOfDecodeIsIdentity := by
  unfold Obligations.EncodeOfDecodeIsIdentity
  intro w i h
  obtain ⟨m, hm, rfl⟩ := matchesRow_of_decode h
  exact ⟨wellFormed_instrOfFields w m, encode_instrOfFields hm⟩

/-! The opcode map as match and mask columns (R134). -/

/-- Bitwise and works field by field. -/
theorem packR_and (f7 g7 : BitVec 7) (rs2 q2 rs1 q1 : RegIdx) (f3 g3 : BitVec 3) (rd qd : RegIdx) (op oq : BitVec 7) :
    packR f7 rs2 rs1 f3 rd op &&& packR g7 q2 q1 g3 qd oq =
      packR (f7 &&& g7) (rs2 &&& q2) (rs1 &&& q1) (f3 &&& g3) (rd &&& qd) (op &&& oq) := by
  apply BitVec.eq_of_getLsbD_eq
  intro i hi
  simp only [BitVec.getLsbD_and, getLsbD_packR]
  split_ifs <;> rfl

/-- Two R-format packings are equal only field by field. -/
theorem packR_inj {f7 g7 : BitVec 7} {rs2 q2 rs1 q1 : RegIdx} {f3 g3 : BitVec 3} {rd qd : RegIdx} {op oq : BitVec 7} :
    packR f7 rs2 rs1 f3 rd op = packR g7 q2 q1 g3 qd oq ↔ f7 = g7 ∧ rs2 = q2 ∧ rs1 = q1 ∧ f3 = g3 ∧ rd = qd ∧ op = oq := by
  refine ⟨fun h => ?_, fun ⟨h1, h2, h3, h4, h5, h6⟩ => by rw [h1, h2, h3, h4, h5, h6]⟩
  exact ⟨by simpa using congrArg funct7Of h, by simpa using congrArg rs2Of h, by simpa using congrArg rs1Of h,
    by simpa using congrArg funct3Of h, by simpa using congrArg rdOf h, by simpa using congrArg opcodeOf h⟩

/-- The mask column: all ones in the fields a row fixes. -/
def rowMask (m : Mnemonic) : Word :=
  if m = .halt then BitVec.allOnes 32
  else packR (if m.funct7.isSome then 0x7F#7 else 0#7) 0#5 0#5 (if m.funct3.isSome then 0x7#3 else 0#3) 0#5 0x7F#7

/-- The match column: the fields a row fixes. -/
def rowValue (m : Mnemonic) : Word :=
  if m = .halt then haltWord else packR (m.funct7.getD 0#7) 0#5 0#5 (m.funct3.getD 0#3) 0#5 m.opcode

/-- The columns of the table are those of its mnemonics. -/
theorem opcodeTable_columns : ∀ r ∈ opcodeTable, r.mask = rowMask r.ins ∧ r.value = rowValue r.ins := by decide

/-- A masked field is a row's fixed value exactly if the field is it, where the row fixes one. -/
theorem and_mask_eq_iff {n : Nat} (o : Option (BitVec n)) (v : BitVec n) :
    v &&& (if o.isSome then BitVec.allOnes n else 0#n) = o.getD 0#n ↔ ∀ f ∈ o, v = f := by
  cases o <;> simp

/-- A row of the table holds a word exactly if the word meets the row's fields. -/
theorem holds_iff_matchesRow {r : OpcodeRow} (hr : r ∈ opcodeTable) (w : Word) : r.holds w = true ↔ matchesRow w r.ins := by
  obtain ⟨hmask, hvalue⟩ := opcodeTable_columns r hr
  rw [OpcodeRow.holds, beq_iff_eq, hmask, hvalue, matchesRow, rowMask, rowValue]
  by_cases hh : r.ins = .halt
  · rw [hh, if_pos rfl, if_pos rfl, BitVec.and_allOnes]
    refine ⟨?_, fun h => h.2.2.2 rfl⟩
    rintro rfl
    exact ⟨rfl, by simp [Mnemonic.funct3], by simp [Mnemonic.funct7], fun _ => rfl⟩
  · have h7 := and_mask_eq_iff r.ins.funct7 (funct7Of w)
    have h3 := and_mask_eq_iff r.ins.funct3 (funct3Of w)
    have hop : opcodeOf w &&& 0x7F#7 = opcodeOf w := BitVec.and_allOnes
    conv_lhs => rw [if_neg hh, if_neg hh, ← packR_fields w, packR_and, packR_inj]
    rw [← h7, ← h3, hop]
    simp only [BitVec.and_zero, true_and, hh, false_implies, and_true]
    tauto

/-- The table gives a mnemonic exactly to the words of its row. -/
theorem tableLookup_eq_some_iff {w : Word} {m : Mnemonic} : tableLookup w = some m ↔ matchesRow w m := by
  have hfound : ∀ r, opcodeTable.find? (fun r => r.holds w) = some r → matchesRow w r.ins := fun r hr =>
    (holds_iff_matchesRow (List.mem_of_find?_eq_some hr) w).mp (List.find?_eq_some_iff_append.mp hr).1
  have hlisted : ∃ r ∈ opcodeTable, r.ins = m := by cases m <;> decide
  rw [tableLookup, Option.map_eq_some_iff]
  refine ⟨fun ⟨r, hr, hm⟩ => hm ▸ hfound r hr, fun h => ?_⟩
  obtain ⟨q, hq, rfl⟩ := hlisted
  cases hr : opcodeTable.find? (fun r => r.holds w) with
  | some r => exact ⟨r, rfl, matchesRow_unique (hfound r hr) h⟩
  | none => exact absurd ((holds_iff_matchesRow hq w).mpr h) (by simpa using List.find?_eq_none.mp hr q hq)

/-- Settles O3: decoder and table give a word the mnemonic of the one row it meets. -/
theorem decodeFollowsOpcodeMap : Obligations.DecodeFollowsOpcodeMap := by
  unfold Obligations.DecodeFollowsOpcodeMap
  have hins : opcodeTable.Pairwise (fun r q => r.ins ≠ q.ins) := by decide
  refine ⟨fun w => Option.ext fun m => ?_, hins.imp_of_mem fun hr hq hne w ⟨h1, h2⟩ => ?_⟩
  · rw [tableLookup_eq_some_iff, Option.map_eq_some_iff]
    refine ⟨fun ⟨i, hi, hm⟩ => hm ▸ (decode_eq_some_iff.mp hi).1, fun h => ⟨_, decode_of_matchesRow h, mnemonicOf_instrOfFields w m⟩⟩
  · exact hne (matchesRow_unique ((holds_iff_matchesRow hr w).mp h1) ((holds_iff_matchesRow hq w).mp h2))

/-! The immediates of a word (R128 to R132), bit by bit. -/

theorem signExtend_immIOf (w : Word) : (immIOf w).signExtend 32 = w.sshiftRight 20 := by
  apply BitVec.eq_of_getLsbD_eq
  intro i hi
  simp only [BitVec.getLsbD_signExtend, BitVec.getLsbD_sshiftRight, BitVec.msb_eq_getLsbD_last, immIOf, BitVec.getLsbD_extractLsb']
  interval_cases i <;> simp

theorem signExtend_immSOf (w : Word) : (immSOf w).signExtend 32 = (w.sshiftRight 25 <<< 5) ||| ((w >>> 7) &&& 0x1F#32) := by
  apply BitVec.eq_of_getLsbD_eq
  intro i hi
  simp only [BitVec.getLsbD_signExtend, BitVec.getLsbD_sshiftRight, BitVec.msb_eq_getLsbD_last, getLsbD_immSOf, BitVec.getLsbD_or,
    BitVec.getLsbD_and, BitVec.getLsbD_shiftLeft, BitVec.getLsbD_ushiftRight]
  interval_cases i <;> simp

theorem signExtend_immBOf (w : Word) :
    (immBOf w).signExtend 32 =
      (w.sshiftRight 31 <<< 12) ||| (((w >>> 7) &&& 1#32) <<< 11) ||| (((w >>> 25) &&& 0x3F#32) <<< 5) |||
        (((w >>> 8) &&& 0xF#32) <<< 1) := by
  apply BitVec.eq_of_getLsbD_eq
  intro i hi
  simp only [BitVec.getLsbD_signExtend, BitVec.getLsbD_sshiftRight, BitVec.msb_eq_getLsbD_last, BitVec.getLsbD_or,
    BitVec.getLsbD_and, BitVec.getLsbD_shiftLeft, BitVec.getLsbD_ushiftRight]
  interval_cases i <;> simp [getLsbD_immBOf, -BitVec.getLsbD_eq_getElem]

theorem upperImm_immUOf (w : Word) : upperImm (immUOf w) = w &&& 0xFFFFF000#32 := by
  apply BitVec.eq_of_getLsbD_eq
  intro i hi
  simp only [upperImm, immUOf, BitVec.getLsbD_append, BitVec.getLsbD_extractLsb', BitVec.getLsbD_and]
  interval_cases i <;> simp

theorem signExtend_immJOf (w : Word) :
    (immJOf w).signExtend 32 =
      (w.sshiftRight 31 <<< 20) ||| (w &&& 0x000FF000#32) ||| (((w >>> 20) &&& 1#32) <<< 11) |||
        (((w >>> 21) &&& 0x3FF#32) <<< 1) := by
  apply BitVec.eq_of_getLsbD_eq
  intro i hi
  simp only [BitVec.getLsbD_signExtend, BitVec.getLsbD_sshiftRight, BitVec.msb_eq_getLsbD_last, BitVec.getLsbD_or,
    BitVec.getLsbD_and, BitVec.getLsbD_shiftLeft, BitVec.getLsbD_ushiftRight]
  interval_cases i <;> simp [getLsbD_immJOf, -BitVec.getLsbD_eq_getElem]

/-- The immediate of a word's instruction is the assembly of its format. -/
theorem immOf_instrOfFields (w : Word) (m : Mnemonic) :
    immOf (instrOfFields w m) = match m.format with
      | .r | .halt => none
      | .i => some ((immIOf w).signExtend 32)
      | .s => some ((immSOf w).signExtend 32)
      | .sb => some ((immBOf w).signExtend 32)
      | .u => some (upperImm (immUOf w))
      | .uj => some ((immJOf w).signExtend 32) := by
  cases m <;> rfl

/-- Settles O6: the immediate is its format's assembly, and each assembly is the stated shifts and masks of the word. -/
theorem immediatesOfTheWord : Obligations.ImmediatesOfTheWord := by
  unfold Obligations.ImmediatesOfTheWord
  intro w i h
  obtain ⟨m, -, rfl⟩ := matchesRow_of_decode h
  rw [mnemonicOf_instrOfFields, immOf_instrOfFields, ← signExtend_immIOf, ← signExtend_immSOf, ← signExtend_immBOf, ← upperImm_immUOf,
    ← signExtend_immJOf]
  cases m.format <;> simp

/-- Settles O7: an instruction of a word has the fields of its format, and the row fixes the opcode and the funct fields. -/
theorem absentFieldsAreNone : Obligations.AbsentFieldsAreNone := by
  unfold Obligations.AbsentFieldsAreNone
  intro w i h
  obtain ⟨m, ⟨hop, h3, h7, -⟩, rfl⟩ := matchesRow_of_decode h
  have hfields : decodedFields (instrOfFields w m) = { decodedFields (instrOfFields w m) with
      opcode := m.opcode, funct3 := m.funct3, funct7 := m.funct7 } := by simp [decodedFields]
  rw [hfields, mnemonicOf_instrOfFields]
  refine ⟨hop.symm, ?_⟩
  cases m <;>
    simp_all [Mnemonic.funct3, Mnemonic.funct7, Mnemonic.format, decodedFields, instrOfFields, destOf, source1Of, source2Of, immOf]

/-- Settles O5: each word meets the row of its instruction, by evaluation. -/
theorem specWordsDecode : Obligations.SpecWordsDecode := by
  unfold Obligations.SpecWordsDecode
  decide

end Sys2Proof.Machine
end

section
/-! The integer, control and halt instructions: the state each meaning answers (spec/40_alu.md, spec/42_control.md, spec/43_system.md), from
the laws of the shared operations. -/

namespace Sys2Proof.Machine

/-! Every meaning through the operation it shares (the column "rule" of spec/30_encoding.md R134). -/

@[simp] theorem exec_add (s : State) (rd rs1 rs2 : RegIdx) : exec (.add rd rs1 rs2) s = regRegOp .add rd rs1 rs2 s := rfl
@[simp] theorem exec_sub (s : State) (rd rs1 rs2 : RegIdx) : exec (.sub rd rs1 rs2) s = regRegOp .sub rd rs1 rs2 s := rfl
@[simp] theorem exec_sll (s : State) (rd rs1 rs2 : RegIdx) : exec (.sll rd rs1 rs2) s = regRegOp .sll rd rs1 rs2 s := rfl
@[simp] theorem exec_slt (s : State) (rd rs1 rs2 : RegIdx) : exec (.slt rd rs1 rs2) s = regRegOp .slt rd rs1 rs2 s := rfl
@[simp] theorem exec_xor (s : State) (rd rs1 rs2 : RegIdx) : exec (.xor rd rs1 rs2) s = regRegOp .xor rd rs1 rs2 s := rfl
@[simp] theorem exec_srl (s : State) (rd rs1 rs2 : RegIdx) : exec (.srl rd rs1 rs2) s = regRegOp .srl rd rs1 rs2 s := rfl
@[simp] theorem exec_sra (s : State) (rd rs1 rs2 : RegIdx) : exec (.sra rd rs1 rs2) s = regRegOp .sra rd rs1 rs2 s := rfl
@[simp] theorem exec_or (s : State) (rd rs1 rs2 : RegIdx) : exec (.or rd rs1 rs2) s = regRegOp .or rd rs1 rs2 s := rfl
@[simp] theorem exec_and (s : State) (rd rs1 rs2 : RegIdx) : exec (.and rd rs1 rs2) s = regRegOp .and rd rs1 rs2 s := rfl
@[simp] theorem exec_mul (s : State) (rd rs1 rs2 : RegIdx) : exec (.mul rd rs1 rs2) s = regRegOp .mul rd rs1 rs2 s := rfl
@[simp] theorem exec_div (s : State) (rd rs1 rs2 : RegIdx) : exec (.div rd rs1 rs2) s = regRegOp .div rd rs1 rs2 s := rfl
@[simp] theorem exec_rem (s : State) (rd rs1 rs2 : RegIdx) : exec (.rem rd rs1 rs2) s = regRegOp .rem rd rs1 rs2 s := rfl
@[simp] theorem exec_addi (s : State) (rd rs1 : RegIdx) (imm : BitVec 12) : exec (.addi rd rs1 imm) s = regImmOp .add rd rs1 imm s := rfl
@[simp] theorem exec_andi (s : State) (rd rs1 : RegIdx) (imm : BitVec 12) : exec (.andi rd rs1 imm) s = regImmOp .and rd rs1 imm s := rfl
@[simp] theorem exec_ori (s : State) (rd rs1 : RegIdx) (imm : BitVec 12) : exec (.ori rd rs1 imm) s = regImmOp .or rd rs1 imm s := rfl
@[simp] theorem exec_lb (s : State) (rd rs1 : RegIdx) (imm : BitVec 12) : exec (.lb rd rs1 imm) s = loadOp 1 rd rs1 imm s := rfl
@[simp] theorem exec_lh (s : State) (rd rs1 : RegIdx) (imm : BitVec 12) : exec (.lh rd rs1 imm) s = loadOp 2 rd rs1 imm s := rfl
@[simp] theorem exec_lw (s : State) (rd rs1 : RegIdx) (imm : BitVec 12) : exec (.lw rd rs1 imm) s = loadOp 4 rd rs1 imm s := rfl
@[simp] theorem exec_sb (s : State) (rs2 rs1 : RegIdx) (imm : BitVec 12) : exec (.sb rs2 rs1 imm) s = storeOp 1 rs2 rs1 imm s := rfl
@[simp] theorem exec_sh (s : State) (rs2 rs1 : RegIdx) (imm : BitVec 12) : exec (.sh rs2 rs1 imm) s = storeOp 2 rs2 rs1 imm s := rfl
@[simp] theorem exec_sw (s : State) (rs2 rs1 : RegIdx) (imm : BitVec 12) : exec (.sw rs2 rs1 imm) s = storeOp 4 rs2 rs1 imm s := rfl
@[simp] theorem exec_ld (s : State) (r rs1 : RegIdx) (imm : BitVec 12) : exec (.ld r rs1 imm) s = .next (s.afterFailure (.unsupportedWidth s.pc)) := rfl
@[simp] theorem exec_sd (s : State) (r rs1 : RegIdx) (imm : BitVec 12) : exec (.sd r rs1 imm) s = .next (s.afterFailure (.unsupportedWidth s.pc)) := rfl
@[simp] theorem exec_beq (s : State) (rs1 rs2 : RegIdx) (imm : BitVec 13) :
    exec (.beq rs1 rs2 imm) s = .next (s.afterControl s.x (decide (s.readReg rs1 = s.readReg rs2)) (s.pc + imm.signExtend 32)) := rfl
@[simp] theorem exec_bne (s : State) (rs1 rs2 : RegIdx) (imm : BitVec 13) :
    exec (.bne rs1 rs2 imm) s = .next (s.afterControl s.x (decide (s.readReg rs1 ≠ s.readReg rs2)) (s.pc + imm.signExtend 32)) := rfl
@[simp] theorem exec_blt (s : State) (rs1 rs2 : RegIdx) (imm : BitVec 13) :
    exec (.blt rs1 rs2 imm) s = .next (s.afterControl s.x (decide ((s.readReg rs1).toInt < (s.readReg rs2).toInt)) (s.pc + imm.signExtend 32)) := rfl
@[simp] theorem exec_bge (s : State) (rs1 rs2 : RegIdx) (imm : BitVec 13) :
    exec (.bge rs1 rs2 imm) s = .next (s.afterControl s.x (decide ((s.readReg rs2).toInt ≤ (s.readReg rs1).toInt)) (s.pc + imm.signExtend 32)) := rfl
@[simp] theorem exec_lui (s : State) (rd : RegIdx) (imm : BitVec 20) : exec (.lui rd imm) s = .next (s.afterAlu rd (upperImm imm)) :=
  finishAlu_eq s rd _
@[simp] theorem exec_auipc (s : State) (rd : RegIdx) (imm : BitVec 20) :
    exec (.auipc rd imm) s = .next (s.afterAlu rd (s.pc + upperImm imm)) := finishAlu_eq s rd _

/-- A taken resolution and the link. -/
theorem resolveTo_writeReg (s : State) (rd : RegIdx) (target v : Word) :
    (resolveTo s true target).writeReg rd v = s.afterControl (regsAfterWrite s.x rd v) true target := by
  rw [resolveTo_eq]
  unfold State.writeReg regsAfterWrite
  split <;> rfl

@[simp] theorem exec_jal (s : State) (rd : RegIdx) (imm : BitVec 21) :
    exec (.jal rd imm) s = .next (s.afterControl (regsAfterWrite s.x rd (s.pc + 4#32)) true (s.pc + imm.signExtend 32)) :=
  congrArg _ (resolveTo_writeReg s rd _ _)
@[simp] theorem exec_jalr (s : State) (rd rs1 : RegIdx) (imm : BitVec 12) :
    exec (.jalr rd rs1 imm) s =
      .next (s.afterControl (regsAfterWrite s.x rd (s.pc + 4#32)) true (jalrTarget (s.readReg rs1) (imm.signExtend 32))) :=
  congrArg _ (resolveTo_writeReg s rd _ _)
@[simp] theorem exec_halt (s : State) : exec .halt s = .next { s with pc := s.pc + 4#32, status := .halted } := rfl

/-! Integer instructions (spec/40_alu.md). -/

/-- Settles O13: the ALU adds. -/
theorem addAndAddiComplete : Obligations.AddAndAddiComplete := by
  unfold Obligations.AddAndAddiComplete
  intro s rd rs1 rs2 imm
  rw [exec_add, exec_addi]
  exact ⟨regRegOp_some rfl, regImmOp_some rfl⟩

/-- The ALU's product, which R212 takes of the signed readings, is the product of the words. -/
theorem alu_mul (p : DivPolicy) (a b : Word) : alu p .mul a b = some (a * b) := by
  simp only [alu, BitVec.ofInt_mul, BitVec.ofInt_toInt]

/-- Settles O14: each operation is the ALU's, and the product of words is that of their signed readings modulo 2^32. -/
theorem registerArithmeticCompletes : Obligations.RegisterArithmeticCompletes := by
  unfold Obligations.RegisterArithmeticCompletes
  intro s rd rs1 rs2
  rw [exec_sub, exec_xor, exec_or, exec_and, exec_mul]
  refine ⟨regRegOp_some rfl, regRegOp_some rfl, regRegOp_some rfl, regRegOp_some rfl, regRegOp_some (alu_mul _ _ _), ?_⟩
  rw [BitVec.toInt_mul]
  exact Int.emod_eq_zero_of_dvd Int.dvd_bmod_sub_self

/-- The five low bits are the remainder by 32. -/
theorem toNat_lowFiveBits (b : Word) : (b.extractLsb' 0 5).toNat = b.toNat % 32 := by simp

/-- Settles O15: the ALU shifts by the five low bits, and compares signed. -/
theorem shiftsAndSltComplete : Obligations.ShiftsAndSltComplete := by
  unfold Obligations.ShiftsAndSltComplete
  intro s rd rs1 rs2
  rw [← toNat_lowFiveBits, exec_sll, exec_srl, exec_sra, exec_slt]
  exact ⟨regRegOp_some rfl, regRegOp_some rfl, regRegOp_some rfl, regRegOp_some (by simp [alu, boolWord])⟩

/-- The pair of R221 with an overflowing quotient, and the zero divisor. -/
theorem divisionUndefined_iff {a b : Word} :
    divisionUndefined a b = true ↔ b = 0#32 ∨ (a = 0x80000000#32 ∧ b = 0xFFFFFFFF#32) := by
  have h : ∀ (v : Word) (c : Int), c = v.toInt → ∀ w : Word, w.toInt = c ↔ w = v := fun v c hc w => by rw [hc, BitVec.toInt_inj]
  simp only [divisionUndefined, Bool.or_eq_true, Bool.and_eq_true, decide_eq_true_eq, h 0#32 0 rfl, h 0x80000000#32 (-2 ^ 31) rfl,
    h 0xFFFFFFFF#32 (-1) rfl]

/-- Of a defined pair the quotient is the signed division and the remainder the signed remainder. -/
theorem divQ_divR_of_defined (p : DivPolicy) {a b : Word} (h : divisionUndefined a b = false) :
    divQ p a b = some (a.sdiv b) ∧ divR p a b = some (a.srem b) ∧ (a.sdiv b).toInt = a.toInt.tdiv b.toInt := by
  have hne : a ≠ BitVec.intMin 32 ∨ b ≠ -1#32 := by
    by_contra hc
    simp only [not_or, not_not] at hc
    obtain ⟨rfl, rfl⟩ := hc
    exact absurd h (by decide)
  have hq := BitVec.toInt_sdiv_of_ne_or_ne a b hne
  have hr : a.toInt - a.toInt.tdiv b.toInt * b.toInt = (a.srem b).toInt := by
    rw [BitVec.toInt_srem, Int.tmod_def, Int.mul_comm]
  rw [divQ_defined p h, divR_defined p h, hr, ← hq, BitVec.ofInt_toInt, BitVec.ofInt_toInt]
  exact ⟨rfl, rfl, rfl⟩

/-- Settles O16: quotient and remainder are the integers' truncating division, which fits the format. -/
theorem divisionCompletes : Obligations.DivisionCompletes := by
  unfold Obligations.DivisionCompletes
  intro s rd rs1 rs2 hz ho
  have hd : divisionUndefined (s.readReg rs1) (s.readReg rs2) = false := by
    simpa [divisionUndefined, hz] using fun h1 h2 => ho ⟨h1, h2⟩
  obtain ⟨hq, hr, hqi⟩ := divQ_divR_of_defined s.cfg.divPolicy hd
  refine ⟨_, _, regRegOp_some hq, regRegOp_some hr, ?_⟩
  rw [hqi, BitVec.toInt_srem]
  generalize (s.readReg rs1).toInt = a at *
  generalize (s.readReg rs2).toInt = b at *
  refine ⟨(Int.tdiv_mul_add_tmod a b).symm, ?_, fun hne => ?_, ?_⟩
  · rw [Int.natAbs_tmod]
    exact Nat.mod_lt _ (Int.natAbs_pos.mpr hz)
  · rcases lt_or_ge a 0 with ha | ha
    · have hnp : (-a).tmod b ≥ 0 := Int.tmod_nonneg b (by omega)
      rw [Int.neg_tmod] at hnp
      omega
    · have := Int.tmod_nonneg b ha
      omega
  · rw [Int.natAbs_tdiv]
    exact Nat.div_mul_le_self _ _

/-- Settles O17: the divider has no result under Fault, and the stated one under RiscV. -/
theorem undefinedDivisionFollowsPolicy : Obligations.UndefinedDivisionFollowsPolicy := by
  unfold Obligations.UndefinedDivisionFollowsPolicy
  intro s rd rs1 rs2
  rw [exec_div, exec_rem]
  refine ⟨fun hu hp => ?_, fun hz hp => ?_, fun ha hb hp => ?_⟩
  · have hd := divisionUndefined_iff.mpr hu
    exact ⟨regRegOp_none (by simp [alu, divQ, hd, hp]), regRegOp_none (by simp [alu, divR, hd, hp])⟩
  · have hd : divisionUndefined (s.readReg rs1) (s.readReg rs2) = true := divisionUndefined_iff.mpr (.inl hz)
    have hz0 : (s.readReg rs2).toInt = 0 := by rw [hz]; decide
    exact ⟨regRegOp_some (by simp [alu, divQ, hd, hp, hz0]), regRegOp_some (by simp [alu, divR, hd, hp, hz0])⟩
  · have hd : divisionUndefined (s.readReg rs1) (s.readReg rs2) = true := divisionUndefined_iff.mpr (.inr ⟨ha, hb⟩)
    have hne : (s.readReg rs2).toInt ≠ 0 := by rw [hb]; decide
    exact ⟨regRegOp_some (by simp only [alu, divQ, hd, hp, hne, if_true, if_false]),
      regRegOp_some (by simp only [alu, divR, hd, hp, hne, if_true, if_false])⟩

/-- Settles O18: the ALU's bitwise operations on the extended immediate. -/
theorem immediateLogicCompletes : Obligations.ImmediateLogicCompletes := by
  unfold Obligations.ImmediateLogicCompletes
  intro s rd rs1 imm
  rw [exec_andi, exec_ori]
  exact ⟨regImmOp_some rfl, regImmOp_some rfl⟩

/-- `{imm, 12'b0}` is the field shifted left by 12. -/
theorem upperImm_eq_shiftLeft (imm : BitVec 20) : upperImm imm = imm.setWidth 32 <<< 12 := by
  apply BitVec.eq_of_getLsbD_eq
  intro i hi
  have happend : (upperImm imm).getLsbD i = if i < 12 then (0#12).getLsbD i else imm.getLsbD (i - 12) := BitVec.getLsbD_append
  rw [happend, BitVec.getLsbD_shiftLeft, BitVec.getLsbD_setWidth]
  split
  · simp [*]
  · simp [*, show i - 12 < 32 by omega]

/-- Settles O19: both results are the shifted field's. -/
theorem upperImmediatesComplete : Obligations.UpperImmediatesComplete := by
  unfold Obligations.UpperImmediatesComplete
  intro s rd imm
  rw [← upperImm_eq_shiftLeft]
  exact ⟨exec_lui s rd imm, exec_auipc s rd imm⟩

/-! Control transfer and halt (spec/42_control.md, spec/43_system.md). -/

/-- Settles O26: a resolution leaves the registers alone, and each branch takes its comparison. -/
theorem branchesComplete : Obligations.BranchesComplete := by
  unfold Obligations.BranchesComplete
  exact fun s rs1 rs2 imm => ⟨exec_beq s rs1 rs2 imm, exec_bne s rs1 rs2 imm, exec_blt s rs1 rs2 imm, exec_bge s rs1 rs2 imm⟩

/-- Settles O27: a jump is a taken resolution and the link. -/
theorem jumpsComplete : Obligations.JumpsComplete := by
  unfold Obligations.JumpsComplete
  exact fun s rd rs1 off imm => ⟨exec_jal s rd off, exec_jalr s rd rs1 imm⟩

/-- Settles O28: the meaning of the halt word is the stated state. -/
theorem haltCompletes : Obligations.HaltCompletes := by
  unfold Obligations.HaltCompletes
  exact exec_halt

/-! What an integer or a control instruction can do. -/

/-- An integer instruction writes its destination, or div or rem raises ArithmeticUndefined. -/
theorem exec_integer_cases {i : Instr} {s t : State} (hi : isInteger i = true) (h : exec i s = .next t) :
    (∃ rd v, destOf i = some rd ∧ t = s.afterAlu rd v) ∨
    ((mnemonicOf i = .div ∨ mnemonicOf i = .rem) ∧ t = s.afterFailure (.arithmeticUndefined s.pc)) := by
  have hreg : ∀ {op rd rs1 rs2}, op ≠ .div → op ≠ .rem → regRegOp op rd rs1 rs2 s = .next t → ∃ v, t = s.afterAlu rd v := by
    intro op rd rs1 rs2 hd hr h
    obtain ⟨v, hv⟩ := alu_isSome s.cfg.divPolicy (s.readReg rs1) (s.readReg rs2) hd hr
    rw [regRegOp_some hv] at h
    exact ⟨v, (Host.Outcome.next.inj h).symm⟩
  cases i with
  | add | sub | sll | slt | xor | srl | sra | or | and | mul =>
    simp only [exec_add, exec_sub, exec_sll, exec_slt, exec_xor, exec_srl, exec_sra, exec_or, exec_and, exec_mul] at h
    obtain ⟨v, hv⟩ := hreg (by decide) (by decide) h
    exact .inl ⟨_, v, rfl, hv⟩
  | div | rem =>
    simp only [exec_div, exec_rem] at h
    obtain ⟨v, hv⟩ | hf := regRegOp_cases h
    · exact .inl ⟨_, v, rfl, hv⟩
    · exact .inr ⟨by simp [mnemonicOf], hf⟩
  | addi | andi | ori =>
    simp only [exec_addi, exec_andi, exec_ori] at h
    obtain ⟨v, hv⟩ := regImmOp_next (by decide) (by decide) h
    exact .inl ⟨_, v, rfl, hv⟩
  | lui | auipc =>
    simp only [exec_lui, exec_auipc] at h
    exact .inl ⟨_, _, rfl, (Host.Outcome.next.inj h).symm⟩
  | _ => cases hi

/-- A register other than the one written reads as before. -/
theorem State.writesAtMost.readReg_eq {s t : State} {d : Option RegIdx} (h : s.writesAtMost t d) {r : RegIdx} (hr : d ≠ some r) :
    t.readReg r = s.readReg r := by
  obtain hx | ⟨rd, v, hd, hx⟩ := h
  · exact State.readReg_congr hx r
  · have hne : r ≠ rd := fun e => hr (by rw [hd, e])
    rw [State.readReg_regsAfterWrite s t rd r v hx, if_neg (fun h => hne h.1)]

/-- Settles O30: the two states an integer instruction can answer differ from the first in the stated fields only. -/
theorem integerFrame : Obligations.IntegerFrame := by
  unfold Obligations.IntegerFrame
  intro i s t hi h
  refine ⟨fun r hr => (exec_writesAtMost_destOf h).readReg_eq hr, ?_⟩
  obtain ⟨rd, v, -, rfl⟩ | ⟨hm, rfl⟩ := exec_integer_cases hi h
  · exact ⟨fun _ => rfl, rfl, rfl, ⟨rfl, rfl, rfl, rfl, rfl, rfl, rfl, rfl, rfl, rfl, rfl, rfl⟩, rfl, rfl, rfl, .inl rfl⟩
  · exact ⟨fun _ => rfl, rfl, rfl, ⟨rfl, rfl, rfl, rfl, rfl, rfl, rfl, rfl, rfl, rfl, rfl, rfl⟩, rfl, rfl, rfl,
      .inr ⟨hm, rfl, fun _ => rfl, rfl⟩⟩

/-- A control instruction resolves, and a jump writes its link. -/
theorem exec_control_cases {i : Instr} {s t : State} (hc : (decodedFields i).isControl = true) (h : exec i s = .next t) :
    ∃ x taken target, t = s.afterControl x taken target := by
  cases i with
  | beq | bne | blt | bge => exact ⟨s.x, _, _, (Host.Outcome.next.inj h).symm⟩
  | jal | jalr =>
    simp only [exec_jal, exec_jalr] at h
    exact ⟨_, _, _, (Host.Outcome.next.inj h).symm⟩
  | _ => cases hc

/-- Settles O33: a resolution writes the predictor at the instruction's own address only. -/
theorem controlFrame : Obligations.ControlFrame := by
  unfold Obligations.ControlFrame
  intro i s t hc h
  refine ⟨fun r hr => (exec_writesAtMost_destOf h).readReg_eq hr, ?_⟩
  obtain ⟨x, taken, target, rfl⟩ := exec_control_cases hc h
  refine ⟨fun _ => rfl, ⟨rfl, rfl, rfl, rfl, rfl, rfl, rfl, rfl, rfl, rfl, rfl, rfl⟩, rfl, fun k hk => ⟨?_, ?_⟩, rfl, rfl⟩
  · exact PMap.get_set_other _ _ hk
  · simp only [State.afterControl]
    split
    · exact PMap.get_set_other _ _ hk
    · rfl

end Sys2Proof.Machine
end

section
/-! Loads and stores (spec/41_loads_stores.md, spec/20_memory.md): the first byte an access fails at, the values of completed accesses, and the
frames. -/

namespace Sys2Proof.Machine

/-! The first byte of an access with a property. -/

theorem find?_accessAddrs {a b : Word} {n : Nat} {p : Word → Bool} :
    (accessAddrs a n).find? p = some b ↔
      ∃ k < n, (∀ j < k, p (a + BitVec.ofNat 32 j) = false) ∧ p (a + BitVec.ofNat 32 k) = true ∧ b = a + BitVec.ofNat 32 k := by
  simp only [accessAddrs, List.find?_map, Option.map_eq_some_iff, List.find?_range_eq_some, Function.comp_apply, List.mem_range,
    Bool.not_eq_true']
  exact ⟨fun ⟨k, ⟨hp, hk, hj⟩, hb⟩ => ⟨k, hk, hj, hp, hb.symm⟩, fun ⟨k, hk, hj, hp, hb⟩ => ⟨k, ⟨hp, hk, hj⟩, hb.symm⟩⟩

/-- The byte a partition check finds is the first one outside (R81). -/
theorem firstOutsideData_eq_some {a b : Word} {n : Nat} :
    firstOutsideData (accessAddrs a n) = some b ↔
      ∃ k < n, accessInData a k ∧ inDataSegment (a + BitVec.ofNat 32 k) = false ∧ b = a + BitVec.ofNat 32 k := by
  simp only [firstOutsideData, find?_accessAddrs, Bool.not_eq_false', Bool.not_eq_true']
  rfl

/-- A data read fails exactly under UNWRITTEN_DATA_READ = Fault, at the first byte nothing has written (R84). -/
theorem readDataBytes_eq_error {u : UnwrittenDataRead} {m : Memory} {as : List Word} {e : Error} :
    readDataBytes u m as = .error e ↔
      u = .fault ∧ ∃ b, as.find? (fun b => (Memory.byteAt m b).isNone) = some b ∧ e = .unwrittenRead b := by
  induction as with
  | nil => simp [readDataBytes]
  | cons a as ih =>
    cases hb : Memory.byteAt m a with
    | some b =>
      have hread : readDataByte u m a = .ok b := by simp [readDataByte, hb]
      have hskip : (a :: as).find? (fun b => (Memory.byteAt m b).isNone) = as.find? (fun b => (Memory.byteAt m b).isNone) := by
        simp [hb]
      rw [hskip, ← ih, readDataBytes, hread]
      cases readDataBytes u m as <;> simp
    | none =>
      have hhere : (a :: as).find? (fun b => (Memory.byteAt m b).isNone) = some a := by simp [hb]
      rw [hhere, readDataBytes]
      cases u with
      | zero => cases hr : readDataBytes .zero m as <;> simp_all [readDataByte]
      | fault => simp [readDataByte, hb, eq_comm]

/-- The two ways a data read fails (R81, R84). -/
theorem memRead_eq_error {s : State} {a : Word} {n : Nat} {e : Error} :
    memRead s.cfg.unwrittenDataRead s.dmem a n = .error e ↔
      (∃ k < n, accessInData a k ∧ inDataSegment (a + BitVec.ofNat 32 k) = false ∧
        e = .segmentAccessViolation (a + BitVec.ofNat 32 k)) ∨
      (accessInData a n ∧ s.cfg.unwrittenDataRead = .fault ∧ ∃ k < n, s.accessWritten a k ∧
        Memory.byteAt s.dmem (a + BitVec.ofNat 32 k) = none ∧ e = .unwrittenRead (a + BitVec.ofNat 32 k)) := by
  unfold memRead
  cases hf : firstOutsideData (accessAddrs a n) with
  | some b =>
    have hout : ¬accessInData a n := fun h => by rw [firstOutsideData_eq_none.mpr h] at hf; cases hf
    obtain ⟨k, hk, hin, hkout, rfl⟩ := firstOutsideData_eq_some.mp hf
    simp only [hout, false_and, or_false, Except.error.injEq]
    refine ⟨fun h => ⟨k, hk, hin, hkout, h.symm⟩, fun ⟨j, hj, hjin, hjout, he⟩ => ?_⟩
    have hsame := firstOutsideData_eq_some.mpr ⟨j, hj, hjin, hjout, rfl⟩
    rw [hf] at hsame
    rw [he, Option.some.inj hsame]
  | none =>
    have hin : accessInData a n := firstOutsideData_eq_none.mp hf
    have hno : ¬∃ k < n, accessInData a k ∧ inDataSegment (a + BitVec.ofNat 32 k) = false ∧
        e = .segmentAccessViolation (a + BitVec.ofNat 32 k) := fun ⟨k, hk, _, hout, _⟩ => by simp [hin k hk] at hout
    simp only [readDataBytes_eq_error, hno, false_or, hin, true_and, find?_accessAddrs, State.accessWritten]
    refine and_congr_right fun hu => ?_
    constructor
    · rintro ⟨b, ⟨k, hk, hw, hn, rfl⟩, he⟩
      exact ⟨k, hk, fun _ j hj => by simpa [Option.isNone_eq_false_iff, Option.isSome_iff_ne_none] using hw j hj, by simpa using hn, he⟩
    · rintro ⟨k, hk, hw, hn, he⟩
      exact ⟨_, ⟨k, hk, fun j hj => by simpa [Option.isNone_eq_false_iff, Option.isSome_iff_ne_none] using hw hu j hj, by simpa using hn, rfl⟩,
        he⟩

/-! Loads (spec/41_loads_stores.md R251 to R254). -/

/-- The value of a word of zero-extended bytes, sign-extended again from its own width. -/
theorem extendLoaded_one (b : Byte) : extendLoaded 1 (b.setWidth 32) = b.signExtend 32 := by simp [extendLoaded]

theorem extendLoaded_two (h : BitVec 16) : extendLoaded 2 (h.setWidth 32) = h.signExtend 32 := by simp [extendLoaded]

/-- Settles O20: the access reads its bytes, and the load extends them. -/
theorem loadsComplete : Obligations.LoadsComplete := by
  unfold Obligations.LoadsComplete
  rintro s rd rs1 imm a rfl
  rw [exec_lb, exec_lh, exec_lw]
  refine ⟨fun hin hw => ?_, fun hin hw => ?_, fun hin hw => ?_⟩
  · rw [loadOp_ok (memRead_one hin hw), extendLoaded_one]
    rfl
  · rw [loadOp_ok (memRead_two hin hw), extendLoaded_two]
    rfl
  · rw [loadOp_ok (memRead_four hin hw)]
    rfl

/-- The load of n bytes among lb, lh and lw. -/
theorem exec_load_eq {s : State} {i : Instr} {rd rs1 : RegIdx} {imm : BitVec 12} {n : Nat}
    (h : (i = .lb rd rs1 imm ∧ n = 1) ∨ (i = .lh rd rs1 imm ∧ n = 2) ∨ (i = .lw rd rs1 imm ∧ n = 4)) :
    exec i s = loadOp n rd rs1 imm s := by
  obtain ⟨rfl, rfl⟩ | ⟨rfl, rfl⟩ | ⟨rfl, rfl⟩ := h <;> rfl

/-- Settles O21: a load ends in the error of its read. -/
theorem loadErrors : Obligations.LoadErrors := by
  unfold Obligations.LoadErrors
  rintro s i rd rs1 imm a n k hi rfl hk
  rw [exec_load_eq hi]
  refine ⟨fun hin hout => loadOp_error (memRead_eq_error.mpr (.inl ⟨k, hk, hin, hout, rfl⟩)), fun hin hu hw hn => ?_⟩
  exact loadOp_error (memRead_eq_error.mpr (.inr ⟨hin, hu, k, hk, hw, hn, rfl⟩))

/-- Settles O22: neither accesses memory. -/
theorem doublewordAccessesRaise : Obligations.DoublewordAccessesRaise := by
  unfold Obligations.DoublewordAccessesRaise
  exact fun s r rs1 imm => ⟨exec_ld s r rs1 imm, exec_sd s r rs1 imm⟩

/-! Stores (R255 to R258). -/

/-- Byte k of a word, by a shift. -/
theorem byteOfWord_eq (v : Word) (k : Nat) : byteOfWord v k = (v >>> (8 * k)).setWidth 8 := by
  apply BitVec.eq_of_getLsbD_eq
  intro i hi
  simp [byteOfWord, hi]

/-- The store of n bytes among sb, sh and sw. -/
theorem exec_store_eq {s : State} {i : Instr} {rs2 rs1 : RegIdx} {imm : BitVec 12} {n : Nat}
    (h : (i = .sb rs2 rs1 imm ∧ n = 1) ∨ (i = .sh rs2 rs1 imm ∧ n = 2) ∨ (i = .sw rs2 rs1 imm ∧ n = 4)) :
    exec i s = storeOp n rs2 rs1 imm s ∧ n ≤ 4 := by
  obtain ⟨rfl, rfl⟩ | ⟨rfl, rfl⟩ | ⟨rfl, rfl⟩ := h <;> exact ⟨rfl, by decide⟩

/-- Settles O23: the memory left is that of the stored bytes. -/
theorem storesComplete : Obligations.StoresComplete := by
  unfold Obligations.StoresComplete
  rintro s i rs2 rs1 imm a n hi rfl hin
  obtain ⟨he, hn⟩ := exec_store_eq (s := s) hi
  refine ⟨_, he.trans (storeOp_ok hin), fun k hk => ?_, fun b hb => storeBytes_outside _ _ _ hb, fun hwf => storeBytes_wf hwf _ _ _⟩
  rw [← byteOfWord_eq]
  exact storeBytes_inside _ _ _ (by omega) hk

/-- Settles O24: the check of the whole access comes before the first write. -/
theorem storeErrors : Obligations.StoreErrors := by
  unfold Obligations.StoreErrors
  rintro s i rs2 rs1 imm a n k hi rfl hk hin hout
  rw [(exec_store_eq hi).1]
  exact storeOp_error (firstOutsideData_eq_some.mpr ⟨k, hk, hin, hout, rfl⟩)

/-- Settles O25: each byte of the stored word stands where the load reads it, and the four make the word again. -/
theorem storedWordIsLoaded : Obligations.StoredWordIsLoaded := by
  unfold Obligations.StoredWordIsLoaded
  intro s t rd rs2 rs1 imm hin hsw
  have ht : t = s.afterStore (storeBytes s.dmem (s.readReg rs1 + imm.signExtend 32) (s.readReg rs2) 4) := by
    rw [exec_sw, storeOp_ok hin] at hsw
    exact (Host.Outcome.next.inj hsw).symm
  have hreg : t.readReg rs1 = s.readReg rs1 := by rw [ht]; rfl
  have hbyte : ∀ k < 4, Memory.byteAt t.dmem (s.readReg rs1 + imm.signExtend 32 + BitVec.ofNat 32 k) =
      some (byteOfWord (s.readReg rs2) k) := fun k hk => by
    rw [ht]
    exact storeBytes_inside _ _ _ (by decide) hk
  have hdata : ∀ k < 4, t.dataByte (s.readReg rs1 + imm.signExtend 32 + BitVec.ofNat 32 k) = byteOfWord (s.readReg rs2) k :=
    fun k hk => by rw [State.dataByte, hbyte k hk, Option.getD_some]
  rw [exec_lw]
  refine ⟨?_, fun k off hk hoff => ?_⟩
  · have hw : t.accessWritten (effectiveAddr t rs1 imm) 4 := fun _ k hk => by
      rw [effectiveAddr, hreg, hbyte k hk]
      exact Option.some_ne_none _
    rw [loadOp_ok (memRead_four (by rwa [effectiveAddr, hreg]) hw), effectiveAddr, hreg, hdata 1 (by decide), hdata 2 (by decide),
      hdata 3 (by decide), ← BitVec.add_zero (s.readReg rs1 + imm.signExtend 32), hdata 0 (by decide), wordOfBytes4_byteOfWord]
    rfl
  · have haddr : effectiveAddr t rs1 off = s.readReg rs1 + imm.signExtend 32 + BitVec.ofNat 32 k := by
      rw [effectiveAddr, hreg, hoff, BitVec.add_assoc]
    have hin1 : accessInData (effectiveAddr t rs1 off) 1 := fun j hj => by
      obtain rfl : j = 0 := by omega
      rw [haddr, BitVec.add_zero]
      exact hin k hk
    have hw1 : t.accessWritten (effectiveAddr t rs1 off) 1 := fun _ j hj => by
      obtain rfl : j = 0 := by omega
      rw [haddr, BitVec.add_zero, hbyte k hk]
      exact Option.some_ne_none _
    rw [exec_lb, loadOp_ok (memRead_one hin1 hw1), extendLoaded_one, haddr, hdata k hk, byteOfWord_eq]

/-! What a load or a store can do. -/

/-- A load writes its destination or raises. -/
theorem exec_load_cases {i : Instr} {s t : State} (hi : (mnemonicOf i).readsMemory = true) (h : exec i s = .next t) :
    (∃ rd v, destOf i = some rd ∧ t = s.afterLoad rd v) ∨ (∃ e, t = s.afterFailure e) := by
  cases i with
  | lb | lh | lw =>
    simp only [exec_lb, exec_lh, exec_lw] at h
    exact (loadOp_cases h).imp_left fun ⟨v, hv⟩ => ⟨_, v, rfl, hv⟩
  | ld => exact .inr ⟨_, (Host.Outcome.next.inj h).symm⟩
  | _ => cases hi

/-- Settles O31: the two states a load can answer differ from the first in the stated fields only. -/
theorem loadFrame : Obligations.LoadFrame := by
  unfold Obligations.LoadFrame
  intro i s t hi h
  refine ⟨fun r hr => (exec_writesAtMost_destOf h).readReg_eq hr, ?_⟩
  obtain ⟨rd, v, -, rfl⟩ | ⟨e, rfl⟩ := exec_load_cases hi h
  · exact ⟨fun _ => rfl, rfl, rfl, ⟨rfl, rfl, rfl, rfl, rfl, rfl, rfl, rfl, rfl, rfl, rfl, rfl⟩, rfl, rfl, rfl, .inl rfl⟩
  · exact ⟨fun _ => rfl, rfl, rfl, ⟨rfl, rfl, rfl, rfl, rfl, rfl, rfl, rfl, rfl, rfl, rfl, rfl⟩, rfl, rfl, rfl,
      .inr ⟨⟨e, rfl⟩, fun _ => rfl, rfl⟩⟩

/-- A store stores bytes from its target on, or raises. -/
theorem exec_store_cases {i : Instr} {s t : State} (hi : (mnemonicOf i).writesMemory = true) (h : exec i s = .next t) :
    (∃ a n v, storeTarget s i = some (a, n) ∧ t = s.afterStore (storeBytes s.dmem a v n)) ∨ (∃ e, t = s.afterFailure e) := by
  cases i with
  | sb | sh | sw =>
    simp only [exec_sb, exec_sh, exec_sw] at h
    exact (storeOp_cases h).imp_left fun ⟨_, ht⟩ => ⟨_, _, _, rfl, ht⟩
  | sd => exact .inr ⟨_, (Host.Outcome.next.inj h).symm⟩
  | _ => cases hi

/-- Settles O32: the stored bytes are those of the target, and a store that raises writes none. -/
theorem storeFrame : Obligations.StoreFrame := by
  unfold Obligations.StoreFrame
  intro i s t hi h
  obtain ⟨a, n, v, ha, rfl⟩ | ⟨e, rfl⟩ := exec_store_cases hi h
  · refine ⟨fun _ => rfl, rfl, rfl, ⟨rfl, rfl, rfl, rfl, rfl, rfl, rfl, rfl, rfl, rfl, rfl, rfl⟩, fun a' n' h' b hb => ?_, fun hn => ?_,
      rfl, rfl, rfl, .inl rfl⟩
    · rw [ha] at h'
      cases h'
      exact storeBytes_outside _ _ _ hb
    · rw [ha] at hn
      cases hn
  · exact ⟨fun _ => rfl, rfl, rfl, ⟨rfl, rfl, rfl, rfl, rfl, rfl, rfl, rfl, rfl, rfl, rfl, rfl⟩, fun _ _ _ _ _ => rfl, fun _ _ => rfl,
      rfl, rfl, rfl, .inr ⟨⟨e, rfl⟩, fun _ => rfl, rfl⟩⟩

end Sys2Proof.Machine
end

section
/-! Reset and the host's operations (spec/70_reset_and_hazards.md R460, R462; spec/60_exceptions.md R405, R410). -/

namespace Sys2Proof.Machine

/-! Reset. -/

/-- Every register reads 0 after reset. -/
theorem readReg_resetKeepingConfig (s : State) (r : RegIdx) : s.resetKeepingConfig.readReg r = 0#32 := by
  simp [State.readReg, State.resetKeepingConfig, State.reset]

/-- Settles O8: the reset state, field by field; an empty map has no entry. -/
theorem resetGivesTheResetValues : Obligations.ResetGivesTheResetValues := by
  unfold Obligations.ResetGivesTheResetValues
  intro s
  exact ⟨readReg_resetKeepingConfig s, rfl, fun _ => rfl, fun _ => rfl, rfl, rfl, rfl, rfl, fun _ => rfl, fun _ => rfl, rfl, rfl, rfl, rfl,
    rfl, rfl⟩

/-- The engine's invariant holds after reset, whatever the parameters are. -/
theorem engineInv_resetKeepingConfig (s : State) : EngineInv s.resetKeepingConfig :=
  { imemCanonical := .nil
    imemPartition := fun p h => by cases h
    dmemCanonical := .nil
    dmemPartition := fun p h => by cases h
    bhtCanonical := .nil
    btbCanonical := .nil
    predictorClosed := fun a h => by cases h
    x0Zero := rfl
    countsAddUp := rfl
    ifidCoherent := fun f h => by cases h
    idexCoherent := fun d h => by cases h
    exmemCoherent := fun e h => by cases h
    memwbCoherent := fun m h => by cases h }

/-- An empty pipeline with an empty predictor satisfies the path's invariant. -/
theorem pathInv_of_drained {s : State} (hf : s.ifid = none) (hd : s.idex = none) (hb : s.bht = []) : PathInv s :=
  { ifidWord := by simp [hf]
    idexWord := by simp [hd]
    predictorEntry := by simp [hb, PMap.get]
    fetchFollows := by simp [hf]
    sequentialPath := by simp [hd]
    operandsCurrent := by simp [hd] }

/-- Settles O9: after reset nothing is in flight and nothing is stored. -/
theorem resetSatisfiesInvariants : Obligations.ResetSatisfiesInvariants :=
  ⟨engineInv_resetKeepingConfig State.reset, pathInv_of_drained rfl rfl rfl⟩

/-- Below DATA_BASE lies the instruction partition (spec/20_memory.md R80). -/
theorem not_inDataSegment_iff {a : Word} : ¬inDataSegment a = true ↔ a.toNat < 0x10000000 := by
  rw [inDataSegment, decide_eq_true_eq, not_le]
  rfl

/-! The instruction block of a load. -/

/-- An entry that passes both checks is stored. -/
theorem loadImage_cons {p : Word × Word} (h : loadableEntry p) (m : Memory) (rest : List (Word × Word)) :
    loadImage m (p :: rest) = loadImage (storeInstrWord m p.1 p.2) rest := by
  simp [loadImage, h.1, h.2]

/-- After good entries the rest of a block is loaded onto what they left. -/
theorem loadImage_append {good : List (Word × Word)} (h : ∀ p ∈ good, loadableEntry p) (m : Memory) (rest : List (Word × Word)) :
    loadImage m (good ++ rest) = loadImage (loadImage m good).1 rest := by
  induction good generalizing m with
  | nil => rfl
  | cons p good ih =>
    rw [List.forall_mem_cons] at h
    rw [List.cons_append, loadImage_cons h.1, loadImage_cons h.1, ih h.2]

/-- Good entries raise nothing. -/
theorem loadImage_good {good : List (Word × Word)} (h : ∀ p ∈ good, loadableEntry p) (m : Memory) :
    loadImage m good = ((loadImage m good).1, none) := by
  induction good generalizing m with
  | nil => rfl
  | cons p good ih =>
    rw [List.forall_mem_cons] at h
    rw [loadImage_cons h.1]
    exact ih h.2 _

/-- The last of good entries is stored onto what the others left. -/
theorem loadImage_concat {good : List (Word × Word)} {p : Word × Word} (h : ∀ q ∈ good ++ [p], loadableEntry q) (m : Memory) :
    (loadImage m (good ++ [p])).1 = storeInstrWord (loadImage m good).1 p.1 p.2 := by
  rw [loadImage_append (fun q hq => h q (List.mem_append_left _ hq)), loadImage_cons (h p (by simp))]
  rfl

/-- The low two bits are the remainder by 4. -/
theorem aligned_iff {a : Word} : a.extractLsb' 0 2 = 0#2 ↔ a.toNat % 4 = 0 := by
  rw [← BitVec.toNat_inj]
  simp

/-- Bytes of different aligned words are different. -/
theorem byte_ne_of_aligned {a b : Word} (ha : a.extractLsb' 0 2 = 0#2) (hb : b.extractLsb' 0 2 = 0#2) (h : b ≠ a) {j k : Nat} (hj : j < 4)
    (hk : k < 4) : b + BitVec.ofNat 32 j ≠ a + BitVec.ofNat 32 k := by
  rw [aligned_iff] at ha hb
  intro e
  have hne : b.toNat ≠ a.toNat := fun e => h (BitVec.eq_of_toNat_eq e)
  have hn := congrArg BitVec.toNat e
  simp only [BitVec.toNat_add, BitVec.toNat_ofNat] at hn
  omega

/-- A fetch depends on the four bytes at its address only. -/
theorem iMemReadWord_congr {m m' : Memory} {a : Word}
    (h : a.extractLsb' 0 2 = 0#2 → ∀ k < 4, Memory.byteAt m' (a + BitVec.ofNat 32 k) = Memory.byteAt m (a + BitVec.ofNat 32 k)) :
    iMemReadWord m' a = iMemReadWord m a := by
  unfold iMemReadWord
  by_cases h4 : a.extractLsb' 0 2 = 0#2
  · have h0 := h h4 0 (by decide)
    rw [BitVec.add_zero] at h0
    rw [h0, h h4 1 (by decide), h h4 2 (by decide), h h4 3 (by decide)]
  · rw [if_pos h4, if_pos h4]

/-- A stored word leaves what is fetched at every other address. -/
theorem iMemReadWord_storeInstrWord_other (m : Memory) {a b : Word} (w : Word) (ha : a.extractLsb' 0 2 = 0#2) (h : b ≠ a) :
    iMemReadWord (storeInstrWord m a w) b = iMemReadWord m b :=
  iMemReadWord_congr fun hb _ hj => storeBytes_outside m a w fun _ hk => byte_ne_of_aligned ha hb h hj hk

/-- The last of a list of entries decides at its address. -/
theorem lastWordAt_concat (image : List (Word × Word)) (p : Word × Word) (a : Word) :
    lastWordAt (image ++ [p]) a = if p.1 = a then some p.2 else lastWordAt image a := by
  by_cases h : p.1 = a <;> simp [lastWordAt, h]

/-- After good entries the word fetched at an address is the last one loaded there. -/
theorem iMemReadWord_loadImage {image : List (Word × Word)} (h : ∀ p ∈ image, loadableEntry p) (m : Memory) (a : Word) :
    iMemReadWord (loadImage m image).1 a =
      match lastWordAt image a with
      | some w => .ok (some w)
      | none => iMemReadWord m a := by
  induction image using List.reverseRecOn with
  | nil => rfl
  | append_singleton image p ih =>
    have hp : loadableEntry p := h p (by simp)
    rw [loadImage_concat h, lastWordAt_concat]
    by_cases ha : p.1 = a
    · subst ha
      rw [if_pos rfl, iMemReadWord_storeInstrWord _ _ _ hp.1 hp.2]
    · rw [if_neg ha, iMemReadWord_storeInstrWord_other _ _ hp.2 (Ne.symm ha)]
      exact ih fun q hq => h q (List.mem_append_left _ hq)

/-- A byte outside every entry's word stays. -/
theorem byteAt_loadImage_other {image : List (Word × Word)} (h : ∀ p ∈ image, loadableEntry p) (m : Memory) {a : Word}
    (ha : ∀ p ∈ image, ∀ k < 4, a ≠ p.1 + BitVec.ofNat 32 k) : Memory.byteAt (loadImage m image).1 a = Memory.byteAt m a := by
  induction image generalizing m with
  | nil => rfl
  | cons p image ih =>
    rw [List.forall_mem_cons] at h ha
    rw [loadImage_cons h.1, ih h.2 _ ha.2]
    exact storeBytes_outside m p.1 p.2 ha.1

/-! The data block of a load. -/

/-- An entry of the data partition is stored. -/
theorem loadData_cons {p : Word × Byte} (h : inDataSegment p.1 = true) (m : Memory) (rest : List (Word × Byte)) :
    loadData m (p :: rest) = loadData (PMap.set m p.1.toNat p.2) rest := by
  simp [loadData, h]

/-- After good entries the rest of a block is loaded onto what they left. -/
theorem loadData_append {good : List (Word × Byte)} (h : ∀ p ∈ good, inDataSegment p.1 = true) (m : Memory) (rest : List (Word × Byte)) :
    loadData m (good ++ rest) = loadData (loadData m good).1 rest := by
  induction good generalizing m with
  | nil => rfl
  | cons p good ih =>
    rw [List.forall_mem_cons] at h
    rw [List.cons_append, loadData_cons h.1, loadData_cons h.1, ih h.2]

/-- Good entries raise nothing. -/
theorem loadData_good {good : List (Word × Byte)} (h : ∀ p ∈ good, inDataSegment p.1 = true) (m : Memory) :
    loadData m good = ((loadData m good).1, none) := by
  induction good generalizing m with
  | nil => rfl
  | cons p good ih =>
    rw [List.forall_mem_cons] at h
    rw [loadData_cons h.1]
    exact ih h.2 _

/-- After good entries the byte at an address is the last one loaded there. -/
theorem byteAt_loadData {data : List (Word × Byte)} (h : ∀ p ∈ data, inDataSegment p.1 = true) (m : Memory) (a : Word) :
    Memory.byteAt (loadData m data).1 a =
      match data.reverse.find? fun p => p.1 == a with
      | some p => some p.2
      | none => Memory.byteAt m a := by
  induction data using List.reverseRecOn with
  | nil => rfl
  | append_singleton data p ih =>
    rw [loadData_append (fun q hq => h q (List.mem_append_left _ hq)), loadData_cons (h p (by simp))]
    simp only [loadData, Memory.byteAt, List.reverse_append, List.reverse_singleton, List.singleton_append, List.find?_cons]
    by_cases ha : p.1 = a
    · simp [ha]
    · rw [PMap.get_set_other _ _ (fun e => ha (BitVec.eq_of_toNat_eq e.symm)), beq_false_of_ne ha]
      exact ih fun q hq => h q (List.mem_append_left _ hq)

/-! The whole load. -/

/-- What a fill leaves, by the outcome of the instruction block. -/
theorem fillMemories_of_good {s : State} {image : List (Word × Word)} (h : ∀ p ∈ image, loadableEntry p) (data : List (Word × Byte)) :
    s.fillMemories image data =
      ({ s with imem := (loadImage s.imem image).1, dmem := (loadData s.dmem data).1 }, (loadData s.dmem data).2) := by
  rw [State.fillMemories, loadImage_good h]

/-- An engine that has not faulted takes a load. -/
theorem load_of_not_hasFaulted {s : State} (h : ¬s.hasFaulted) (image : List (Word × Word)) (data : List (Word × Byte)) :
    s.load image data = s.fillMemories image data := load_eq_fillMemories (takesHostWrites_iff.mpr h) image data

/-- Settles O10: each block stores its entries in order, so that the last one at an address stands there. -/
theorem loadFillsTheMemories : Obligations.LoadFillsTheMemories := by
  unfold Obligations.LoadFillsTheMemories
  intro s image data hs hi hd
  refine ⟨(loadImage s.imem image).1, (loadData s.dmem data).1, ?_, fun a w hw => ?_, fun a ha => byteAt_loadImage_other hi _ ha,
    fun a b hb => ?_, fun a ha => ?_⟩
  · rw [load_of_not_hasFaulted hs, fillMemories_of_good hi, loadData_good hd]
  · rw [iMemReadWord_loadImage hi, hw]
  · rw [byteAt_loadData hd, hb]
  · rw [byteAt_loadData hd, List.find?_eq_none.mpr (by simpa using fun x b hx => ha (x, b) hx)]

/-- Settles O11: the entries before the bad one are loaded, and the block ends there. -/
theorem loadStopsAtTheFirstBadEntry : Obligations.LoadStopsAtTheFirstBadEntry := by
  unfold Obligations.LoadStopsAtTheFirstBadEntry
  intro s good rest data a w hs hg
  simp only [load_of_not_hasFaulted hs]
  have hbad : ∀ e, loadImage (loadImage s.imem good).1 ((a, w) :: rest) = ((loadImage s.imem good).1, some e) →
      s.fillMemories (good ++ (a, w) :: rest) data = ((s.fillMemories good []).1, some e) := fun e he => by
    rw [State.fillMemories, loadImage_append hg, he, fillMemories_of_good hg]
    rfl
  refine ⟨fun ha => hbad _ (by simp [loadImage, ha]), fun ha h4 => hbad _ (by simp [loadImage, ha, h4]), fun goodData restData d b hd hout => ?_⟩
  have hstop : loadData (loadData s.dmem goodData).1 ((d, b) :: restData) = ((loadData s.dmem goodData).1, some (.segmentAccessViolation d)) := by
    simp [loadData, hout]
  rw [fillMemories_of_good hg, fillMemories_of_good hg, loadData_append hd, hstop]

/-! The engine's invariant under the host's operations. -/

/-- A loaded instruction block stays below DATA_BASE: a word of an aligned address below it does. -/
theorem loadImage_partition (image : List (Word × Word)) {m : Memory} (hm : ∀ p ∈ m, p.1 < dataBase) :
    ∀ p ∈ (loadImage m image).1, p.1 < dataBase := by
  induction image generalizing m with
  | nil => exact hm
  | cons q rest ih =>
    simp only [loadImage]
    split
    · exact hm
    · split
      · exact hm
      · rename_i hseg h4
        refine ih fun p hp => ?_
        obtain hp | ⟨k, hk, he⟩ := mem_storeBytes hp
        · exact hm p hp
        · have h4' := aligned_iff.mp (not_not.mp h4)
          have hlow := not_inDataSegment_iff.mp hseg
          simp only [he, BitVec.toNat_add, BitVec.toNat_ofNat, dataBase]
          omega

/-- A loaded data block stays at or above DATA_BASE. -/
theorem loadData_partition (data : List (Word × Byte)) {m : Memory} (hm : ∀ p ∈ m, dataBase ≤ p.1 ∧ p.1 < 2 ^ 32) :
    ∀ p ∈ (loadData m data).1, dataBase ≤ p.1 ∧ p.1 < 2 ^ 32 := by
  induction data generalizing m with
  | nil => exact hm
  | cons q rest ih =>
    simp only [loadData]
    split
    · rename_i hseg
      refine ih fun p hp => ?_
      obtain hp | rfl := PMap.mem_set hp
      · exact hm p hp
      · exact ⟨by simpa [inDataSegment] using hseg, q.1.isLt⟩
    · exact hm

/-- The invariant says of the memories that they are canonical and keep to their partitions. -/
theorem EngineInv.with_memories {s : State} (h : EngineInv s) {im dm : Memory} (hi : Memory.wf im) (hip : ∀ p ∈ im, p.1 < dataBase)
    (hd : Memory.wf dm) (hdp : ∀ p ∈ dm, dataBase ≤ p.1 ∧ p.1 < 2 ^ 32) : EngineInv { s with imem := im, dmem := dm } :=
  ⟨hi, hip, hd, hdp, h.bhtCanonical, h.btbCanonical, h.predictorClosed, h.x0Zero, h.countsAddUp, h.ifidCoherent, h.idexCoherent,
    h.exmemCoherent, h.memwbCoherent⟩

theorem EngineInv.fillMemories {s : State} (h : EngineInv s) (image : List (Word × Word)) (data : List (Word × Byte)) :
    EngineInv (s.fillMemories image data).1 := by
  have hi := loadImage_wf image h.imemCanonical
  have hip := loadImage_partition image h.imemPartition
  unfold State.fillMemories
  split
  · rename_i im e he
    rw [he] at hi hip
    exact h.with_memories hi hip h.dmemCanonical h.dmemPartition
  · rename_i im he
    rw [he] at hi hip
    exact h.with_memories hi hip (loadData_wf data h.dmemCanonical) (loadData_partition data h.dmemPartition)

theorem EngineInv.load {s : State} (h : EngineInv s) (image : List (Word × Word)) (data : List (Word × Byte)) :
    EngineInv (s.load image data).1 := by
  unfold State.load
  split
  · exact h.fillMemories image data
  · exact h

/-- The invariant does not speak of the forwarding switch. -/
theorem EngineInv.setForwarding {s : State} (h : EngineInv s) (b : Bool) : EngineInv (s.setForwarding b) := by
  unfold State.setForwarding
  split
  · exact ⟨h.imemCanonical, h.imemPartition, h.dmemCanonical, h.dmemPartition, h.bhtCanonical, h.btbCanonical, h.predictorClosed, h.x0Zero,
      h.countsAddUp, h.ifidCoherent, h.idexCoherent, h.exmemCoherent, h.memwbCoherent⟩
  · exact h

/-- Settles O12: a textual load is a load for the state, and a faulted engine takes no write. -/
theorem hostOperationsKeepEngineInv : Obligations.HostOperationsKeepEngineInv := by
  unfold Obligations.HostOperationsKeepEngineInv
  refine ⟨fun s h => ⟨engineInv_resetKeepingConfig s, h.setForwarding, h.load, fun image data => ?_⟩, fun s hs => ?_⟩
  · obtain ⟨ws, bs, he⟩ := loadText_state s image data
    rw [he]
    exact h.load ws bs
  · have hw : s.takesHostWrites = false := Bool.not_eq_true _ ▸ fun ht => takesHostWrites_iff.mp ht hs
    simp [State.setForwarding, State.load, State.loadText, hw]

end Sys2Proof.Machine
end

section
/-! The encoder of statements (spec/30_encoding.md R140 to R149): what a completed encode answers, and the ranges of its immediates. -/

namespace Sys2Proof.Machine

/-- A completed bind has a completed first part. -/
theorem exceptBind_eq_ok {ε α β : Type} {x : Except ε α} {f : α → Except ε β} {b : β} :
    x >>= f = .ok b ↔ ∃ a, x = .ok a ∧ f a = .ok b := by
  cases x <;> simp [bind, Except.bind]

/-- The value of a found name stands in the list with it. -/
theorem mem_of_findNamed {β : Type} {t : List (Text × β)} {n : Text} {v : β} (h : findNamed t n = some v) : (n, v) ∈ t := by
  induction t with
  | nil => cases h
  | cons p t ih =>
    simp only [findNamed] at h
    split at h
    · rename_i he
      cases h
      exact List.mem_cons.mpr (.inl (by rw [← he]))
    · exact List.mem_cons_of_mem _ (ih h)

/-- HALT is no mnemonic of a source (R164). -/
theorem parseMnemonic_ne_halt {t : Text} {m : Mnemonic} (h : parseMnemonic t = some m) : m ≠ .halt := by
  have hall : ∀ p ∈ mnemonicNames, p.2 ≠ .halt := by decide
  exact hall _ (mem_of_findNamed h)

/-- A found instruction stands in the list with its mnemonic. -/
theorem mem_of_findInstr {m : Mnemonic} {t : List (Mnemonic × Instr)} {i : Instr} (h : instrR.findInstr m t = some i) : (m, i) ∈ t := by
  induction t with
  | nil => cases h
  | cons p t ih =>
    simp only [instrR.findInstr] at h
    split at h
    · rename_i he
      cases h
      exact List.mem_cons.mpr (.inl (by rw [← he]))
    · exact List.mem_cons_of_mem _ (ih h)

/-! Each builder makes an instruction of the mnemonic it is given. -/

theorem mnemonicOf_instrR {m : Mnemonic} {rd rs1 rs2 : RegIdx} {i : Instr} (h : instrR m rd rs1 rs2 = some i) : mnemonicOf i = m := by
  have hall : ∀ p ∈ [(Mnemonic.add, Instr.add rd rs1 rs2), (.sub, .sub rd rs1 rs2), (.sll, .sll rd rs1 rs2), (.slt, .slt rd rs1 rs2),
      (.xor, .xor rd rs1 rs2), (.srl, .srl rd rs1 rs2), (.sra, .sra rd rs1 rs2), (.or, .or rd rs1 rs2), (.and, .and rd rs1 rs2),
      (.mul, .mul rd rs1 rs2), (.div, .div rd rs1 rs2), (.rem, .rem rd rs1 rs2)], mnemonicOf p.2 = p.1 := by simp [mnemonicOf]
  exact hall _ (mem_of_findInstr h)

theorem mnemonicOf_instrI {m : Mnemonic} {rd rs1 : RegIdx} {imm : BitVec 12} {i : Instr} (h : instrI m rd rs1 imm = some i) :
    mnemonicOf i = m := by
  unfold instrI at h
  split_ifs at h <;> cases h <;> exact Eq.symm ‹_›

theorem mnemonicOf_instrS {m : Mnemonic} {rs2 rs1 : RegIdx} {imm : BitVec 12} {i : Instr} (h : instrS m rs2 rs1 imm = some i) :
    mnemonicOf i = m := by
  unfold instrS at h
  split_ifs at h <;> cases h <;> exact Eq.symm ‹_›

theorem mnemonicOf_instrSB {m : Mnemonic} {rs1 rs2 : RegIdx} {imm : BitVec 13} {i : Instr} (h : instrSB m rs1 rs2 imm = some i) :
    mnemonicOf i = m := by
  unfold instrSB at h
  split_ifs at h <;> cases h <;> exact Eq.symm ‹_›

theorem mnemonicOf_instrU {m : Mnemonic} {rd : RegIdx} {imm : BitVec 20} {i : Instr} (h : instrU m rd imm = some i) :
    mnemonicOf i = m := by
  unfold instrU at h
  split_ifs at h <;> cases h <;> exact Eq.symm ‹_›

/-- A completed encode holds its instruction's word. -/
theorem finishEncode_ok {name : Text} {i : Option Instr} {imm : Option Int} {e : Encoded} (h : finishEncode name i imm = .ok e) :
    i = some e.instr ∧ e.word = encode e.instr ∧ e.trace.imm = imm := by
  cases i with
  | none => cases h
  | some i =>
    cases h
    exact ⟨rfl, rfl, rfl⟩

/-- The operands of `jal` are the only ones sorted as a jump's. -/
theorem operandShape_jump {m : Mnemonic} {ops : List Text} {a l : Text} (h : operandShape m ops = some (.jump a l)) : m = .jal := by
  unfold operandShape at h
  split at h <;> simp_all [loadShape]

/-- What a completed encode answers is the word of an instruction of the mnemonic. -/
theorem encodeShape_ok {pc : Nat} {name : Text} {m : Mnemonic} {sym : SymTab} {sh : OperandShape} {e : Encoded}
    (hj : ∀ a l, sh = .jump a l → m = .jal) (h : encodeShape pc name m sym sh = .ok e) :
    e.word = encode e.instr ∧ mnemonicOf e.instr = m := by
  cases sh with
  | regs3 a b c =>
    simp only [encodeShape, exceptBind_eq_ok] at h
    obtain ⟨rd, -, rs1, -, rs2, -, hf⟩ := h
    obtain ⟨hi, hw, -⟩ := finishEncode_ok hf
    exact ⟨hw, mnemonicOf_instrR hi⟩
  | regImm a b c =>
    simp only [encodeShape, exceptBind_eq_ok] at h
    obtain ⟨rd, -, rs1, -, v, -, hf⟩ := h
    obtain ⟨hi, hw, -⟩ := finishEncode_ok hf
    exact ⟨hw, mnemonicOf_instrI hi⟩
  | store a b c =>
    simp only [encodeShape, exceptBind_eq_ok] at h
    obtain ⟨rs2, -, rs1, -, v, -, hf⟩ := h
    obtain ⟨hi, hw, -⟩ := finishEncode_ok hf
    exact ⟨hw, mnemonicOf_instrS hi⟩
  | branch a b l =>
    simp only [encodeShape, exceptBind_eq_ok] at h
    obtain ⟨rs1, -, rs2, -, off, -, hf⟩ := h
    obtain ⟨hi, hw, -⟩ := finishEncode_ok hf
    exact ⟨hw, mnemonicOf_instrSB hi⟩
  | upper a c =>
    simp only [encodeShape, exceptBind_eq_ok] at h
    obtain ⟨rd, -, v, -, hf⟩ := h
    obtain ⟨hi, hw, -⟩ := finishEncode_ok hf
    exact ⟨hw, mnemonicOf_instrU hi⟩
  | jump a l =>
    simp only [encodeShape, exceptBind_eq_ok] at h
    obtain ⟨rd, -, off, -, hf⟩ := h
    obtain ⟨hi, hw, -⟩ := finishEncode_ok hf
    exact ⟨hw, by rw [hj a l rfl, ← Option.some.inj hi]; rfl⟩

/-- A completed encode of a statement, whose mnemonic is named. -/
theorem encodeStatement_ok {pc : Nat} {name : Text} {ops : List Text} {sym : SymTab} {e : Encoded}
    (h : encodeStatement pc name ops sym = .ok e) : e.word = encode e.instr ∧ parseMnemonic name = some (mnemonicOf e.instr) := by
  unfold encodeStatement at h
  cases hm : parseMnemonic name with
  | none => simp [hm] at h
  | some m =>
    simp only [hm] at h
    cases hs : operandShape m ops with
    | none => simp [hs] at h
    | some sh =>
      simp only [hs] at h
      obtain ⟨hw, hi⟩ := encodeShape_ok (fun a l hl => operandShape_jump (hl ▸ hs)) h
      exact ⟨hw, by rw [hi]⟩

/-- Only the halt word's opcode is 1110011. -/
theorem eq_halt_of_opcode {m : Mnemonic} (h : m.opcode = 0b1110011#7) : m = .halt := by
  revert h
  cases m <;> decide

/-- Only the halt instruction is encoded as the halt word. -/
theorem encode_ne_haltWord {i : Instr} (h : mnemonicOf i ≠ .halt) : encode i ≠ haltWord := by
  intro he
  refine h (eq_halt_of_opcode ?_)
  rw [← (encodedFields i).1, he]
  rfl

/-- A statement is never encoded as the halt word. -/
theorem encodeStatement_ne_haltWord {pc : Nat} {name : Text} {ops : List Text} {sym : SymTab} {e : Encoded}
    (h : encodeStatement pc name ops sym = .ok e) : e.word ≠ haltWord := by
  obtain ⟨hw, hm⟩ := encodeStatement_ok h
  rw [hw]
  exact encode_ne_haltWord (parseMnemonic_ne_halt hm)

/-- Settles O54: the encoder ends in `encode`, whose words decode. -/
theorem encodedStatementDecodes : Obligations.EncodedStatementDecodes := by
  unfold Obligations.EncodedStatementDecodes
  intro pc name ops sym e h
  obtain ⟨hw, hm⟩ := encodeStatement_ok h
  exact ⟨hw, encodeStatement_ne_haltWord h, hm, fun hwf => hw ▸ decodeOfEncodeIsIdentity e.instr hwf⟩

/-! Ranges (R144 to R147). -/

/-- A value inside a signed format comes back when the format is extended. -/
theorem signExtend_ofInt {n : Nat} {v : Int} (hlo : -2 ^ n ≤ v) (hhi : v < 2 ^ n) :
    (BitVec.ofInt (n + 1) v).signExtend 32 = BitVec.ofInt 32 v := by
  rw [BitVec.signExtend, BitVec.toInt_ofInt, Int.bmod_eq_of_le] <;> push_cast <;> rw [pow_succ] <;> omega

/-- The branch mnemonics share the shape of their operands and the builder. -/
theorem encodeStatement_branch {name : Text} (hn : name ∈ [['b','e','q'], ['b','n','e'], ['b','l','t'], ['b','g','e']]) (pc : Nat)
    (a b l : Text) (sym : SymTab) :
    ∃ build : RegIdx → RegIdx → BitVec 13 → Instr, (∀ r q v, immOf (build r q v) = some (v.signExtend 32)) ∧
      encodeStatement pc name [a, b, l] sym = (do
        let rs1 ← orStop (parseRegister a)
        let rs2 ← orStop (parseRegister b)
        let off ← orStop (labelOffset (-4096) 4095 pc sym l)
        finishEncode name (some (build rs1 rs2 (BitVec.ofInt 13 off))) (some off)) := by
  simp only [List.mem_cons, List.not_mem_nil, or_false] at hn
  obtain rfl | rfl | rfl | rfl := hn
  · exact ⟨.beq, fun _ _ _ => rfl, rfl⟩
  · exact ⟨.bne, fun _ _ _ => rfl, rfl⟩
  · exact ⟨.blt, fun _ _ _ => rfl, rfl⟩
  · exact ⟨.bge, fun _ _ _ => rfl, rfl⟩

/-- Settles O55: the checks are the stated ranges, and a checked offset survives its format. -/
theorem immediateRanges : Obligations.ImmediateRanges := by
  unfold Obligations.ImmediateRanges
  refine ⟨fun t l hl => ?_, fun pc name a b l sym target ra rb off hn hs ha hb hoff => ?_, fun pc a l sym target rd off hs ha hoff => ?_⟩
  · rw [parseImm12, parseImm20, hl]
    exact ⟨rfl, rfl⟩
  · obtain ⟨build, himm, he⟩ := encodeStatement_branch hn pc a b l sym
    rw [he, ha, hb, labelOffset, hs]
    simp only [← hoff, checkRange]
    refine ⟨fun hr => ?_, fun hr => ?_⟩
    · rw [if_pos hr]
      exact ⟨_, rfl, rfl, (himm _ _ _).trans (congrArg some (signExtend_ofInt (n := 12) (by omega) (by omega)))⟩
    · rw [if_neg hr]
      rfl
  · have he : encodeStatement pc ['j','a','l'] [a, l] sym = (do
        let rd ← orStop (parseRegister a)
        let off ← orStop (labelOffset (-1048576) 1048575 pc sym l)
        finishEncode ['j','a','l'] (some (.jal rd (BitVec.ofInt 21 off))) (some off)) := rfl
    rw [he, ha, labelOffset, hs]
    simp only [← hoff, checkRange]
    refine ⟨fun hr => ?_, fun hr => ?_⟩
    · rw [if_pos hr]
      exact ⟨_, rfl, rfl, congrArg some (signExtend_ofInt (n := 20) (by omega) (by omega))⟩
    · rw [if_neg hr]
      rfl

end Sys2Proof.Machine
end

section
/-! The two passes of the assembler (spec/30_encoding.md R153 to R163): the symbol table is that of the labels in order, and the images are
the statements' words and the data bytes in order. -/

namespace Sys2Proof.Machine

/-! The scan pass (R153 to R155). -/

/-- The labels of the lines, in order. -/
def labelsOf (ls : List SourceLine) : List Text := ls.filterMap (·.label)

/-- The labels of a symbol table, in order. -/
def SymTab.labels (t : SymTab) : List Text := t.map (·.1)

theorem SymTab.find_eq_none_iff {t : SymTab} {l : Text} : t.find l = none ↔ l ∉ t.labels := by
  induction t with
  | nil => simp [SymTab.find, SymTab.labels]
  | cons p t ih =>
    by_cases h : p.1 = l
    · simp [SymTab.find, SymTab.labels, h]
    · simpa [SymTab.find, SymTab.labels, h, Ne.symm h] using ih

@[simp] theorem scanStmt_sym (st : ScanState) (stmt : Stmt) : (scanStmt st stmt).sym = st.sym := by
  cases stmt with
  | op name ops =>
    simp only [scanStmt]
    split <;> rfl
  | _ => rfl

/-- A line without a label, or with a new one, passes the scan and its label is appended. -/
theorem scanLabel_new {st : ScanState} {label : Option Text} (h : ∀ l ∈ label, l ∉ st.sym.labels) :
    ∃ st', scanLabel st label = .ok st' ∧ st'.sym.labels = st.sym.labels ++ label.toList := by
  cases label with
  | none => exact ⟨st, rfl, by simp⟩
  | some l =>
    refine ⟨_, by rw [scanLabel, SymTab.find_eq_none_iff.mpr (h l rfl)], by simp [SymTab.labels]⟩

/-- A label that is there already ends the scan (R155). -/
theorem scanLabel_old {st : ScanState} {l : Text} (h : l ∈ st.sym.labels) :
    scanLabel st (some l) = .error (.error (.duplicateLabel l)) := by
  rw [scanLabel]
  cases hf : st.sym.find l with
  | some a => rfl
  | none => exact absurd h (SymTab.find_eq_none_iff.mp hf)

theorem labelsOf_cons (line : SourceLine) (ls : List SourceLine) : labelsOf (line :: ls) = line.label.toList ++ labelsOf ls := by
  cases h : line.label <;> simp [labelsOf, h]

/-- Lines with new and different labels pass the scan, whatever follows them, and their labels are appended. -/
theorem scanLines_append {st : ScanState} {ls : List SourceLine} (h : (st.sym.labels ++ labelsOf ls).Nodup) :
    ∃ st', st'.sym.labels = st.sym.labels ++ labelsOf ls ∧ ∀ rest, scanLines st (ls ++ rest) = scanLines st' rest := by
  induction ls generalizing st with
  | nil => exact ⟨st, by simp [labelsOf], fun _ => rfl⟩
  | cons line ls ih =>
    rw [labelsOf_cons, ← List.append_assoc] at h ⊢
    have hnew : ∀ l ∈ line.label, l ∉ st.sym.labels := fun l hl hm =>
      List.disjoint_of_nodup_append (List.Nodup.of_append_left h) hm (by simpa using hl)
    obtain ⟨st1, h1, hlab⟩ := scanLabel_new hnew
    obtain ⟨st', hst', hscan⟩ := ih (st := scanStmt st1 line.stmt) (by rwa [scanStmt_sym, hlab])
    refine ⟨st', by rw [hst', scanStmt_sym, hlab], fun rest => ?_⟩
    rw [List.cons_append, scanLines, h1]
    exact hscan rest

/-- A scan that completes has met new labels only. -/
theorem scanLines_ok_nodup {st st' : ScanState} {ls : List SourceLine} (hn : st.sym.labels.Nodup) (h : scanLines st ls = .ok st') :
    st'.sym.labels.Nodup := by
  induction ls generalizing st with
  | nil => cases h; exact hn
  | cons line ls ih =>
    rw [scanLines] at h
    cases hl : scanLabel st line.label with
    | error e => simp [hl] at h
    | ok st1 =>
      rw [hl] at h
      refine ih ?_ h
      rw [scanStmt_sym]
      by_cases hnew : ∀ l ∈ line.label, l ∉ st.sym.labels
      · obtain ⟨st2, h2, hlab⟩ := scanLabel_new hnew
        rw [hl] at h2
        cases h2
        rw [hlab]
        refine hn.append (by cases line.label <;> simp) fun a ha hb => ?_
        exact hnew a (by simpa using hb) ha
      · simp only [not_forall, not_not] at hnew
        obtain ⟨l, hl', hold⟩ := hnew
        rw [Option.mem_def.mp hl', scanLabel_old hold] at hl
        cases hl

/-- Settles O56: the scan appends each new label to the table and stops at the first old one. -/
theorem labelsAreUnique : Obligations.LabelsAreUnique := by
  unfold Obligations.LabelsAreUnique
  refine ⟨fun ls h => ?_, fun ls t h => ?_, fun before after line l h hl hmem => ?_⟩
  · obtain ⟨st', hlab, hscan⟩ := scanLines_append (st := { segment := .text, count := 0, sym := [] }) (ls := ls) (by simpa [SymTab.labels, labelsOf] using h)
    have hall := hscan []
    rw [List.append_nil, scanLines] at hall
    exact ⟨st'.sym, by rw [symbolTable, hall], by simpa [SymTab.labels, labelsOf] using hlab⟩
  · unfold symbolTable at h
    split at h
    · cases h
    · rename_i st hst
      cases h
      exact scanLines_ok_nodup (by simp [SymTab.labels]) hst
  · obtain ⟨st', hlab, hscan⟩ := scanLines_append (st := { segment := .text, count := 0, sym := [] }) (ls := before)
      (by simpa [SymTab.labels, labelsOf] using h)
    have hold : l ∈ st'.sym.labels := by rw [hlab]; exact hmem
    rw [symbolTable, hscan, scanLines, hl, scanLabel_old hold]

/-! The encode pass (R156, R157, R162). -/

theorem textAddr_eq (k : Nat) : textAddr k = 4 * k := by simp [textAddr, textBase]

/-- The entry of statement number k: encoded at its own address, and placed there. -/
def isEntryOf (sym : SymTab) (k : Nat) (s : Text × List Text) (t : TextEntry) : Prop :=
  ∃ e, encodeStatement (4 * k) s.1 s.2 sym = .ok e ∧ t.addr = BitVec.ofNat 32 (4 * k) ∧ t.word = e.word

/-- Entries of statements numbered from n on. -/
def areEntriesOf (sym : SymTab) : Nat → List (Text × List Text) → List TextEntry → Prop
  | _, [], [] => True
  | n, s :: ss, t :: ts => isEntryOf sym n s t ∧ areEntriesOf sym (n + 1) ss ts
  | _, _, _ => False

theorem areEntriesOf.length_eq {sym : SymTab} {n : Nat} {ss : List (Text × List Text)} {ts : List TextEntry}
    (h : areEntriesOf sym n ss ts) : ts.length = ss.length := by
  induction ss generalizing n ts with
  | nil => cases ts with
    | nil => rfl
    | cons t ts => cases h
  | cons s ss ih => cases ts with
    | nil => cases h
    | cons t ts => simpa using ih h.2

theorem areEntriesOf.getElem? {sym : SymTab} {n : Nat} {ss : List (Text × List Text)} {ts : List TextEntry}
    (h : areEntriesOf sym n ss ts) {k : Nat} {s : Text × List Text} (hk : ss[k]? = some s) :
    ∃ t, ts[k]? = some t ∧ isEntryOf sym (n + k) s t := by
  induction ss generalizing n ts k with
  | nil => cases hk
  | cons a ss ih => cases ts with
    | nil => cases h
    | cons t ts => cases k with
      | zero =>
        cases hk
        exact ⟨t, rfl, h.1⟩
      | succ k =>
        obtain ⟨u, hu, he⟩ := ih h.2 hk
        exact ⟨u, hu, by rwa [Nat.add_assoc, Nat.add_comm 1] at he⟩

/-- The encode pass appends the entries of the text statements, numbered on. -/
theorem encodeLines_text {sym : SymTab} {st st' : EncodeState} {ls : List SourceLine} (h : encodeLines sym st ls = .ok st') :
    ∃ ts, st'.text = st.text ++ ts ∧ st'.count = st.count + ts.length ∧ areEntriesOf sym st.count (textStatements st.segment ls) ts := by
  induction ls generalizing st with
  | nil =>
    cases h
    exact ⟨[], by simp [textStatements, areEntriesOf]⟩
  | cons line ls ih =>
    rw [encodeLines] at h
    cases h1 : encodeLine sym st line with
    | error e => simp [h1] at h
    | ok st1 =>
      rw [h1] at h
      obtain ⟨ts, htext, hcount, hts⟩ := ih h
      unfold encodeLine at h1
      rw [textStatements]
      cases hst : line.stmt with
      | none | dataSegment | textSegment =>
        simp only [hst, Except.ok.injEq] at h1
        subst h1
        exact ⟨ts, htext, hcount, hts⟩
      | op name ops =>
        cases hseg : st.segment with
        | data =>
          simp only [hst, hseg, exceptBind_eq_ok] at h1
          obtain ⟨bs, -, h1⟩ := h1
          cases h1
          exact ⟨ts, htext, hcount, by simpa using hts⟩
        | text =>
          simp only [hst, hseg, exceptBind_eq_ok] at h1
          obtain ⟨e, he, h1⟩ := h1
          cases h1
          rw [textAddr_eq] at he htext
          refine ⟨_ :: ts, htext.trans (List.append_assoc ..), by simp only [hcount, List.length_cons]; omega, ?_⟩
          exact ⟨⟨e, he, rfl, rfl⟩, by simpa using hts⟩

/-- Byte k of an image stands k bytes above the start of its partition. -/
def areConsecutiveFrom (a : Nat) (bs : List (Word × Byte)) : Prop := ∀ k p, bs[k]? = some p → p.1 = BitVec.ofNat 32 (a + k)

theorem areConsecutiveFrom.append {a : Nat} {bs cs : List (Word × Byte)} (hb : areConsecutiveFrom a bs)
    (hc : areConsecutiveFrom (a + bs.length) cs) : areConsecutiveFrom a (bs ++ cs) := by
  intro k p hk
  by_cases hlt : k < bs.length
  · exact hb k p (by rwa [List.getElem?_append_left hlt] at hk)
  · rw [List.getElem?_append_right (by omega)] at hk
    rw [hc _ p hk]
    congr 1
    omega

theorem areConsecutiveFrom_placeBytes (a : Nat) (bs : List Byte) : areConsecutiveFrom a (placeBytes a bs) := by
  induction bs generalizing a with
  | nil => exact fun k p hk => by cases hk
  | cons b bs ih =>
    intro k p hk
    cases k with
    | zero => cases hk; rfl
    | succ k =>
      rw [ih (a + 1) k p hk]
      congr 1
      omega

/-- The encode pass keeps the data image consecutive (R162). -/
theorem encodeLines_data {sym : SymTab} {st st' : EncodeState} {ls : List SourceLine} (hd : areConsecutiveFrom dataBase st.data)
    (h : encodeLines sym st ls = .ok st') : areConsecutiveFrom dataBase st'.data := by
  induction ls generalizing st with
  | nil => cases h; exact hd
  | cons line ls ih =>
    rw [encodeLines] at h
    cases h1 : encodeLine sym st line with
    | error e => simp [h1] at h
    | ok st1 =>
      rw [h1] at h
      refine ih ?_ h
      unfold encodeLine at h1
      cases hst : line.stmt with
      | none | dataSegment | textSegment =>
        simp only [hst, Except.ok.injEq] at h1
        subst h1
        exact hd
      | op name ops =>
        cases hseg : st.segment with
        | data =>
          simp only [hst, hseg, exceptBind_eq_ok] at h1
          obtain ⟨bs, -, h1⟩ := h1
          cases h1
          exact hd.append (areConsecutiveFrom_placeBytes _ bs)
        | text =>
          simp only [hst, hseg, exceptBind_eq_ok] at h1
          obtain ⟨e, -, h1⟩ := h1
          cases h1
          exact hd

/-- An assembled source: its symbol table, the entries of its statements with the halt word's after them, and its data bytes. -/
theorem assemble_ok {ls : List SourceLine} {o : AsmOutput} (h : assemble ls = .ok o) :
    ∃ sym ts, symbolTable ls = .ok sym ∧ areEntriesOf sym 0 (textStatements .text ls) ts ∧ o.text = ts ++ [haltEntry ts.length] ∧
      areConsecutiveFrom dataBase o.data := by
  simp only [assemble, exceptBind_eq_ok] at h
  obtain ⟨sym, hsym, st, hst, h⟩ := h
  cases h
  obtain ⟨ts, htext, hcount, hts⟩ := encodeLines_text hst
  simp only [List.nil_append] at htext
  simp only [Nat.zero_add] at hcount
  exact ⟨sym, ts, hsym, hts, by simp only [htext, hcount], encodeLines_data (fun k p hk => by cases hk) hst⟩

/-- Settles O57: entry k is statement k's, and the halt word's is one more. -/
theorem haltWordFollowsTheProgram : Obligations.HaltWordFollowsTheProgram := by
  unfold Obligations.HaltWordFollowsTheProgram
  intro ls o h
  obtain ⟨sym, ts, hsym, hts, htext, -⟩ := assemble_ok h
  have hlen := hts.length_eq
  have himage : o.image = ts.map (fun e => (e.addr, e.word)) ++ [((haltEntry ts.length).addr, haltWord)] := by
    rw [AsmOutput.image, htext, List.map_append]
    rfl
  rw [himage, ← hlen]
  refine ⟨by simp, ?_, fun k name ops hk => ?_⟩
  · simp [haltEntry, haltWord, textAddr_eq]
  · obtain ⟨t, ht, e, he, haddr, hword⟩ := hts.getElem? hk
    rw [Nat.zero_add] at he haddr
    refine ⟨sym, e, hsym, he, ?_⟩
    rw [List.getElem?_append_left (by simpa using (List.getElem?_eq_some_iff.mp ht).1)]
    simp [ht, haddr, hword]

/-- Entry k of an assembled image stands at 4k, and is the halt word exactly if it is the last. -/
theorem assembled_entry {ls : List SourceLine} {o : AsmOutput} (h : assemble ls = .ok o) {k : Nat} {t : TextEntry}
    (hk : o.text[k]? = some t) : t.addr = BitVec.ofNat 32 (4 * k) ∧ (t.word = haltWord ↔ k + 1 = o.text.length) := by
  obtain ⟨sym, ts, -, hts, htext, -⟩ := assemble_ok h
  have hlast : o.text.length = ts.length + 1 := by simp [htext]
  rw [hlast]
  rw [htext] at hk
  by_cases hlt : k < ts.length
  · obtain ⟨u, hu, e, he, haddr, hword⟩ := hts.getElem? (List.getElem?_eq_getElem (hts.length_eq ▸ hlt))
    rw [List.getElem?_append_left hlt, hu] at hk
    cases hk
    refine ⟨by rwa [Nat.zero_add] at haddr, fun hw => absurd (hword ▸ hw) (encodeStatement_ne_haltWord he), fun hk => by omega⟩
  · have hle : k < (ts ++ [haltEntry ts.length]).length := (List.getElem?_eq_some_iff.mp hk).1
    obtain rfl : k = ts.length := by simp at hle; omega
    simp only [List.getElem?_concat_length, Option.some.injEq] at hk
    subst hk
    exact ⟨by rw [haltEntry, textAddr_eq], fun _ => rfl, fun _ => rfl⟩

/-- Settles O58: by the entries of the image, of which the halt word's is one. -/
theorem assembledImageLayout : Obligations.AssembledImageLayout := by
  unfold Obligations.AssembledImageLayout
  intro ls o h
  obtain ⟨sym, ts, -, -, htext, hdata⟩ := assemble_ok h
  exact ⟨fun k e hk => assembled_entry h hk, by simp [htext], hdata⟩

/-- The last word at an address is one of the entries, and without one no entry stands there. -/
theorem lastWordAt_mem {image : List (Word × Word)} {a w : Word} (h : lastWordAt image a = some w) : (a, w) ∈ image := by
  obtain ⟨p, hp, rfl⟩ := Option.map_eq_some_iff.mp h
  have ha : p.1 = a := by simpa using List.find?_some hp
  subst ha
  simpa using List.mem_of_find?_eq_some hp

theorem lastWordAt_eq_none {image : List (Word × Word)} {a : Word} (h : ∀ p ∈ image, p.1 ≠ a) : lastWordAt image a = none := by
  simpa [lastWordAt] using fun x y hxy => h (x, y) hxy

/-- An entry of an assembled image that fits the instruction partition. -/
theorem mem_image {ls : List SourceLine} {o : AsmOutput} (h : assemble ls = .ok o) {p : Word × Word} (hp : p ∈ o.image) :
    ∃ k < o.text.length, p.1 = BitVec.ofNat 32 (4 * k) ∧ (p.2 = haltWord → k + 1 = o.text.length) := by
  obtain ⟨t, ht, rfl⟩ := List.mem_map.mp hp
  obtain ⟨k, hk⟩ := List.mem_iff_getElem?.mp ht
  obtain ⟨haddr, hword⟩ := assembled_entry h hk
  exact ⟨k, (List.getElem?_eq_some_iff.mp hk).1, haddr, hword.mp⟩

/-- An empty instruction memory has no word to fetch. -/
theorem iMemReadWord_nil (a : Word) :
    iMemReadWord [] a = if inDataSegment a then .error (.segmentAccessViolation a) else .ok none := by
  simp [iMemReadWord, Memory.byteAt, PMap.get]

/-- Settles O59: the entries are aligned and fit, and after the last address of the image nothing is loaded. -/
theorem assembledProgramLoads : Obligations.AssembledProgramLoads := by
  unfold Obligations.AssembledProgramLoads
  intro ls o h hfit hdfit
  obtain ⟨-, -, -, -, -, hdata⟩ := assemble_ok h
  have himage : ∀ p ∈ o.image, loadableEntry p := fun p hp => by
    obtain ⟨k, hk, haddr, -⟩ := mem_image h hp
    refine ⟨Bool.not_eq_true _ ▸ not_inDataSegment_iff.mpr ?_, aligned_iff.mpr ?_⟩ <;> rw [haddr, BitVec.toNat_ofNat] <;> omega
  have hbytes : ∀ p ∈ o.data, inDataSegment p.1 = true := fun p hp => by
    obtain ⟨k, hk⟩ := List.mem_iff_getElem?.mp hp
    have hlt : k < o.data.length := (List.getElem?_eq_some_iff.mp hk).1
    rw [hdata k p hk, ← not_not (a := inDataSegment _ = true), not_inDataSegment_iff, BitVec.toNat_ofNat, dataBase]
    omega
  have hload := load_of_not_hasFaulted (s := State.reset) (fun ⟨e, he⟩ => by cases he) o.image o.data
  rw [fillMemories_of_good himage] at hload
  rw [hload]
  refine ⟨by rw [loadData_good hbytes], fun hlt a ha => ?_⟩
  have hempty : ∀ b, iMemReadWord State.reset.imem b = if inDataSegment b then .error (.segmentAccessViolation b) else .ok none :=
    iMemReadWord_nil
  rw [iMemReadWord_loadImage himage] at ha ⊢
  cases hw : lastWordAt o.image a with
  | none =>
    simp only [hw, hempty] at ha
    split at ha <;> cases ha
  | some w =>
    rw [hw] at ha
    cases ha
    obtain ⟨k, hk, haddr, hlast⟩ := mem_image h (lastWordAt_mem hw)
    have hend : (a + 4#32).toNat = 4 * o.text.length := by
      rw [show a = BitVec.ofNat 32 (4 * k) from haddr, ← hlast rfl]
      simp only [BitVec.toNat_add, BitVec.toNat_ofNat]
      omega
    have hnone : lastWordAt o.image (a + 4#32) = none := lastWordAt_eq_none fun p hp he => by
      obtain ⟨j, hj, hpj, -⟩ := mem_image h hp
      rw [← he, hpj, BitVec.toNat_ofNat] at hend
      omega
    rw [hnone, hempty, if_neg (not_inDataSegment_iff.mpr (by omega))]

end Sys2Proof.Machine
end

section
/-! One cycle (spec/45_pipeline.md R322): what each stage leaves of the state, the cycle from its first stage to its last, and the statements
about registers, memories, counters and errors that follow from it. -/

namespace Sys2Proof.Machine

/-! Write-back as a function of the MEM/WB record. -/

/-- The register file after the write-back of a record. -/
def wbRegs (m : Option MEMWB) (x : Vector Word 32) : Vector Word 32 :=
  match m with
  | none => x
  | some m =>
    if m.ins = .halt then x
    else if m.regWrite then
      match m.rd with
      | some r => regsAfterWrite x r m.wbValue
      | none => x
    else x

/-- The counters after the write-back of a record. -/
def wbStats (m : Option MEMWB) (st : Stats) : Stats :=
  match m with
  | none => st
  | some m =>
    if m.ins = .halt then st
    else
      { st with
        retired := st.retired + 1
        memCount := st.memCount + (if m.memRead || m.memWrite then 1 else 0)
        ctrlCount := st.ctrlCount + (if !(m.memRead || m.memWrite) && m.isControl then 1 else 0)
        aluCount := st.aluCount + (if !(m.memRead || m.memWrite) && !m.isControl then 1 else 0) }

/-- The halt word is at write-back. -/
def haltIn (m : Option MEMWB) : Bool :=
  match m with
  | none => false
  | some m => decide (m.ins = .halt)

theorem haltIn_eq_true {m : Option MEMWB} : haltIn m = true ↔ ∃ q, m = some q ∧ q.ins = .halt := by
  cases m <;> simp [haltIn]

theorem writeBackReg_eq (s : State) {m : MEMWB} (hi : m.ins ≠ .halt) : writeBackReg s m = { s with x := wbRegs (some m) s.x } := by
  simp only [wbRegs, if_neg hi, writeBackReg]
  cases m.regWrite with
  | false => rfl
  | true =>
    cases m.rd with
    | none => rfl
    | some r =>
      simp only [if_true, State.writeDest, State.writeReg, regsAfterWrite]
      split <;> rfl

theorem wbStage_eq (s : State) :
    wbStage s = ({ s with x := wbRegs s.memwb s.x, stats := wbStats s.memwb s.stats }, haltIn s.memwb) := by
  have hbubble : ∀ b, wbRegs s.memwb s.x = s.x → wbStats s.memwb s.stats = s.stats → haltIn s.memwb = b →
      (s, b) = ({ s with x := wbRegs s.memwb s.x, stats := wbStats s.memwb s.stats }, haltIn s.memwb) := fun b hx hst hh => by
    rw [hx, hst, hh]
  obtain ⟨hm, h⟩ | ⟨m, hm, hi, h⟩ | ⟨m, hm, hi, h⟩ := wbStage_cases s
  · rw [h]
    exact hbubble false (by rw [hm]; rfl) (by rw [hm]; rfl) (by rw [hm]; rfl)
  · rw [h]
    exact hbubble true (by simp [hm, wbRegs, hi]) (by simp [hm, wbStats, hi]) (by simp [hm, haltIn, hi])
  · have hh : haltIn s.memwb = false := by simp [hm, haltIn, hi]
    have hst : wbStats s.memwb s.stats = (s.countRetired (m.memRead || m.memWrite) m.isControl).stats := by
      rw [hm, wbStats, if_neg hi]
      rfl
    rw [h, hh, hst, writeBackReg_eq s hi, ← hm]
    rfl

/-- Write-back keeps entry 0 of the register file. -/
theorem wbRegs_x0 (m : Option MEMWB) (x : Vector Word 32) : (wbRegs m x)[0] = x[0] := by
  have hwrite : ∀ (r : RegIdx) (v : Word), (regsAfterWrite x r v)[0] = x[0] := fun r v => by
    unfold regsAfterWrite
    split
    · rfl
    · rename_i hr
      rw [Vector.getElem_set_ne]
      exact fun e => hr (BitVec.eq_of_toNat_eq e)
  unfold wbRegs
  split
  · rfl
  · split
    · rfl
    · split
      · split
        · exact hwrite _ _
        · rfl
      · rfl

/-- A register reads as the record in MEM/WB writes it, if it does. -/
theorem readReg_of_wbRegs {s t : State} {q : MEMWB} (h : t.x = wbRegs (some q) s.x) (r : RegIdx) :
    t.readReg r = if q.ins ≠ .halt ∧ q.regWrite = true ∧ q.rd = some r ∧ r ≠ 0#5 then q.wbValue else s.readReg r := by
  by_cases hh : q.ins = .halt
  · rw [if_neg (fun hc => hc.1 hh)]
    exact State.readReg_congr (by rw [h, wbRegs, if_pos hh]) r
  rw [wbRegs, if_neg hh] at h
  cases hw : q.regWrite with
  | false =>
    rw [if_neg (fun hc => Bool.false_ne_true hc.2.1)]
    exact State.readReg_congr (by rw [h, hw]; rfl) r
  | true =>
    cases hr : q.rd with
    | none =>
      rw [if_neg (fun hc => Option.some_ne_none _ hc.2.2.1.symm)]
      exact State.readReg_congr (by rw [h, hw, hr]; rfl) r
    | some d =>
      have hx : t.x = regsAfterWrite s.x d q.wbValue := by rw [h, hw, hr]; rfl
      rw [State.readReg_regsAfterWrite s t d r _ hx]
      by_cases hd : r = d
      · subst hd
        simp [hh]
      · simp [hd, Ne.symm hd]

/-! Memory as a function of the EX/MEM record. -/

/-- An access that completes does so in every state with the same parameters and data memory. -/
theorem memStage_congr {s t u : State} (hc : t.cfg = s.cfg) (hd : t.dmem = s.dmem) (he : t.exmem = s.exmem) (h : memStage s = .ok u) :
    memStage t = .ok { t with dmem := u.dmem, memwb := u.memwb } := by
  obtain ⟨hn, rfl⟩ | ⟨e, m, v, hs, hl, hsd, hm, hv, rfl⟩ := memStage_ok h
  · simp [memStage, he, hn, ← hd]
  · have hm' : memStoreAccess t e = .ok m := by rw [← hm, memStoreAccess, memStoreAccess, hd]
    have hv' : memLoadAccess t e m = .ok v := by rw [← hv, memLoadAccess, memLoadAccess, hc]
    simp [memStage, he, hs, hl, hsd, hm', hv']

/-- A state that holds the record e in EX/MEM, with the parameters and data memory the memory stage looks at. -/
def accessing (cfg : Config) (dm : Memory) (e : Option EXMEM) : State := { State.reset with cfg := cfg, dmem := dm, exmem := e }

/-- The data memory and the MEM/WB record that the memory stage leaves of a record; none of them moves if it raises. -/
def memLeaves (cfg : Config) (dm : Memory) (e : Option EXMEM) : Memory × Option MEMWB :=
  match memStage (accessing cfg dm e) with
  | .ok t => (t.dmem, t.memwb)
  | .raise _ => (dm, none)
  | .stuck _ => (dm, none)

theorem memLeaves_of_ok {s t : State} (h : memStage s = .ok t) : memLeaves s.cfg s.dmem s.exmem = (t.dmem, t.memwb) := by
  rw [memLeaves, memStage_congr (s := s) (t := accessing s.cfg s.dmem s.exmem) rfl rfl rfl h]

theorem memLeaves_of_not_ok {s : State} (h : ∀ t, memStage s ≠ .ok t) : memLeaves s.cfg s.dmem s.exmem = (s.dmem, none) := by
  rw [memLeaves]
  split
  · rename_i t ht
    exact absurd (memStage_congr (t := s) (s := accessing s.cfg s.dmem s.exmem) rfl rfl rfl ht) (h _)
  · rfl
  · rfl

@[simp] theorem memLeaves_none (cfg : Config) (dm : Memory) : memLeaves cfg dm none = (dm, none) := rfl

/-- The memory stage moves data memory and MEM/WB only. -/
theorem memStage_leaves {s t : State} (h : memStage s = .ok t) :
    t = { s with dmem := (memLeaves s.cfg s.dmem s.exmem).1, memwb := (memLeaves s.cfg s.dmem s.exmem).2 } := by
  rw [memLeaves_of_ok h]
  obtain ⟨m, w, rfl⟩ := memStage_frame h
  rfl

/-! What execute and decode leave of the counters. -/

/-- Execute moves the counters of resolutions and mispredictions only. -/
theorem exStage_stats {s : State} {r : State × Option Word} (h : exStage s = .ok r) :
    r.1.stats = { s.stats with ctrlHazards := r.1.stats.ctrlHazards, mispredicts := r.1.stats.mispredicts } := by
  obtain ⟨-, rfl⟩ | ⟨d, -, -, rfl⟩ | ⟨d, v, -, -, -, -, rfl⟩ | ⟨d, v, taken, target, -, -, -, -, -, rfl⟩ := exStage_ok h
  · rfl
  · rfl
  · rfl
  · obtain ⟨-, hr⟩ | ⟨-, hr⟩ := applyResolution_cases s d.pc taken target <;> rw [hr] <;> rfl

/-- Decode moves the counters of data hazards and stalls only. -/
theorem idStage_stats {s : State} {r : State × Option Word} (h : idStage s = .ok r) :
    r.1.stats = { s.stats with dataHazards := r.1.stats.dataHazards, stalls := r.1.stats.stalls } := by
  obtain ⟨-, rfl⟩ | ⟨f, i, -, -, -, rfl⟩ | ⟨f, i, -, -, -, rfl⟩ := idStage_ok h <;> rfl

/-! The stages between write-back and fetch. -/

/-- What no stage between write-back and fetch changes. -/
def State.sameBeforeFetch (w u : State) : Prop :=
  u.cfg = w.cfg ∧ u.x = w.x ∧ u.pc = w.pc ∧ u.imem = w.imem ∧ u.fwd = w.fwd ∧ u.status = w.status ∧ u.stats.cycles = w.stats.cycles ∧
    u.stats.retired = w.stats.retired

theorem State.sameBeforeFetch.rfl {w : State} : w.sameBeforeFetch w := ⟨.refl _, .refl _, .refl _, .refl _, .refl _, .refl _, .refl _, .refl _⟩

theorem State.sameBeforeFetch.trans {w u v : State} (h : w.sameBeforeFetch u) (h' : u.sameBeforeFetch v) : w.sameBeforeFetch v := by
  obtain ⟨h1, h2, h3, h4, h5, h6, h7, h8⟩ := h
  obtain ⟨k1, k2, k3, k4, k5, k6, k7, k8⟩ := h'
  exact ⟨k1.trans h1, k2.trans h2, k3.trans h3, k4.trans h4, k5.trans h5, k6.trans h6, k7.trans h7, k8.trans h8⟩

theorem State.sameBeforeFetch.pc {w u : State} (h : w.sameBeforeFetch u) : u.pc = w.pc := by
  obtain ⟨-, -, hpc, -⟩ := h
  exact hpc

theorem memStage_same {s t : State} (h : memStage s = .ok t) : s.sameBeforeFetch t := by
  obtain ⟨m, w, rfl⟩ := memStage_frame h
  exact ⟨rfl, rfl, rfl, rfl, rfl, rfl, rfl, rfl⟩

theorem exStage_same {s : State} {r : State × Option Word} (h : exStage s = .ok r) : s.sameBeforeFetch r.1 ∧ r.1.dmem = s.dmem := by
  have hst := exStage_stats h
  obtain ⟨i, d, e, p, q, st, ev, hr⟩ := exStage_frame h
  rw [State.sameBeforeFetch, hst, hr]
  exact ⟨⟨rfl, rfl, rfl, rfl, rfl, rfl, rfl, rfl⟩, rfl⟩

theorem idStage_same {s : State} {r : State × Option Word} (h : idStage s = .ok r) : s.sameBeforeFetch r.1 ∧ r.1.dmem = s.dmem := by
  have hst := idStage_stats h
  obtain ⟨d, st, ev, hr⟩ := idStage_frame h
  rw [State.sameBeforeFetch, hst, hr]
  exact ⟨⟨rfl, rfl, rfl, rfl, rfl, rfl, rfl, rfl⟩, rfl⟩

/-! The cycle. -/

/-- The state write-back leaves in a cycle, which begins with an empty event log. -/
def State.writtenBack (s : State) : State :=
  { s with x := wbRegs s.memwb s.x, stats := wbStats s.memwb s.stats, events := [] }

theorem wbStage_cleared (s : State) : wbStage { s with events := [] } = (s.writtenBack, haltIn s.memwb) := wbStage_eq _

/-- All five stages of a cycle complete: the states memory, execute, decode and fetch leave. -/
structure Completes (s s2 : State) (ex id : State × Option Word) (s5 : State) : Prop where
  mem   : memStage s.writtenBack = .ok s2
  exec  : exStage s2 = .ok ex
  dec   : idStage ex.1 = .ok id
  fetch : ifStage id.1 ex.2 id.2 = .ok s5

/-- A cycle raises in one of its last four stages, with the state the stages before left, or completes. -/
theorem step_cases {s t : State} (hs : s.status = .running) (h : step s = .next t) :
    (∃ e, memStage s.writtenBack = .raise e ∧ t = s.writtenBack.raise e) ∨
    (∃ s2 e, memStage s.writtenBack = .ok s2 ∧ exStage s2 = .raise e ∧ t = s2.raise e) ∨
    (∃ s2 ex e, memStage s.writtenBack = .ok s2 ∧ exStage s2 = .ok ex ∧ idStage ex.1 = .raise e ∧ t = ex.1.raise e) ∨
    (∃ s2 ex id e, memStage s.writtenBack = .ok s2 ∧ exStage s2 = .ok ex ∧ idStage ex.1 = .ok id ∧
      ifStage id.1 ex.2 id.2 = .raise e ∧ t = id.1.raise e) ∨
    (∃ s2 ex id s5, Completes s s2 ex id s5 ∧ t = endCycle s5 (haltIn s.memwb)) := by
  rw [step_running hs] at h
  have hcases := runCycle_next h
  rw [wbStage_cleared] at hcases
  obtain ⟨e, hm, rfl⟩ | ⟨s2, hm, h⟩ := hcases
  · exact .inl ⟨e, hm, rfl⟩
  obtain ⟨e, hx, rfl⟩ | ⟨ex, hx, h⟩ := h
  · exact .inr (.inl ⟨s2, e, hm, hx, rfl⟩)
  obtain ⟨e, hi, rfl⟩ | ⟨id, hi, h⟩ := h
  · exact .inr (.inr (.inl ⟨s2, ex, e, hm, hx, hi, rfl⟩))
  obtain ⟨e, hf, rfl⟩ | ⟨s5, hf, rfl⟩ := h
  · exact .inr (.inr (.inr (.inl ⟨s2, ex, id, e, hm, hx, hi, hf, rfl⟩)))
  · exact .inr (.inr (.inr (.inr ⟨s2, ex, id, s5, ⟨hm, hx, hi, hf⟩, rfl⟩)))

theorem raise_hasFaulted (s : State) (e : Error) : (s.raise e).hasFaulted := ⟨e, rfl⟩

/-- A cycle that does not fault completes. -/
theorem step_completes {s t : State} (hs : s.status = .running) (h : step s = .next t) (hf : ¬t.hasFaulted) :
    ∃ s2 ex id s5, Completes s s2 ex id s5 ∧ t = endCycle s5 (haltIn s.memwb) := by
  obtain ⟨e, -, rfl⟩ | ⟨s2, e, -, -, rfl⟩ | ⟨s2, ex, e, -, -, -, rfl⟩ | ⟨s2, ex, id, e, -, -, -, -, rfl⟩ | h := step_cases hs h
  · exact absurd (raise_hasFaulted _ e) hf
  · exact absurd (raise_hasFaulted _ e) hf
  · exact absurd (raise_hasFaulted _ e) hf
  · exact absurd (raise_hasFaulted _ e) hf
  · exact h

/-- Data memory is that of the cycle's start or what the memory stage leaves. -/
def State.memoryStageDone (s u : State) : Prop := u.dmem = s.dmem ∨ ∃ s2, memStage s.writtenBack = .ok s2 ∧ u.dmem = s2.dmem

/-- A cycle is a raise or a fetch from a state that write-back left but for what memory, execute and decode may move. -/
theorem step_before_fetch {s t : State} (hs : s.status = .running) (h : step s = .next t) :
    ∃ u, s.writtenBack.sameBeforeFetch u ∧ s.memoryStageDone u ∧
      ((∃ e, t = u.raise e) ∨ ∃ i p, t = endCycle { u with ifid := i, pc := p } (haltIn s.memwb)) := by
  obtain ⟨e, -, rfl⟩ | ⟨s2, e, hm, -, rfl⟩ | ⟨s2, ex, e, hm, hx, -, rfl⟩ | ⟨s2, ex, id, e, hm, hx, hi, -, rfl⟩ |
    ⟨s2, ex, id, s5, hc, rfl⟩ := step_cases hs h
  · exact ⟨_, .rfl, .inl rfl, .inl ⟨e, rfl⟩⟩
  · exact ⟨s2, memStage_same hm, .inr ⟨s2, hm, rfl⟩, .inl ⟨e, rfl⟩⟩
  · exact ⟨ex.1, (memStage_same hm).trans (exStage_same hx).1, .inr ⟨s2, hm, (exStage_same hx).2⟩, .inl ⟨e, rfl⟩⟩
  · exact ⟨id.1, ((memStage_same hm).trans (exStage_same hx).1).trans (idStage_same hi).1,
      .inr ⟨s2, hm, (idStage_same hi).2.trans (exStage_same hx).2⟩, .inl ⟨e, rfl⟩⟩
  · obtain ⟨i, p, hs5⟩ := ifStage_frame hc.fetch
    exact ⟨id.1, ((memStage_same hc.mem).trans (exStage_same hc.exec).1).trans (idStage_same hc.dec).1,
      .inr ⟨s2, hc.mem, (idStage_same hc.dec).2.trans (exStage_same hc.exec).2⟩, .inr ⟨i, p, by rw [hs5]⟩⟩

/-- Settles O35: a step looks at the status first. -/
theorem stoppedEngineChangesNothing : Obligations.StoppedEngineChangesNothing := by
  unfold Obligations.StoppedEngineChangesNothing
  exact fun s hs => step_stopped hs

/-- The registers after any cycle are those write-back leaves. -/
theorem step_x {s t : State} (hs : s.status = .running) (h : step s = .next t) : t.x = wbRegs s.memwb s.x := by
  obtain ⟨u, ⟨-, hx, -⟩, -, ⟨e, rfl⟩ | ⟨i, p, rfl⟩⟩ := step_before_fetch hs h <;> exact hx

/-- Instruction memory, the forwarding switch and the parameters stay. -/
theorem step_imem_fwd_cfg {s t : State} (hs : s.status = .running) (h : step s = .next t) :
    t.imem = s.imem ∧ t.fwd = s.fwd ∧ t.cfg = s.cfg := by
  obtain ⟨u, ⟨hc, -, -, hi, hf, -⟩, -, ⟨e, rfl⟩ | ⟨i, p, rfl⟩⟩ := step_before_fetch hs h <;> exact ⟨hi, hf, hc⟩

/-- The memory stage without a store leaves data memory alone. -/
theorem memStage_dmem {s t : State} (h : memStage s = .ok t) (hw : ∀ e, s.exmem = some e → e.memWrite = false) : t.dmem = s.dmem := by
  obtain ⟨-, rfl⟩ | ⟨e, m, v, he, -, -, hm, -, rfl⟩ := memStage_ok h
  · rfl
  · obtain ⟨-, rfl⟩ | ⟨hmw, -⟩ := memStoreAccess_ok hm
    · rfl
    · rw [hw e he] at hmw
      cases hmw

/-- Settles O42: registers are written by write-back and data memory by the memory stage only. -/
theorem cycleWritesOnlyThroughItsStages : Obligations.CycleWritesOnlyThroughItsStages := by
  unfold Obligations.CycleWritesOnlyThroughItsStages
  intro s t h
  by_cases hs : s.status = .running
  · refine ⟨fun r hr => ?_, fun hw => ?_, step_imem_fwd_cfg hs h⟩
    · have hx := step_x hs h
      cases hm : s.memwb with
      | none => exact State.readReg_congr (by rw [hx, hm]; rfl) r
      | some m =>
        rw [hm] at hx
        rw [readReg_of_wbRegs hx]
        exact if_neg fun ⟨_, hreg, hrd, _⟩ => hr m hm hreg hrd
    · obtain ⟨u, -, hu, ht⟩ := step_before_fetch hs h
      have htu : t.dmem = u.dmem := by obtain ⟨e, rfl⟩ | ⟨i, p, rfl⟩ := ht <;> rfl
      obtain hu | ⟨s2, hm, hu⟩ := hu
      · exact htu.trans hu
      · exact htu.trans (hu.trans (memStage_dmem (s := s.writtenBack) hm hw))
  · rw [step_stopped hs] at h
    cases h
    exact ⟨fun _ _ => rfl, fun _ => rfl, rfl, rfl, rfl⟩

/-- The retired counter after any cycle is the one write-back leaves, and the run ends in Halted only through write-back. -/
theorem step_retired_status {s t : State} (hs : s.status = .running) (h : step s = .next t) :
    t.stats.retired = (wbStats s.memwb s.stats).retired ∧
      ((t.status = if haltIn s.memwb then .halted else .running) ∨ t.hasFaulted) := by
  obtain ⟨u, ⟨-, -, -, -, -, hst, -, hr⟩, -, ⟨e, rfl⟩ | ⟨i, p, rfl⟩⟩ := step_before_fetch hs h
  · exact ⟨hr, .inr (raise_hasFaulted u e)⟩
  · have hrun : u.status = .running := hst.trans hs
    exact ⟨hr, .inl (by simp only [endCycle, hrun])⟩

/-- Settles O43: by the record in MEM/WB. -/
theorem writeBackWritesTheDestination : Obligations.WriteBackWritesTheDestination := by
  unfold Obligations.WriteBackWritesTheDestination
  intro s t hs h
  have hx := step_x hs h
  obtain ⟨hret, hst⟩ := step_retired_status hs h
  have hnot : haltIn s.memwb = false → t.status ≠ .halted := fun hh => by
    obtain hst | ⟨e, hst⟩ := hst <;> rw [hst] <;> simp [hh]
  refine ⟨fun hm => ?_, fun m hm hi => ?_, fun m hm hi => ?_⟩ <;> rw [hm] at hx hret hnot hst
  · exact ⟨State.readReg_congr hx, hret, hnot rfl⟩
  · refine ⟨fun r => by simp [readReg_of_wbRegs hx, hi], by simpa [wbStats, hi] using hret, hnot (by simp [haltIn, hi])⟩
  · refine ⟨fun r => by simp [readReg_of_wbRegs hx, hi], by simpa [wbStats, hi] using hret, hst.imp (fun hst => ?_) id⟩
    rw [hst, if_pos (by simp [haltIn, hi])]

/-- Settles O51: fetch is the only stage that moves pc, and only a completed cycle counts itself. -/
theorem errorEndsTheCycle : Obligations.ErrorEndsTheCycle := by
  unfold Obligations.ErrorEndsTheCycle
  intro s t hs h
  have hcycles : ∀ m, (wbStats m s.stats).cycles = s.stats.cycles := fun m => by
    unfold wbStats
    split
    · rfl
    · split <;> rfl
  rw [wbStage_eq]
  obtain ⟨u, ⟨-, hx, hpc, -, -, hst, hcy, hr⟩, -, ⟨e, rfl⟩ | ⟨i, p, rfl⟩⟩ := step_before_fetch hs h
  · exact ⟨fun _ => ⟨hpc, hcy.trans (hcycles _), hx, hr⟩, fun hf => absurd (raise_hasFaulted u e) hf⟩
  · refine ⟨fun ⟨e, he⟩ => ?_, fun _ => congrArg (· + 1) (hcy.trans (hcycles _))⟩
    have hrun : u.status = .running := hst.trans hs
    simp only [endCycle, hrun] at he
    split at he <;> cases he

end Sys2Proof.Machine
end

section
/-! A completed cycle, stage by stage, in terms of the state it starts from and the state it leaves: what execute writes, and where the
front end (decode and fetch) goes from there. -/

namespace Sys2Proof.Machine

/-! Execute (R325 to R327). -/

/-- What execute writes: EX/MEM, the predictor, and the counters of resolutions and mispredictions. -/
structure ExecuteOut where
  exmem       : Option EXMEM
  bht         : PMap Bool
  btb         : PMap Word
  ctrlHazards : Nat
  mispredicts : Nat

def State.executeOut (s : State) : ExecuteOut :=
  { exmem := s.exmem, bht := s.bht, btb := s.btb, ctrlHazards := s.stats.ctrlHazards, mispredicts := s.stats.mispredicts }

/-- The `result` execute puts into EX/MEM: 0 for the halt word, the link for jumps, and the ALU's output otherwise. -/
def exResult (s : State) (d : IDEX) : StageOut Word :=
  if d.ins = .halt then .ok 0#32
  else
    match exAlu s d with
    | .ok v => .ok (if d.isJal || d.isJalr then d.nextPc else v)
    | .raise e => .raise e
    | .stuck f => .stuck f

theorem exResult_of_halt (s : State) {d : IDEX} (h : d.ins = .halt) : exResult s d = .ok 0#32 := if_pos h

theorem exResult_of_exAlu {s : State} {d : IDEX} {v : Word} (hn : d.ins ≠ .halt) (h : exAlu s d = .ok v) :
    exResult s d = .ok (if d.isJal || d.isJalr then d.nextPc else v) := by
  rw [exResult, if_neg hn, h]

/-- An instruction that is no control instruction is no jump. -/
theorem not_jump_of_not_control {d : Decoded} (h : d.isControl = false) : (d.isJal || d.isJalr) = false := by
  simp only [Decoded.isControl, Bool.or_eq_false_iff] at h
  simp [h]

/-- Execute in a cycle from s, with what it leaves in u, and the pc and the resolved address of the flush, if there is one. -/
inductive Executes (s u : State) : Option (Word × Word) → Prop
  | bubble (hd : s.idex = none) (hu : u.executeOut = { s.executeOut with exmem := none }) : Executes s u none
  | plain (d : IDEX) (v : Word) (hd : s.idex = some d) (hv : exResult s d = .ok v) (hc : d.ins = .halt ∨ d.isControl = false)
      (hu : u.executeOut = { s.executeOut with exmem := some { d with result := v } }) : Executes s u none
  | right (d : IDEX) (f : IFID) (v : Word) (taken : Bool) (target : Word) (hd : s.idex = some d) (hn : d.ins ≠ .halt)
      (hv : exResult s d = .ok v) (hc : d.isControl = true) (hr : resolve s d = .ok (taken, target)) (hf : s.ifid = some f)
      (hp : f.pc = resolvedNext d.pc taken target)
      (hu : u.executeOut =
        { exmem := some { d with result := v }
          bht := PMap.set s.bht d.pc.toNat taken
          btb := if taken then PMap.set s.btb d.pc.toNat target else s.btb
          ctrlHazards := s.stats.ctrlHazards + 1
          mispredicts := s.stats.mispredicts }) : Executes s u none
  | wrong (d : IDEX) (v : Word) (taken : Bool) (target : Word) (hd : s.idex = some d) (hn : d.ins ≠ .halt)
      (hv : exResult s d = .ok v) (hc : d.isControl = true) (hr : resolve s d = .ok (taken, target))
      (hp : ∀ f, s.ifid = some f → f.pc ≠ resolvedNext d.pc taken target)
      (hu : u.executeOut =
        { exmem := some { d with result := v }
          bht := PMap.set s.bht d.pc.toNat taken
          btb := if taken then PMap.set s.btb d.pc.toNat target else s.btb
          ctrlHazards := s.stats.ctrlHazards + 1
          mispredicts := s.stats.mispredicts + 1 }) : Executes s u (some (d.pc, resolvedNext d.pc taken target))

theorem Executes.congr {s u v : State} {p : Option (Word × Word)} (h : Executes s u p) (hv : v.executeOut = u.executeOut) :
    Executes s v p := by
  cases h with
  | bubble hd hu => exact .bubble hd (hv.trans hu)
  | plain d r hd hr hc hu => exact .plain d r hd hr hc (hv.trans hu)
  | right d f r taken target hd hn hr hc hres hf hp hu => exact .right d f r taken target hd hn hr hc hres hf hp (hv.trans hu)
  | wrong d r taken target hd hn hr hc hres hp hu => exact .wrong d r taken target hd hn hr hc hres hp (hv.trans hu)

/-- What execute leaves for the front end: IF/ID, ID/EX, the events and the redirect. -/
def frontAfterExecute (s : State) (r : State × Option Word) : Option (Word × Word) → Prop
  | none => r.2 = none ∧ r.1.ifid = s.ifid ∧ r.1.events = []
  | some p => r.2 = some p.2 ∧ r.1.ifid = none ∧ r.1.events = [.flush p.1 p.2]

theorem mispredicted_eq_false {s : State} {next : Word} (h : mispredicted s next = false) : ∃ f, s.ifid = some f ∧ f.pc = next := by
  unfold mispredicted at h
  cases hf : s.ifid with
  | none => simp [hf] at h
  | some f => exact ⟨f, rfl, by simpa [hf] using h⟩

theorem mispredicted_eq_true {s : State} {next : Word} (h : mispredicted s next = true) : ∀ f, s.ifid = some f → f.pc ≠ next := by
  intro f hf
  simpa [mispredicted, hf] using h

/-- Execute after write-back and memory, which leave what it looks at. -/
theorem exStage_executes {s : State} {x : Vector Word 32} {dm : Memory} {m : Option MEMWB} {st : Stats} {r : State × Option Word}
    (hch : st.ctrlHazards = s.stats.ctrlHazards) (hmp : st.mispredicts = s.stats.mispredicts)
    (h : exStage { s with x := x, dmem := dm, memwb := m, stats := st, events := [] } = .ok r) :
    ∃ p, Executes s r.1 p ∧ frontAfterExecute s r p := by
  obtain ⟨hd, rfl⟩ | ⟨d, hd, hi, rfl⟩ | ⟨d, v, hd, hn, hv, hc, rfl⟩ | ⟨d, v, taken, target, hd, hn, hv, hc, hr, rfl⟩ := exStage_ok h
  · exact ⟨none, .bubble hd (by simp only [State.executeOut, hch, hmp]), rfl, rfl, rfl⟩
  · exact ⟨none, .plain d 0#32 hd (exResult_of_halt s hi) (.inl hi) (by simp only [State.executeOut, hch, hmp]), rfl, rfl, rfl⟩
  · refine ⟨none, .plain d v hd ?_ (.inr hc) (by simp only [State.executeOut, hch, hmp]), rfl, rfl, rfl⟩
    have hres := exResult_of_exAlu (s := s) hn hv
    rwa [not_jump_of_not_control hc] at hres
  · have hres := exResult_of_exAlu (s := s) hn hv
    obtain ⟨hm, ha⟩ | ⟨hm, ha⟩ := applyResolution_cases
      { s with x := x, dmem := dm, memwb := m, stats := st, events := [] } d.pc taken target
    · refine ⟨some (d.pc, resolvedNext d.pc taken target), ?_, ?_⟩
      · refine .wrong d _ taken target hd hn hres hc hr (mispredicted_eq_true hm) ?_
        rw [ha]
        exact congrArg₂ (ExecuteOut.mk _ _ _) (congrArg (· + 1) hch) (congrArg (· + 1) hmp)
      · rw [ha]
        exact ⟨rfl, rfl, rfl⟩
    · obtain ⟨f, hf, hp⟩ := mispredicted_eq_false hm
      refine ⟨none, ?_, ?_⟩
      · refine .right d f _ taken target hd hn hres hc hr hf hp ?_
        rw [ha]
        exact congrArg₂ (ExecuteOut.mk _ _ _) (congrArg (· + 1) hch) hmp
      · rw [ha]
        exact ⟨rfl, rfl, rfl⟩

/-! The front end (R328 to R334). -/

/-- The fetch of a cycle that leaves t, from address a: a miss, or a hit with the prediction for a in pc. -/
inductive Fetched (t : State) (a : Word) : Prop
  | miss (hw : iMemReadWord t.imem a = .ok none) (hf : t.ifid = none) (hp : t.pc = a)
  | hit (w : Word) (hw : t.holdsWord a w) (hf : t.ifid = some (fetchRecord a w)) (hp : predictNext t.bht t.btb a = .ok t.pc)

theorem fetchAt_fetched {s t : State} {a : Word} (h : fetchAt s a = .ok t) : Fetched t a := by
  obtain ⟨hw, rfl⟩ | ⟨w, next, hw, hp, rfl⟩ := fetchAt_ok h
  · exact .miss hw rfl rfl
  · exact .hit w hw rfl hp

theorem Fetched.congr {t u : State} {a : Word} (h : Fetched t a) (hi : u.imem = t.imem) (hf : u.ifid = t.ifid) (hp : u.pc = t.pc)
    (hb : u.bht = t.bht) (ht : u.btb = t.btb) : Fetched u a := by
  cases h with
  | miss hw hn ha => exact .miss (by rw [hi, hw]) (hf.trans hn) (hp.trans ha)
  | hit w hw hn ha => exact .hit w (by rw [State.holdsWord, hi]; exact hw) (hf.trans hn) (by rw [hb, ht, hp, ha])

/-- A list of events without a Flush. -/
def NoFlush (es : List Event) : Prop := ∀ pc next, Event.flush pc next ∉ es

@[simp] theorem noFlush_nil : NoFlush [] := fun _ _ => List.not_mem_nil

@[simp] theorem noFlush_append {es fs : List Event} : NoFlush (es ++ fs) ↔ NoFlush es ∧ NoFlush fs := by
  simp only [NoFlush, List.mem_append, not_or, forall_and]

@[simp] theorem noFlush_stall (pc : Word) : NoFlush [.stall pc] := by simp [NoFlush]

@[simp] theorem noFlush_hazard (st : Stage) (op : Source) (r : RegIdx) : NoFlush [.hazard st op r] := by simp [NoFlush]

@[simp] theorem noFlush_forward (st : Stage) (op : Source) (r : RegIdx) (v : Word) : NoFlush [.forward st op r v] := by simp [NoFlush]

@[simp] theorem noFlush_hazardEvents (s : State) (name : Source) (r : RegIdx) : NoFlush (hazardEvents s name r) := by
  unfold hazardEvents
  refine noFlush_append.2 ⟨?_, ?_⟩ <;> split <;> simp

/-! The hazard unit's table for one operand (spec/70_reset_and_hazards.md R472), row by row. -/

/-- A producer in EX/MEM decides, whatever MEM/WB holds. -/
theorem checkOperand_of_exmem {s : State} {r : RegIdx} {p : EXMEM} (name : Source) (hr : r ≠ 0#5) (hp : s.exmem = some p)
    (hw : p.regWrite = true) (hrd : p.rd = some r) :
    checkOperand s name (some r) =
      if !s.fwd || p.memRead then { stall := true, hit := true, value := 0#32, hazards := hazardEvents s name r, fwds := [] }
      else
        { stall := false, hit := true, value := p.result, hazards := hazardEvents s name r,
          fwds := [.forward .ex name r p.result] } := by
  have hx : exHit (some p) r = true := exHit_iff.2 ⟨p, rfl, hw, hrd⟩
  simp only [checkOperand, if_neg hr, hp, hx]

/-- With no producer in EX/MEM, one in MEM/WB decides. -/
theorem checkOperand_of_memwb {s : State} {r : RegIdx} {q : MEMWB} (name : Source) (hr : r ≠ 0#5) (hx : exHit s.exmem r = false)
    (hq : s.memwb = some q) (hw : q.regWrite = true) (hrd : q.rd = some r) :
    checkOperand s name (some r) =
      if !s.fwd then { stall := true, hit := true, value := 0#32, hazards := hazardEvents s name r, fwds := [] }
      else
        { stall := false, hit := true, value := q.wbValue, hazards := hazardEvents s name r,
          fwds := [.forward .mem name r q.wbValue] } := by
  have hm : memHit (some q) r = true := memHit_iff.2 ⟨q, rfl, hw, hrd⟩
  simp only [checkOperand, if_neg hr, hx, hq, hm]

/-- With no producer in flight the register file is read. -/
theorem checkOperand_of_no_producer {s : State} {r : RegIdx} (name : Source) (hr : r ≠ 0#5) (hx : exHit s.exmem r = false)
    (hm : memHit s.memwb r = false) :
    checkOperand s name (some r) = { stall := false, hit := false, value := s.readReg r, hazards := [], fwds := [] } := by
  simp only [checkOperand, if_neg hr, hx, hm]

/-- The rows of the table are all there is. -/
theorem checkOperand_rows (s : State) (src : Option RegIdx) :
    (src = none ∨ src = some 0#5) ∨
    (∃ r p, src = some r ∧ r ≠ 0#5 ∧ s.exmem = some p ∧ p.regWrite = true ∧ p.rd = some r) ∨
    (∃ r q, src = some r ∧ r ≠ 0#5 ∧ exHit s.exmem r = false ∧ s.memwb = some q ∧ q.regWrite = true ∧ q.rd = some r) ∨
    (∃ r, src = some r ∧ r ≠ 0#5 ∧ exHit s.exmem r = false ∧ memHit s.memwb r = false) := by
  cases src with
  | none => exact .inl (.inl rfl)
  | some r =>
    by_cases hr : r = 0#5
    · exact .inl (.inr (by rw [hr]))
    · cases hx : exHit s.exmem r with
      | true =>
        obtain ⟨p, hp, hw, hrd⟩ := exHit_iff.1 hx
        exact .inr (.inl ⟨r, p, rfl, hr, hp, hw, hrd⟩)
      | false =>
        cases hm : memHit s.memwb r with
        | true =>
          obtain ⟨q, hq, hw, hrd⟩ := memHit_iff.1 hm
          exact .inr (.inr (.inl ⟨r, q, rfl, hr, hx, hq, hw, hrd⟩))
        | false => exact .inr (.inr (.inr ⟨r, rfl, hr, hx, hm⟩))

theorem exHit_eq_false {e : Option EXMEM} {r : RegIdx} (h : ∀ p, e = some p → p.regWrite = true → p.rd ≠ some r) : exHit e r = false :=
  Bool.eq_false_iff.2 fun hx => by
    obtain ⟨p, hp, hw, hrd⟩ := exHit_iff.1 hx
    exact h p hp hw hrd

theorem memHit_eq_false {m : Option MEMWB} {r : RegIdx} (h : ∀ q, m = some q → q.regWrite = true → q.rd ≠ some r) :
    memHit m r = false :=
  Bool.eq_false_iff.2 fun hx => by
    obtain ⟨q, hq, hw, hrd⟩ := memHit_iff.1 hx
    exact h q hq hw hrd

/-- Settles O48: the rows of the table. -/
theorem hazardTable : Obligations.HazardTable := by
  unfold Obligations.HazardTable
  intro s name r hr
  refine ⟨fun p hp hw hrd => ?_, fun hx => ⟨fun q hq hw hrd => ?_, fun hm => ?_⟩, fun src h => ?_⟩
  · rw [checkOperand_of_exmem name hr hp hw hrd]
    exact ⟨fun h => by obtain h | h := h <;> simp [h], fun hf hl => by simp [hf, hl]⟩
  · rw [checkOperand_of_memwb name hr (exHit_eq_false hx) hq hw hrd]
    exact ⟨fun h => by simp [h], fun h => by simp [h]⟩
  · rw [checkOperand_of_no_producer name hr (exHit_eq_false hx) (memHit_eq_false hm)]
    exact ⟨rfl, rfl, rfl⟩
  · rw [checkOperand_of_none_or_zero s name h]
    exact ⟨rfl, rfl, rfl⟩

/-- A stall comes of a producer, and the check of an operand logs no flush. -/
theorem checkOperand_facts (s : State) (name : Source) (src : Option RegIdx) :
    ((checkOperand s name src).stall = true → (checkOperand s name src).hit = true) ∧
      NoFlush (checkOperand s name src).hazards ∧ NoFlush (checkOperand s name src).fwds := by
  obtain h | ⟨r, p, rfl, hr, hp, hw, hrd⟩ | ⟨r, q, rfl, hr, hx, hq, hw, hrd⟩ | ⟨r, rfl, hr, hx, hm⟩ := checkOperand_rows s src
  · simp [checkOperand_of_none_or_zero s name h]
  · rw [checkOperand_of_exmem name hr hp hw hrd]
    split <;> simp
  · rw [checkOperand_of_memwb name hr hx hq hw hrd]
    split <;> simp
  · simp [checkOperand_of_no_producer name hr hx hm]

/-- Decode stalls on the instruction d in state s. -/
def stallsOn (s : State) (d : Decoded) : Bool := (checkOperand s .rs1 d.rs1).stall || (checkOperand s .rs2 d.rs2).stall

/-- The front end in a cycle from s to t, after a flush or without one. -/
inductive Advances (s t : State) : Option (Word × Word) → Prop
  | flushed (pc next : Word) (hf : t.ifid = none) (hd : t.idex = none) (hp : t.pc = next) (hs : t.stats.stalls = s.stats.stalls)
      (he : t.events = [.flush pc next]) : Advances s t (some (pc, next))
  | empty (hf : s.ifid = none) (hd : t.idex = none) (hs : t.stats.stalls = s.stats.stalls) (he : t.events = [])
      (ha : Fetched t s.pc) : Advances s t none
  | stalled (f : IFID) (i : Instr) (hf : s.ifid = some f) (hi : decode f.word = some i) (hst : stallsOn t (decodedFields i) = true)
      (hd : t.idex = none) (hs : t.stats.stalls = s.stats.stalls + 1) (hz : t.stats.dataHazards = s.stats.dataHazards + 1)
      (he : Event.stall f.pc ∈ t.events) (hn : NoFlush t.events) (ha : Fetched t f.pc) : Advances s t none
  | issued (f : IFID) (i : Instr) (hf : s.ifid = some f) (hi : decode f.word = some i) (hst : stallsOn t (decodedFields i) = false)
      (hd : t.idex = some (issueRecord f (decodedFields i) (checkOperand t .rs1 (source1Of i)).value
        (checkOperand t .rs2 (source2Of i)).value))
      (hs : t.stats.stalls = s.stats.stalls) (hn : NoFlush t.events) (ha : Fetched t s.pc) : Advances s t none

theorem hazardUnit_hit_of_stall {s : State} {pc : Word} {d : Decoded} (h : (hazardUnit s pc d).stall = true) :
    (hazardUnit s pc d).state.stats.dataHazards = s.stats.dataHazards + 1 ∧
      (hazardUnit s pc d).state.stats.stalls = s.stats.stalls + 1 ∧ Event.stall pc ∈ (hazardUnit s pc d).state.events := by
  obtain ⟨h1, -⟩ := checkOperand_facts s .rs1 d.rs1
  obtain ⟨h2, -⟩ := checkOperand_facts s .rs2 d.rs2
  simp only [hazardUnit] at h
  have hhit : ((checkOperand s .rs1 d.rs1).hit || (checkOperand s .rs2 d.rs2).hit) = true := by
    rw [Bool.or_eq_true] at h ⊢
    exact h.imp h1 h2
  simp [hazardUnit, State.countHazards, hhit, h]

/-- The memory stage passes its record on. -/
theorem memStage_record {s t : State} (h : memStage s = .ok t) : t.memwb.map (·.toEXMEM) = s.exmem := by
  obtain ⟨hn, rfl⟩ | ⟨e, m, v, he, -, -, -, -, rfl⟩ := memStage_ok h
  · exact hn.symm
  · exact he.symm

/-- Execute leaves MEM/WB and data memory, and decode those and what execute wrote. -/
theorem exStage_memwb {s : State} {r : State × Option Word} (h : exStage s = .ok r) : (r.1.dmem, r.1.memwb) = (s.dmem, s.memwb) := by
  obtain ⟨i, d, e, b, q, st, ev, hr⟩ := exStage_frame h
  rw [hr]

theorem idStage_executeOut {s : State} {r : State × Option Word} (h : idStage s = .ok r) :
    r.1.executeOut = s.executeOut ∧ (r.1.dmem, r.1.memwb) = (s.dmem, s.memwb) := by
  obtain ⟨-, rfl⟩ | ⟨f, i, -, -, -, rfl⟩ | ⟨f, i, -, -, -, rfl⟩ := idStage_ok h <;> exact ⟨rfl, rfl⟩

theorem hazardUnit_noFlush {s : State} (h : NoFlush s.events) (pc : Word) (d : Decoded) : NoFlush (hazardUnit s pc d).state.events := by
  obtain ⟨-, hz1, hf1⟩ := checkOperand_facts s .rs1 d.rs1
  obtain ⟨-, hz2, hf2⟩ := checkOperand_facts s .rs2 d.rs2
  simp only [hazardUnit, State.logEvents_events, State.countHazards_events, noFlush_append]
  refine ⟨h, ⟨hz1, hz2⟩, ?_⟩
  split
  · simp [NoFlush]
  · exact noFlush_append.2 ⟨hf1, hf2⟩

/-! The cycle. -/

theorem wbStats_frame (m : Option MEMWB) (st : Stats) :
    (wbStats m st).cycles = st.cycles ∧ (wbStats m st).stalls = st.stalls ∧ (wbStats m st).dataHazards = st.dataHazards ∧
      (wbStats m st).ctrlHazards = st.ctrlHazards ∧ (wbStats m st).mispredicts = st.mispredicts := by
  unfold wbStats
  split
  · exact ⟨rfl, rfl, rfl, rfl, rfl⟩
  · split <;> exact ⟨rfl, rfl, rfl, rfl, rfl⟩

/-- The counters of retired instructions: all, memory, control and ALU. -/
def Stats.classes (st : Stats) : Nat × Nat × Nat × Nat := (st.retired, st.memCount, st.ctrlCount, st.aluCount)

/-- A completed cycle from s to t, with its flush if there is one. -/
structure Cycled (s t : State) (p : Option (Word × Word)) : Prop where
  x      : t.x = wbRegs s.memwb s.x
  cfg    : t.cfg = s.cfg
  imem   : t.imem = s.imem
  fwd    : t.fwd = s.fwd
  leaves : memLeaves s.cfg s.dmem s.exmem = (t.dmem, t.memwb)
  memory : ∃ u, memStage s = .ok u
  access : t.memwb.map (·.toEXMEM) = s.exmem
  counts : t.stats.classes = (wbStats s.memwb s.stats).classes
  cycles : t.stats.cycles = s.stats.cycles + 1
  status : t.status = if haltIn s.memwb then .halted else .running
  ex     : Executes s t p
  front  : Advances s t p

/-- Decode and fetch after execute, to the end of the cycle. -/
theorem advances_of_stages {s s5 : State} {r id : State × Option Word} {p : Option (Word × Word)} (b : Bool)
    (hr : frontAfterExecute s r p) (hpc : r.1.pc = s.pc) (hsl : r.1.stats.stalls = s.stats.stalls)
    (hdh : r.1.stats.dataHazards = s.stats.dataHazards) (hi : idStage r.1 = .ok id) (hf : ifStage id.1 r.2 id.2 = .ok s5) :
    Advances s (endCycle s5 b) p := by
  cases p with
  | some p =>
    obtain ⟨hred, hn, hev⟩ := hr
    obtain ⟨-, rfl⟩ | ⟨f, i, hff, -⟩ | ⟨f, i, hff, -⟩ := idStage_ok hi
    · rw [hred] at hf
      cases hf
      exact .flushed p.1 p.2 rfl rfl rfl hsl hev
    · rw [hn] at hff; cases hff
    · rw [hn] at hff; cases hff
  | none =>
    obtain ⟨hred, hfid, hev⟩ := hr
    rw [hred] at hf
    have hfetch : Fetched (endCycle s5 b) (id.2.getD id.1.pc) := (fetchAt_fetched hf).congr rfl rfl rfl rfl rfl
    rw [(idStage_same hi).1.pc.trans hpc] at hfetch
    obtain ⟨ic, pc, rfl⟩ := ifStage_frame hf
    obtain ⟨hn, rfl⟩ | ⟨f, i, hff, hdec, hst, rfl⟩ | ⟨f, i, hff, hdec, hst, rfl⟩ := idStage_ok hi
    · exact .empty (hfid.symm.trans hn) rfl hsl hev hfetch
    · obtain ⟨hz, hs, he⟩ := hazardUnit_hit_of_stall hst
      have hno : NoFlush (hazardUnit r.1 f.pc (decodedFields i)).state.events := hazardUnit_noFlush (by simp [hev]) _ _
      exact .stalled f i (hfid.symm.trans hff) hdec hst rfl (hs.trans (congrArg (· + 1) hsl)) (hz.trans (congrArg (· + 1) hdh)) he hno
        hfetch
    · have hno : NoFlush (hazardUnit r.1 f.pc (decodedFields i)).state.events := hazardUnit_noFlush (by simp [hev]) _ _
      refine .issued f i (hfid.symm.trans hff) hdec hst rfl ?_ hno hfetch
      rw [← hsl]
      simp only [hazardUnit] at hst
      simp [endCycle, hazardUnit, State.countHazards, hst]

theorem Completes.cycled {s s2 s5 : State} {ex id : State × Option Word} (hs : s.status = .running) (h : Completes s s2 ex id s5) :
    ∃ p, Cycled s (endCycle s5 (haltIn s.memwb)) p := by
  obtain ⟨hmem, hexec, hdec, hfetch⟩ := h
  have hs2 := memStage_leaves hmem
  have hs2st : s2.stats = wbStats s.memwb s.stats := by rw [hs2]; rfl
  obtain ⟨hcy, hsl, hdh, hch, hmp⟩ := wbStats_frame s.memwb s.stats
  obtain ⟨p, hex, hfront⟩ := exStage_executes hch hmp (hs2 ▸ hexec)
  have hexst := exStage_stats hexec
  have hidst := idStage_stats hdec
  rw [hs2st] at hexst
  have hpre := (memStage_same hmem).trans (exStage_same hexec).1
  have hadv := advances_of_stages (haltIn s.memwb) hfront hpre.pc ((congrArg Stats.stalls hexst).trans hsl)
    ((congrArg Stats.dataHazards hexst).trans hdh) hdec hfetch
  obtain ⟨hidout, hidmem⟩ := idStage_executeOut hdec
  have hleaves := (memLeaves_of_ok hmem).trans (hidmem.trans (exStage_memwb hexec)).symm
  have hcounts : id.1.stats.classes = (wbStats s.memwb s.stats).classes :=
    calc id.1.stats.classes = ex.1.stats.classes := by rw [hidst]; rfl
      _ = (wbStats s.memwb s.stats).classes := by rw [hexst]; rfl
  obtain ⟨hcfg, hx, -, himem, hfwd, hstatus, hcycles, -⟩ := hpre.trans (idStage_same hdec).1
  obtain ⟨i, q, rfl⟩ := ifStage_frame hfetch
  have haccess : id.1.memwb.map (·.toEXMEM) = s.exmem := by
    rw [(Prod.mk.inj (hidmem.trans (exStage_memwb hexec))).2]
    exact memStage_record (s := s.writtenBack) hmem
  refine ⟨p, hx, hcfg, himem, hfwd, hleaves, ⟨_, memStage_congr (s := s.writtenBack) (t := s) rfl rfl rfl hmem⟩, haccess, hcounts, congrArg (· + 1) (hcycles.trans hcy), ?_, hex.congr hidout, hadv⟩
  simp only [endCycle, hstatus.trans hs]

/-- A cycle that does not fault is a completed one. -/
theorem step_cycled {s t : State} (hs : s.status = .running) (h : step s = .next t) (hf : ¬t.hasFaulted) : ∃ p, Cycled s t p := by
  obtain ⟨s2, ex, id, s5, hc, rfl⟩ := step_completes hs h hf
  exact hc.cycled hs

/-! The statements about single cycles. -/

theorem eq_halt_of_mnemonicOf {i : Instr} (h : mnemonicOf i = .halt) : i = .halt := by
  cases i <;> simp [mnemonicOf] at h ⊢

theorem not_halt_of_control {d : IDEX} (h : recordCoherent d) (hc : d.isControl = true) : d.ins ≠ .halt := by
  obtain ⟨i, -, hd, hins, -⟩ := h.fields
  intro hi
  obtain rfl := eq_halt_of_mnemonicOf (hins.symm.trans hi)
  rw [hd] at hc
  exact absurd hc (by decide)

/-- Settles O44: execute flushes, and the front end takes the redirect. -/
theorem mispredictionFlushesAndRedirects : Obligations.MispredictionFlushesAndRedirects := by
  unfold Obligations.MispredictionFlushesAndRedirects
  intro s t d taken target hs hd hco hc hr hmis h hf
  obtain ⟨p, hcyc⟩ := step_cycled hs h hf
  have hex := hcyc.ex
  have hfront := hcyc.front
  cases hex with
  | bubble hn => rw [hd] at hn; cases hn
  | plain d' v hd' hv hc' =>
    cases hd.symm.trans hd'
    exact absurd hc' (by simp [not_halt_of_control hco hc, hc])
  | right d' f v tk tg hd' hn hv hc' hr' hff hp =>
    cases hd.symm.trans hd'
    cases hr.symm.trans hr'
    exact absurd hp (hmis f hff)
  | wrong d' v tk tg hd' hn hv hc' hr' hp hu =>
    cases hd.symm.trans hd'
    cases hr.symm.trans hr'
    cases hfront with
    | flushed _ _ hf hid hpc hsl he => exact ⟨hf, hid, hpc, congrArg ExecuteOut.mispredicts hu, hsl, he⟩

/-- Settles O45: execute flushes nothing, so that decode stalls the instruction in IF/ID or moves it on. -/
theorem correctPredictionGoesOn : Obligations.CorrectPredictionGoesOn := by
  unfold Obligations.CorrectPredictionGoesOn
  intro s t d f taken target hs hd hco hc hr hff hp h hf
  obtain ⟨p, hcyc⟩ := step_cycled hs h hf
  have hex := hcyc.ex
  have hfront := hcyc.front
  have hgo : p = none ∧ t.stats.mispredicts = s.stats.mispredicts := by
    cases hex with
    | bubble hn hu => exact ⟨rfl, congrArg ExecuteOut.mispredicts hu⟩
    | plain _ _ _ _ _ hu => exact ⟨rfl, congrArg ExecuteOut.mispredicts hu⟩
    | right _ _ _ _ _ _ _ _ _ _ _ _ hu => exact ⟨rfl, congrArg ExecuteOut.mispredicts hu⟩
    | wrong d' v tk tg hd' hn hv hc' hr' hmis =>
      cases hd.symm.trans hd'
      cases hr.symm.trans hr'
      exact absurd hp (hmis f hff)
  obtain ⟨rfl, hmp⟩ := hgo
  refine ⟨hmp, ?_⟩
  cases hfront with
  | empty hn => rw [hff] at hn; cases hn
  | stalled f' i hf' hi hst hid hs hz he hno =>
    cases hff.symm.trans hf'
    exact ⟨hno, .inr ⟨hid, he⟩⟩
  | issued f' i hf' hi hst hid hs hno =>
    cases hff.symm.trans hf'
    exact ⟨hno, .inl ⟨_, hid, rfl⟩⟩

end Sys2Proof.Machine
end

section
/-! The engine's invariant through a cycle: each stage keeps it, no stage is stuck on it, and each stage's errors have their causes. -/

namespace Sys2Proof.Machine

/-! Every stage keeps the invariant. -/

theorem EngineInv.writtenBack {s : State} (h : EngineInv s) : EngineInv s.writtenBack :=
  { h with
    x0Zero := (wbRegs_x0 s.memwb s.x).trans h.x0Zero
    countsAddUp := by
      have hadd := h.countsAddUp
      show (wbStats s.memwb s.stats).retired = _
      simp only [State.writtenBack, wbStats]
      split
      · exact hadd
      · split
        · exact hadd
        · exact State.countRetired_adds_up s _ _ hadd }

theorem EngineInv.raise {s : State} (h : EngineInv s) (e : Error) : EngineInv (s.raise e) := { h with }

theorem EngineInv.endCycle {s : State} (h : EngineInv s) (b : Bool) : EngineInv (endCycle s b) := { h with }

/-- A store of bytes of the data partition keeps data memory there. -/
theorem storeBytes_partition {m : Memory} {a v : Word} {n : Nat} (ha : accessInData a n)
    (hm : ∀ p ∈ m, dataBase ≤ p.1 ∧ p.1 < 2 ^ 32) : ∀ p ∈ storeBytes m a v n, dataBase ≤ p.1 ∧ p.1 < 2 ^ 32 := by
  intro p hp
  obtain hp | ⟨k, hk, hpk⟩ := mem_storeBytes hp
  · exact hm p hp
  · rw [hpk]
    exact ⟨by simpa [inDataSegment] using ha k hk, BitVec.isLt _⟩

theorem EngineInv.mem {s t : State} (h : EngineInv s) (ht : memStage s = .ok t) : EngineInv t := by
  obtain ⟨-, rfl⟩ | ⟨e, m, v, he, -, -, hm, -, rfl⟩ := memStage_ok ht
  · exact { h with memwbCoherent := by simp }
  · have hco : ∀ q, some (MEMWB.mk e v) = some q → recordCoherent q.toIDEX := by
      rintro q ⟨⟩
      exact h.exmemCoherent e he
    obtain ⟨-, rfl⟩ | ⟨-, n, -, ha, rfl⟩ := memStoreAccess_ok hm
    · exact { h with memwbCoherent := hco }
    · exact { h with
        dmemCanonical := storeBytes_wf h.dmemCanonical _ _ _
        dmemPartition := storeBytes_partition ha h.dmemPartition
        memwbCoherent := hco }

/-- A resolution's predictor update keeps a target for every taken direction. -/
theorem predictorClosed_update {bht : PMap Bool} {btb : PMap Word} (h : ∀ a, PMap.get bht a = some true → PMap.get btb a ≠ none) (k : Nat)
    (taken : Bool) (target : Word) (a : Nat) (ha : PMap.get (PMap.set bht k taken) a = some true) :
    PMap.get (if taken then PMap.set btb k target else btb) a ≠ none := by
  rw [PMap.get_set] at ha
  by_cases hk : a = k
  · subst hk
    rw [if_pos rfl] at ha
    cases ha
    simp
  · rw [if_neg hk] at ha
    cases taken with
    | true => simpa [PMap.get_set_other _ _ hk] using h a ha
    | false => exact h a ha

theorem EngineInv.ex {s : State} {r : State × Option Word} (h : EngineInv s) (hr : exStage s = .ok r) : EngineInv r.1 := by
  obtain ⟨-, rfl⟩ | ⟨d, hd, -, rfl⟩ | ⟨d, v, hd, -, -, -, rfl⟩ | ⟨d, v, taken, target, hd, -, -, -, -, rfl⟩ := exStage_ok hr
  · exact { h with exmemCoherent := by simp }
  · exact { h with exmemCoherent := fun e he => by cases he; exact h.idexCoherent d hd }
  · exact { h with exmemCoherent := fun e he => by cases he; exact h.idexCoherent d hd }
  · have hpred : EngineInv { (s.countResolved.updatePredictor d.pc taken target) with
        exmem := some { d with result := if d.isJal || d.isJalr then d.nextPc else v } } :=
      { h with
        bhtCanonical := PMap.wf_set h.bhtCanonical _ _
        btbCanonical := by
          cases taken with
          | true => exact PMap.wf_set h.btbCanonical _ _
          | false => exact h.btbCanonical
        predictorClosed := predictorClosed_update h.predictorClosed _ _ _
        exmemCoherent := fun e he => by cases he; exact h.idexCoherent d hd }
    obtain ⟨-, ha⟩ | ⟨-, ha⟩ := applyResolution_cases s d.pc taken target <;> rw [ha]
    · exact { hpred with ifidCoherent := by simp [flush], idexCoherent := by simp [flush] }
    · exact hpred

theorem EngineInv.id {s : State} {r : State × Option Word} (h : EngineInv s) (hr : idStage s = .ok r) : EngineInv r.1 := by
  obtain ⟨-, rfl⟩ | ⟨f, i, -, -, -, rfl⟩ | ⟨f, i, hf, hi, -, rfl⟩ := idStage_ok hr
  · exact { h with idexCoherent := by simp }
  · exact { h with idexCoherent := by simp }
  · exact { h with idexCoherent := fun d hd => by cases hd; exact ⟨h.ifidCoherent f hf, i, hi, rfl⟩ }

theorem EngineInv.fetch {s t : State} {redirect stallPc : Option Word} (h : EngineInv s) (ht : ifStage s redirect stallPc = .ok t) :
    EngineInv t := by
  obtain ⟨a, -, rfl⟩ | ⟨-, ht⟩ := ifStage_ok ht
  · exact { h with ifidCoherent := by simp }
  · obtain ⟨-, rfl⟩ | ⟨w, next, -, -, rfl⟩ := fetchAt_ok ht
    · exact { h with ifidCoherent := by simp }
    · exact { h with ifidCoherent := fun f hf => by cases hf; rfl }

/-- Settles O37: stage by stage, as far as the cycle comes. -/
theorem engineInvKept : Obligations.EngineInvKept := by
  unfold Obligations.EngineInvKept
  intro s t h hstep
  by_cases hs : s.status = .running
  · obtain ⟨e, -, rfl⟩ | ⟨s2, e, hm, -, rfl⟩ | ⟨s2, ex, e, hm, hx, -, rfl⟩ | ⟨s2, ex, id, e, hm, hx, hi, -, rfl⟩ |
      ⟨s2, ex, id, s5, ⟨hm, hx, hi, hf⟩, rfl⟩ := step_cases hs hstep
    · exact h.writtenBack.raise e
    · exact (h.writtenBack.mem hm).raise e
    · exact ((h.writtenBack.mem hm).ex hx).raise e
    · exact (((h.writtenBack.mem hm).ex hx).id hi).raise e
    · exact ((((h.writtenBack.mem hm).ex hx).id hi).fetch hf).endCycle _
  · rw [step_stopped hs] at hstep
    cases hstep
    exact h

/-! No stage is stuck. -/

theorem exStage_not_stuck {s : State} (h : ∀ d, s.idex = some d → recordCoherent d) (f : Fault) : exStage s ≠ .stuck f := by
  intro hx
  unfold exStage at hx
  split at hx
  · cases hx
  · rename_i d hd
    have hco := h d hd
    split at hx
    · cases hx
    · rename_i hn
      split at hx
      · cases hx
      · rename_i g hg
        exact exAlu_not_stuck s hco hn g hg
      · split at hx
        · rename_i hc
          obtain ⟨taken, target, hr⟩ := resolve_not_stuck s hco hc
          rw [hr] at hx
          cases hx
        · cases hx

theorem idStage_not_stuck (s : State) (f : Fault) : idStage s ≠ .stuck f := by
  unfold idStage
  split
  · simp
  · split
    · simp
    · simp only
      split <;> simp

/-- A taken direction has a target, so that the prediction answers. -/
theorem predictNext_ok {s : State} (h : EngineInv s) (a : Word) : ∃ next, predictNext s.bht s.btb a = .ok next := by
  unfold predictNext
  split
  · rename_i hb
    cases ht : PMap.get s.btb a.toNat with
    | some t => exact ⟨t, rfl⟩
    | none => exact absurd ht (h.predictorClosed _ hb)
  · exact ⟨_, rfl⟩

theorem ifStage_not_stuck {s : State} (h : EngineInv s) (redirect stallPc : Option Word) (f : Fault) :
    ifStage s redirect stallPc ≠ .stuck f := by
  unfold ifStage
  cases redirect with
  | some t => simp
  | none =>
    obtain ⟨next, hp⟩ := predictNext_ok h (stallPc.getD s.pc)
    simp only [fetchAt, hp]
    split <;> simp

/-- A stage that is not stuck, and after whose completion the cycle answers, lets the cycle answer. -/
theorem thenRun_answers {α : Type} {before : State} {o : StageOut α} {k : α → Host.Outcome State Fault Refusal}
    (ho : ∀ f, o ≠ .stuck f) (hk : ∀ a, o = .ok a → ∃ t, k a = .next t) : ∃ t, o.thenRun before k = .next t := by
  cases o with
  | ok a => exact hk a rfl
  | raise e => exact ⟨_, rfl⟩
  | stuck f => exact absurd rfl (ho f)

/-- Settles O36: each stage keeps the invariant, on which no stage is stuck. -/
theorem coherentEngineAlwaysSteps : Obligations.CoherentEngineAlwaysSteps := by
  unfold Obligations.CoherentEngineAlwaysSteps
  intro s h
  by_cases hs : s.status = .running
  · rw [step_running hs, runCycle, wbStage_cleared]
    have hwb := h.writtenBack
    refine thenRun_answers (memStage_not_stuck hwb.exmemCoherent) fun s2 hm => ?_
    have hmem := hwb.mem hm
    refine thenRun_answers (exStage_not_stuck hmem.idexCoherent) fun ex hx => ?_
    have hex := hmem.ex hx
    refine thenRun_answers (idStage_not_stuck _) fun id hi => ?_
    exact thenRun_answers (ifStage_not_stuck (hex.id hi) _ _) fun s5 _ => ⟨_, rfl⟩
  · exact ⟨s, step_stopped hs⟩

end Sys2Proof.Machine
end

section
/-! Where a cycle can end in an error (spec/60_exceptions.md R402), and what the predictor, a stall and the first cycles of an empty pipeline do. -/

namespace Sys2Proof.Machine

/-! The errors of the stages. -/

theorem memWrite_eq_error {m : Memory} {a v : Word} {n : Nat} {e : Error} (h : memWrite m a n v = .error e) :
    ∃ k < n, accessInData a k ∧ inDataSegment (a + BitVec.ofNat 32 k) = false ∧ e = .segmentAccessViolation (a + BitVec.ofNat 32 k) := by
  unfold memWrite at h
  split at h
  · rename_i b hb
    obtain ⟨k, hk, hin, hout, rfl⟩ := firstOutsideData_eq_some.mp hb
    exact ⟨k, hk, hin, hout, by cases h; rfl⟩
  · cases h

/-- A store raises for its first byte below DATA_BASE. -/
theorem memStoreAccess_raise {s : State} {e : EXMEM} {r : Error} (h : memStoreAccess s e = .raise r) :
    e.memWrite = true ∧ ∃ n, e.ins.accessWidth = some n ∧ ∃ k < n, accessInData e.result k ∧
      inDataSegment (e.result + BitVec.ofNat 32 k) = false ∧ r = .segmentAccessViolation (e.result + BitVec.ofNat 32 k) := by
  unfold memStoreAccess at h
  split at h
  · rename_i hw
    split at h
    · rename_i n hn
      split at h
      · cases h
      · rename_i r' hr
        cases h
        exact ⟨hw, n, hn, memWrite_eq_error hr⟩
    · cases h
  · cases h

theorem memLoadAccess_raise {s : State} {e : EXMEM} {m : Memory} {r : Error} (h : memLoadAccess s e m = .raise r) :
    e.memRead = true ∧ ∃ n, e.ins.accessWidth = some n ∧ memRead s.cfg.unwrittenDataRead m e.result n = .error r := by
  unfold memLoadAccess at h
  split at h
  · rename_i hr
    split at h
    · rename_i n hn
      split at h
      · cases h
      · rename_i r' hm
        cases h
        exact ⟨hr, n, hn, hm⟩
    · cases h
  · cases h

/-- The memory stage raises for ld and sd, or in the store or the load it makes. -/
theorem memStage_raise {s : State} {r : Error} (h : memStage s = .raise r) :
    ∃ e, s.exmem = some e ∧
      (((e.ins = .ld ∨ e.ins = .sd) ∧ r = .unsupportedWidth e.pc) ∨ memStoreAccess s e = .raise r ∨
        ∃ m, memStoreAccess s e = .ok m ∧ memLoadAccess s e m = .raise r) := by
  unfold memStage at h
  split at h
  · cases h
  · rename_i e he
    refine ⟨e, he, ?_⟩
    split at h
    · rename_i hi
      cases h
      exact .inl ⟨hi, rfl⟩
    · split at h
      · rename_i r' hr
        cases h
        exact .inr (.inl hr)
      · cases h
      · rename_i m hm
        split at h
        · rename_i r' hr
          cases h
          exact .inr (.inr ⟨m, hm, hr⟩)
        · cases h
        · cases h

theorem exStage_raise {s : State} {e : Error} (h : exStage s = .raise e) :
    ∃ d, s.idex = some d ∧ d.ins ≠ .halt ∧ exAlu s d = .raise e := by
  unfold exStage at h
  split at h
  · cases h
  · rename_i d hd
    refine ⟨d, hd, ?_⟩
    split at h
    · cases h
    · rename_i hn
      split at h
      · rename_i r hr
        cases h
        exact ⟨hn, hr⟩
      · cases h
      · split at h
        · split at h
          · rename_i r hr
            exact absurd hr (resolve_not_raise s d r)
          · cases h
          · cases h
        · cases h

theorem idStage_raise {s : State} {e : Error} (h : idStage s = .raise e) :
    ∃ f, s.ifid = some f ∧ decode f.word = none ∧ e = .unknownWord f.word := by
  unfold idStage at h
  split at h
  · cases h
  · rename_i f hf
    split at h
    · rename_i hi
      cases h
      exact ⟨f, hf, hi, rfl⟩
    · simp only at h
      split at h <;> cases h

theorem fetchAt_raise {s : State} {a : Word} {e : Error} (h : fetchAt s a = .raise e) :
    inDataSegment a = true ∧ e = .segmentAccessViolation a := by
  unfold fetchAt iMemReadWord at h
  split at h
  · rename_i r hr
    cases h
    split at hr
    · cases hr
      exact ⟨‹_›, rfl⟩
    · split at hr
      · cases hr
      · split at hr <;> cases hr
  · cases h
  · split at h <;> cases h

/-- Fetch raises for an address of the data partition, when there was no redirect. -/
theorem ifStage_raise {s : State} {redirect stallPc : Option Word} {e : Error} (h : ifStage s redirect stallPc = .raise e) :
    redirect = none ∧ inDataSegment (stallPc.getD s.pc) = true ∧ e = .segmentAccessViolation (stallPc.getD s.pc) := by
  cases redirect with
  | some t => cases h
  | none => exact ⟨rfl, fetchAt_raise h⟩

/-! The causes of an error. -/

/-- What the memory stage can raise. -/
def MemoryError (s : State) (e : Error) : Prop :=
  (∃ m, s.exmem = some m ∧ (m.ins = .ld ∨ m.ins = .sd) ∧ e = .unsupportedWidth m.pc) ∨
  (∃ m n k, s.exmem = some m ∧ (m.memRead = true ∨ m.memWrite = true) ∧ m.ins.accessWidth = some n ∧ k < n ∧
    accessInData m.result k ∧ (m.result + BitVec.ofNat 32 k).toNat < 0x10000000 ∧
    e = .segmentAccessViolation (m.result + BitVec.ofNat 32 k)) ∨
  (∃ m n k, s.exmem = some m ∧ m.memRead = true ∧ s.cfg.unwrittenDataRead = .fault ∧ m.ins.accessWidth = some n ∧ k < n ∧
    accessInData m.result n ∧ s.accessWritten m.result k ∧ Memory.byteAt s.dmem (m.result + BitVec.ofNat 32 k) = none ∧
    e = .unwrittenRead (m.result + BitVec.ofNat 32 k))

/-- A load stores nothing. -/
theorem memWrite_of_memRead {d : IDEX} (h : recordCoherent d) (hr : d.memRead = true) : d.memWrite = false := by
  obtain ⟨i, -, -, -, -, -, hri, hwi, -⟩ := h.fields
  rw [hri] at hr
  rw [hwi]
  cases i <;> first | rfl | cases hr

theorem below_of_not_inDataSegment {a : Word} (h : inDataSegment a = false) : a.toNat < 0x10000000 :=
  not_inDataSegment_iff.mp (by simp [h])

theorem memoryError_of_raise {s : State} {e : Error} (hco : ∀ m, s.exmem = some m → recordCoherent m.toIDEX)
    (h : memStage s = .raise e) : MemoryError s e := by
  obtain ⟨m, hm, ⟨hi, rfl⟩ | hst | ⟨dm, hst, hld⟩⟩ := memStage_raise h
  · exact .inl ⟨m, hm, hi, rfl⟩
  · obtain ⟨hw, n, hn, k, hk, hin, hout, rfl⟩ := memStoreAccess_raise hst
    exact .inr (.inl ⟨m, n, k, hm, .inr hw, hn, hk, hin, below_of_not_inDataSegment hout, rfl⟩)
  · obtain ⟨hr, n, hn, hread⟩ := memLoadAccess_raise hld
    have hdm : dm = s.dmem := by
      obtain ⟨-, hdm⟩ | ⟨hw, -⟩ := memStoreAccess_ok hst
      · exact hdm
      · rw [memWrite_of_memRead (hco m hm) hr] at hw
        cases hw
    rw [hdm] at hread
    obtain ⟨k, hk, hin, hout, rfl⟩ | ⟨hin, hu, k, hk, hwr, hn', rfl⟩ := memRead_eq_error.mp hread
    · exact .inr (.inl ⟨m, n, k, hm, .inl hr, hn, hk, hin, below_of_not_inDataSegment hout, rfl⟩)
    · exact .inr (.inr ⟨m, n, k, hm, hr, hu, hn, hk, hin, hwr, hn', rfl⟩)

/-- Without a flush decode and fetch look at the IF/ID record of the cycle's start. -/
theorem exStage_ifid {s : State} {r : State × Option Word} (h : exStage s = .ok r) :
    r.1.pc = s.pc ∧ ((r.1.ifid = none ∧ r.2 ≠ none) ∨ (r.1.ifid = s.ifid ∧ r.2 = none)) := by
  obtain ⟨-, rfl⟩ | ⟨d, -, -, rfl⟩ | ⟨d, v, -, -, -, -, rfl⟩ | ⟨d, v, taken, target, -, -, -, -, -, rfl⟩ := exStage_ok h
  · exact ⟨rfl, .inr ⟨rfl, rfl⟩⟩
  · exact ⟨rfl, .inr ⟨rfl, rfl⟩⟩
  · exact ⟨rfl, .inr ⟨rfl, rfl⟩⟩
  · obtain ⟨-, ha⟩ | ⟨-, ha⟩ := applyResolution_cases s d.pc taken target <;> rw [ha]
    · exact ⟨rfl, .inl ⟨rfl, by simp⟩⟩
    · exact ⟨rfl, .inr ⟨rfl, rfl⟩⟩

/-- The address fetched when decode is done: pc, or the stalled instruction's. -/
theorem idStage_fetchAddr {s : State} {r : State × Option Word} (h : idStage s = .ok r) :
    r.2.getD r.1.pc = s.pc ∨ ∃ f, s.ifid = some f ∧ r.2.getD r.1.pc = f.pc := by
  obtain ⟨-, rfl⟩ | ⟨f, i, hf, -, -, rfl⟩ | ⟨f, i, -, -, -, rfl⟩ := idStage_ok h
  · exact .inl rfl
  · exact .inr ⟨f, hf, rfl⟩
  · exact .inl rfl

/-- Settles O50: the stage that raises, with its cause. -/
theorem onlyTheStatedErrors : Obligations.OnlyTheStatedErrors := by
  unfold Obligations.OnlyTheStatedErrors
  intro s t e h hs hstep hfault
  obtain ⟨e', hm, rfl⟩ | ⟨s2, e', hm, hx, rfl⟩ | ⟨s2, ex, e', hm, hx, hi, rfl⟩ | ⟨s2, ex, id, e', hm, hx, hi, hf, rfl⟩ |
    ⟨s2, ex, id, s5, hc, rfl⟩ := step_cases hs hstep
  · cases hfault
    obtain h1 | h2 | h3 := memoryError_of_raise h.writtenBack.exmemCoherent hm
    · exact .inl h1
    · exact .inr (.inl h2)
    · exact .inr (.inr (.inl h3))
  · cases hfault
    obtain ⟨d, hd, -, hv⟩ := exStage_raise hx
    obtain ⟨m, w, rfl⟩ := memStage_frame hm
    obtain ⟨hins, hp, rfl⟩ := exAlu_raise hv
    exact .inr (.inr (.inr (.inl ⟨d, hd, hins, hp, rfl⟩)))
  · cases hfault
    obtain ⟨f, hff, hdec, rfl⟩ := idStage_raise hi
    obtain ⟨m, w, rfl⟩ := memStage_frame hm
    obtain ⟨-, ⟨hn, -⟩ | ⟨hifid, -⟩⟩ := exStage_ifid hx
    · rw [hn] at hff
      cases hff
    · exact .inr (.inr (.inr (.inr (.inl ⟨f, hifid.symm.trans hff, hdec, rfl⟩))))
  · cases hfault
    obtain ⟨hred, hin, rfl⟩ := ifStage_raise hf
    obtain ⟨m, w, rfl⟩ := memStage_frame hm
    obtain ⟨hpc, ⟨-, hne⟩ | ⟨hifid, -⟩⟩ := exStage_ifid hx
    · exact absurd hred hne
    · refine .inr (.inr (.inr (.inr (.inr ⟨_, rfl, of_decide_eq_true hin, ?_⟩))))
      obtain ha | ⟨f, hff, ha⟩ := idStage_fetchAddr hi
      · exact .inl (ha.trans hpc)
      · exact .inr ⟨f, hifid.symm.trans hff, ha⟩
  · obtain ⟨p, hcyc⟩ := hc.cycled hs
    rw [hcyc.status] at hfault
    split at hfault <;> cases hfault

/-! The predictor (R327). -/

/-- The predictor and the count of resolutions stay. -/
def State.samePredictor (s t : State) : Prop := t.bht = s.bht ∧ t.btb = s.btb ∧ t.stats.ctrlHazards = s.stats.ctrlHazards

/-- A cycle raises before execute completes, and then no resolution is made, or execute leaves its outcome to the cycle's end. -/
theorem step_executes {s t : State} (hs : s.status = .running) (h : step s = .next t) :
    (∃ e, memStage s.writtenBack = .raise e ∧ s.samePredictor t) ∨
    (∃ d e, s.idex = some d ∧ exAlu s d = .raise e ∧ s.samePredictor t) ∨
    (∃ s2 p, memStage s.writtenBack = .ok s2 ∧ Executes s t p) := by
  obtain ⟨hcy, hsl, hdh, hch, hmp⟩ := wbStats_frame s.memwb s.stats
  have hex : ∀ {s2 ex}, memStage s.writtenBack = .ok s2 → exStage s2 = .ok ex → ∃ p, Executes s ex.1 p := fun hm hx => by
    obtain ⟨p, hp, -⟩ := exStage_executes hch hmp (memStage_leaves hm ▸ hx)
    exact ⟨p, hp⟩
  obtain ⟨e, hm, rfl⟩ | ⟨s2, e, hm, hx, rfl⟩ | ⟨s2, ex, e, hm, hx, -, rfl⟩ | ⟨s2, ex, id, e, hm, hx, hi, -, rfl⟩ |
    ⟨s2, ex, id, s5, hc, rfl⟩ := step_cases hs h
  · exact .inl ⟨e, hm, rfl, rfl, hch⟩
  · obtain ⟨d, hd, -, hv⟩ := exStage_raise hx
    obtain ⟨m, w, rfl⟩ := memStage_frame hm
    exact .inr (.inl ⟨d, e, hd, hv, rfl, rfl, hch⟩)
  · obtain ⟨p, hp⟩ := hex hm hx
    exact .inr (.inr ⟨s2, p, hm, hp.congr rfl⟩)
  · obtain ⟨p, hp⟩ := hex hm hx
    exact .inr (.inr ⟨s2, p, hm, hp.congr (idStage_executeOut hi).1⟩)
  · obtain ⟨p, hp⟩ := hc.cycled hs
    exact .inr (.inr ⟨s2, p, hc.mem, hp.ex⟩)

/-- Execute of an instruction that is no control instruction leaves the predictor. -/
theorem Executes.samePredictor {s t : State} {p : Option (Word × Word)} (h : Executes s t p)
    (hc : ∀ d, s.idex = some d → d.isControl = false) : s.samePredictor t := by
  have hsame : ∀ {e}, t.executeOut = { s.executeOut with exmem := e } → s.samePredictor t := fun hu =>
    ⟨congrArg ExecuteOut.bht hu, congrArg ExecuteOut.btb hu, congrArg ExecuteOut.ctrlHazards hu⟩
  cases h with
  | bubble hd hu => exact hsame hu
  | plain d v hd hv hcd hu => exact hsame hu
  | right d f v taken target hd hn hv hcd => rw [hc d hd] at hcd; cases hcd
  | wrong d v taken target hd hn hv hcd => rw [hc d hd] at hcd; cases hcd

/-- Execute of a control instruction puts its EX/MEM record and its predictor entries, and counts the resolution. -/
theorem Executes.resolved {s t : State} {p : Option (Word × Word)} {d : IDEX} {taken : Bool} {target : Word} (h : Executes s t p)
    (hd : s.idex = some d) (hn : d.ins ≠ .halt) (hc : d.isControl = true) (hr : resolve s d = .ok (taken, target)) :
    t.bht = PMap.set s.bht d.pc.toNat taken ∧ t.btb = (if taken then PMap.set s.btb d.pc.toNat target else s.btb) ∧
      t.stats.ctrlHazards = s.stats.ctrlHazards + 1 := by
  cases h with
  | bubble hd' => rw [hd] at hd'; cases hd'
  | plain d' v hd' hv hc' =>
    cases hd.symm.trans hd'
    exact absurd hc' (by simp [hn, hc])
  | right d' f v tk tg hd' _ hv hc' hr' hf hp hu =>
    cases hd.symm.trans hd'
    cases hr.symm.trans hr'
    exact ⟨congrArg ExecuteOut.bht hu, congrArg ExecuteOut.btb hu, congrArg ExecuteOut.ctrlHazards hu⟩
  | wrong d' v tk tg hd' _ hv hc' hr' hp hu =>
    cases hd.symm.trans hd'
    cases hr.symm.trans hr'
    exact ⟨congrArg ExecuteOut.bht hu, congrArg ExecuteOut.btb hu, congrArg ExecuteOut.ctrlHazards hu⟩

theorem isControl_decodedFields (i : Instr) :
    (decodedFields i).isControl = ((mnemonicOf i).isBranch || (mnemonicOf i).isJal || (mnemonicOf i).isJalr) := rfl

/-- Division is no control instruction. -/
theorem exAlu_not_raise_of_control {s : State} {d : IDEX} (h : recordCoherent d) (hc : d.isControl = true) (e : Error) :
    exAlu s d ≠ .raise e := by
  intro hv
  obtain ⟨i, -, hd, hins, -⟩ := h.fields
  obtain ⟨hins', -⟩ := exAlu_raise hv
  rw [hins] at hins'
  rw [hd, isControl_decodedFields] at hc
  obtain hi | hi := hins' <;> rw [hi] at hc <;> exact absurd hc (by decide)

/-- Settles O46: the outcome of execute, if the cycle comes to it. -/
theorem predictorLearnsEveryResolution : Obligations.PredictorLearnsEveryResolution := by
  unfold Obligations.PredictorLearnsEveryResolution
  intro s t h hs hstep
  have hmem : ∀ {u}, memStage (wbStage s).1 = .ok u → ∃ v, memStage s.writtenBack = .ok v := fun hu =>
    ⟨_, memStage_congr (by simp [State.writtenBack]) (by simp [State.writtenBack]) (by simp [State.writtenBack]) hu⟩
  have hmem' : ∀ {v}, memStage s.writtenBack = .ok v → ∃ u, memStage (wbStage s).1 = .ok u := fun hv =>
    ⟨_, memStage_congr (by simp [State.writtenBack]) (by simp [State.writtenBack]) (by simp [State.writtenBack]) hv⟩
  have hcases := step_executes hs hstep
  refine ⟨fun hc => ?_, fun hno => ?_, fun d taken target s2 hm hd hc hr => ?_⟩
  · obtain ⟨e, -, hsame⟩ | ⟨d, e, -, -, hsame⟩ | ⟨s2, p, -, hx⟩ := hcases
    · exact hsame
    · exact hsame
    · exact hx.samePredictor hc
  · obtain ⟨e, -, hsame⟩ | ⟨d, e, -, -, hsame⟩ | ⟨s2, p, hv, -⟩ := hcases
    · exact hsame
    · exact hsame
    · obtain ⟨u, hu⟩ := hmem' hv
      exact absurd hu (hno u)
  · obtain ⟨v, hv⟩ := hmem hm
    have hco := h.idexCoherent d hd
    obtain ⟨e, he, -⟩ | ⟨d', e, hd', hv', -⟩ | ⟨s2, p, -, hx⟩ := hcases
    · rw [hv] at he
      cases he
    · cases hd.symm.trans hd'
      exact absurd hv' (exAlu_not_raise_of_control hco hc e)
    · obtain ⟨hbht, hbtb, hch⟩ := hx.resolved hd (not_halt_of_control hco hc) hc hr
      rw [hbht, hbtb]
      refine ⟨PMap.get_set_self _ _ _, ?_, fun k hk => ⟨PMap.get_set_other _ _ hk, ?_⟩, hch⟩
      · cases taken <;> simp
      · cases taken with
        | true => exact PMap.get_set_other _ _ hk
        | false => rfl

/-! Stalls (R332, R475). -/

/-- Settles O47: the stalled address is fetched again, and its word is there. -/
theorem stallKeepsTheInstruction : Obligations.StallKeepsTheInstruction := by
  unfold Obligations.StallKeepsTheInstruction
  intro s t h hpath hs hstep hf hst
  obtain ⟨p, hcyc⟩ := step_cycled hs hstep hf
  cases hcyc.front with
  | flushed _ _ _ _ _ hsl => exact absurd hsl hst
  | empty _ _ hsl => exact absurd hsl hst
  | issued _ _ _ _ _ _ hsl => exact absurd hsl hst
  | stalled f i hff hi hstall hd hsl hz he hno ha =>
    have hword : t.holdsWord f.pc f.word := by
      rw [State.holdsWord, hcyc.imem]
      exact hpath.ifidWord f hff
    cases ha with
    | miss hw => rw [State.holdsWord, hw] at hword; cases hword
    | hit w hw hfid hp =>
      have hrec : fetchRecord f.pc w = f := by
        cases hw.symm.trans hword
        obtain ⟨pc, next, word⟩ := f
        exact congrArg (IFID.mk pc · word) (h.ifidCoherent _ hff).symm
      refine ⟨f, hff, by rw [hfid, hrec], hd, hsl, hz, he, hp, fun hc => ?_⟩
      obtain ⟨hbht, hbtb, -⟩ := hcyc.ex.samePredictor hc
      rw [hbht, hbtb, hpath.fetchFollows f hff] at hp
      exact (Except.ok.inj hp).symm

/-! Cycles with little in flight. -/

/-- Settles O52: memory and execute pass bubbles on, and decode raises. -/
theorem unknownWordEndsAtDecode : Obligations.UnknownWordEndsAtDecode := by
  unfold Obligations.UnknownWordEndsAtDecode
  intro s f hs hf hdec hd he
  have hm : memStage s.writtenBack = .ok { s.writtenBack with memwb := none } := by simp [memStage, State.writtenBack, he]
  have hx : exStage { s.writtenBack with memwb := none } = .ok ({ s.writtenBack with memwb := none, exmem := none }, none) := by
    simp [exStage, State.writtenBack, hd]
  have hi : idStage { s.writtenBack with memwb := none, exmem := none } = .raise (.unknownWord f.word) := by
    simp [idStage, State.writtenBack, hf, hdec]
  obtain ⟨hcy, -⟩ := wbStats_frame s.memwb s.stats
  refine ⟨({ s.writtenBack with memwb := none, exmem := none }).raise (.unknownWord f.word), ?_, rfl, rfl, hf, rfl, hcy⟩
  rw [step_running hs, runCycle, wbStage_cleared]
  simp only [hm, StageOut.thenRun, hx, hi]

/-- With an empty pipeline a cycle is a fetch at pc. -/
theorem step_of_drained {s : State} (hs : s.status = .running) (h : s.drained) :
    step s = (fetchAt { s with events := [] } s.pc).thenRun { s with events := [] } fun t => .next (endCycle t false) := by
  obtain ⟨hf, hd, he, hm⟩ := h
  rw [step_running hs]
  cases s
  subst hf hd he hm
  rfl

theorem iMemReadWord_of_inDataSegment {m : Memory} {a : Word} (h : inDataSegment a = true) :
    iMemReadWord m a = .error (.segmentAccessViolation a) := if_pos h

/-- Settles O53: the three outcomes of a fetch. -/
theorem fetchFromAnEmptyPipeline : Obligations.FetchFromAnEmptyPipeline := by
  unfold Obligations.FetchFromAnEmptyPipeline
  intro s hs h
  rw [step_of_drained hs h]
  refine ⟨fun w hw hclosed => ?_, fun hw => ?_, fun hin => ?_⟩
  · have hp : predictNext s.bht s.btb s.pc = .ok (if PMap.get s.bht s.pc.toNat = some true then
        (PMap.get s.btb s.pc.toNat).getD 0#32 else s.pc + 4#32) := by
      unfold predictNext
      split
      · rename_i hb
        rw [if_pos hb]
        cases ht : PMap.get s.btb s.pc.toNat with
        | some t => rfl
        | none => exact absurd ht (hclosed hb)
      · rename_i hb
        rw [if_neg hb]
    have hw' : iMemReadWord s.imem s.pc = .ok (some w) := hw
    simp only [fetchAt, hw', hp, StageOut.thenRun, endCycle, Bool.false_eq_true, if_false]
    rfl
  · obtain ⟨hf, -⟩ := h
    simp only [fetchAt, hw, StageOut.thenRun, endCycle, Bool.false_eq_true, if_false, hf]
  · simp only [fetchAt, iMemReadWord_of_inDataSegment hin, StageOut.thenRun, State.raise]

end Sys2Proof.Machine
end

section
/-! One instruction's way through execute, memory and write-back is its meaning: a record whose operands are the registers of a state c leaves
of c, architecturally, what `exec` leaves of it. -/

namespace Sys2Proof.Machine

/-! Architectural states (spec/70_reset_and_hazards.md R478). -/

theorem architectural_congr {s t : State} (hcfg : s.cfg = t.cfg) (hx : s.x = t.x) (hpc : s.pc = t.pc) (himem : s.imem = t.imem)
    (hdmem : s.dmem = t.dmem) (hbht : s.bht = t.bht) (hbtb : s.btb = t.btb) (hcl : s.stats.classes = t.stats.classes)
    (hch : s.stats.ctrlHazards = t.stats.ctrlHazards) : s.architectural = t.architectural := by
  simp only [Stats.classes, Prod.mk.injEq] at hcl
  obtain ⟨hr, hm, hc, ha⟩ := hcl
  simp only [State.architectural, hcfg, hx, hpc, himem, hdmem, hbht, hbtb, hr, hm, hc, ha, hch]

/-- What architecturally equal states share. -/
theorem fields_of_architectural {s t : State} (h : s.architectural = t.architectural) :
    s.cfg = t.cfg ∧ s.x = t.x ∧ s.pc = t.pc ∧ s.imem = t.imem ∧ s.dmem = t.dmem ∧ s.bht = t.bht ∧ s.btb = t.btb ∧
      s.stats.classes = t.stats.classes ∧ s.stats.ctrlHazards = t.stats.ctrlHazards := by
  have hcfg : s.architectural.cfg = t.architectural.cfg := by rw [h]
  have hx : s.architectural.x = t.architectural.x := by rw [h]
  have hpc : s.architectural.pc = t.architectural.pc := by rw [h]
  have himem : s.architectural.imem = t.architectural.imem := by rw [h]
  have hdmem : s.architectural.dmem = t.architectural.dmem := by rw [h]
  have hbht : s.architectural.bht = t.architectural.bht := by rw [h]
  have hbtb : s.architectural.btb = t.architectural.btb := by rw [h]
  have hcl : s.architectural.stats.classes = t.architectural.stats.classes := by rw [h]
  have hch : s.architectural.stats.ctrlHazards = t.architectural.stats.ctrlHazards := by rw [h]
  exact ⟨hcfg, hx, hpc, himem, hdmem, hbht, hbtb, hcl, hch⟩

/-- The class counters after write-back depend on the class counters before it. -/
theorem classes_wbStats_congr {a b : Stats} (h : a.classes = b.classes) (m : Option MEMWB) :
    (wbStats m a).classes = (wbStats m b).classes := by
  simp only [Stats.classes, Prod.mk.injEq] at h ⊢
  obtain ⟨hr, hm, hc, ha⟩ := h
  unfold wbStats
  split
  · exact ⟨hr, hm, hc, ha⟩
  · split
    · exact ⟨hr, hm, hc, ha⟩
    · simp only [hr, hm, hc, ha, and_self]

/-- A state after the memory stage and write-back of the record e. -/
def State.retire (c : State) (e : EXMEM) : State :=
  { c with
    x := wbRegs (memLeaves c.cfg c.dmem (some e)).2 c.x
    dmem := (memLeaves c.cfg c.dmem (some e)).1
    stats := wbStats (memLeaves c.cfg c.dmem (some e)).2 c.stats }

/-- A state after a resolution: the next pc, the predictor's entries and the count. -/
def State.resolvedTo (c : State) (taken : Bool) (target : Word) : State :=
  { c with
    pc := resolvedNext c.pc taken target
    bht := PMap.set c.bht c.pc.toNat taken
    btb := if taken then PMap.set c.btb c.pc.toNat target else c.btb
    stats := { c.stats with ctrlHazards := c.stats.ctrlHazards + 1 } }

/-- The error the memory stage ends in on a record. -/
def memRaises (cfg : Config) (dm : Memory) (e : Option EXMEM) : Option Error :=
  match memStage (accessing cfg dm e) with
  | .ok _ => none
  | .raise r => some r
  | .stuck _ => none

/-- The status the record e leads a run of c to, once it has passed memory and write-back. -/
def State.retiredStatus (c : State) (e : EXMEM) : Status :=
  match memRaises c.cfg c.dmem (some e) with
  | some r => .faulted r
  | none => if e.ins = .halt then .halted else c.status

/-- The meaning of i at c leaves what c' is, architecturally, and the status st. -/
def execLeaves (i : Instr) (c c' : State) (st : Status) : Prop :=
  ∃ u, exec i c = .next u ∧ c'.architectural = u.architectural ∧ u.status = st

/-! The records of one class. -/

theorem memLeaves_load {cfg : Config} {dm : Memory} {e : EXMEM} {n : Nat} (hl : e.ins ≠ .ld) (hs : e.ins ≠ .sd) (hr : e.memRead = true)
    (hw : e.memWrite = false) (hn : e.ins.accessWidth = some n) :
    memLeaves cfg dm (some e) =
      match memRead cfg.unwrittenDataRead dm e.result n with
      | .ok v => (dm, some { e with wbValue := extendLoaded n v })
      | .error _ => (dm, none) := by
  simp only [memLeaves, memStage, accessing, hl, hs, or_self, if_false, memStoreAccess, hw, Bool.false_eq_true, memLoadAccess, hr, if_true,
    hn]
  cases memRead cfg.unwrittenDataRead dm e.result n <;> rfl

theorem memLeaves_store {cfg : Config} {dm : Memory} {e : EXMEM} {n : Nat} (hl : e.ins ≠ .ld) (hs : e.ins ≠ .sd) (hr : e.memRead = false)
    (hw : e.memWrite = true) (hn : e.ins.accessWidth = some n) :
    memLeaves cfg dm (some e) =
      match memWrite dm e.result n e.v2 with
      | .ok m => (m, some { e with wbValue := e.result })
      | .error _ => (dm, none) := by
  simp only [memLeaves, memStage, accessing, hl, hs, or_self, if_false, memStoreAccess, hw, Bool.false_eq_true, memLoadAccess, hr, if_true,
    hn]
  cases memWrite dm e.result n e.v2 <;> rfl

theorem memLeaves_no_access {cfg : Config} {dm : Memory} {e : EXMEM} (hl : e.ins ≠ .ld) (hs : e.ins ≠ .sd) (hr : e.memRead = false)
    (hw : e.memWrite = false) : memLeaves cfg dm (some e) = (dm, some { e with wbValue := e.result }) := by
  simp only [memLeaves, memStage, accessing, hl, hs, or_self, if_false, memStoreAccess, hw, Bool.false_eq_true, memLoadAccess, hr]

theorem memLeaves_doubleword {cfg : Config} {dm : Memory} {e : EXMEM} (h : e.ins = .ld ∨ e.ins = .sd) :
    memLeaves cfg dm (some e) = (dm, none) := by
  simp only [memLeaves, memStage, accessing, h, if_true]

theorem memRaises_load {cfg : Config} {dm : Memory} {e : EXMEM} {n : Nat} (hl : e.ins ≠ .ld) (hs : e.ins ≠ .sd) (hr : e.memRead = true)
    (hw : e.memWrite = false) (hn : e.ins.accessWidth = some n) :
    memRaises cfg dm (some e) =
      match memRead cfg.unwrittenDataRead dm e.result n with
      | .ok _ => none
      | .error r => some r := by
  simp only [memRaises, memStage, accessing, hl, hs, or_self, if_false, memStoreAccess, hw, Bool.false_eq_true, memLoadAccess, hr, if_true,
    hn]
  cases memRead cfg.unwrittenDataRead dm e.result n <;> rfl

theorem memRaises_store {cfg : Config} {dm : Memory} {e : EXMEM} {n : Nat} (hl : e.ins ≠ .ld) (hs : e.ins ≠ .sd) (hr : e.memRead = false)
    (hw : e.memWrite = true) (hn : e.ins.accessWidth = some n) :
    memRaises cfg dm (some e) =
      match memWrite dm e.result n e.v2 with
      | .ok _ => none
      | .error r => some r := by
  simp only [memRaises, memStage, accessing, hl, hs, or_self, if_false, memStoreAccess, hw, Bool.false_eq_true, memLoadAccess, hr, if_true,
    hn]
  cases memWrite dm e.result n e.v2 <;> rfl

theorem memRaises_no_access {cfg : Config} {dm : Memory} {e : EXMEM} (hl : e.ins ≠ .ld) (hs : e.ins ≠ .sd) (hr : e.memRead = false)
    (hw : e.memWrite = false) : memRaises cfg dm (some e) = none := by
  simp only [memRaises, memStage, accessing, hl, hs, or_self, if_false, memStoreAccess, hw, Bool.false_eq_true, memLoadAccess, hr]

theorem memRaises_doubleword {cfg : Config} {dm : Memory} {e : EXMEM} (h : e.ins = .ld ∨ e.ins = .sd) :
    memRaises cfg dm (some e) = some (.unsupportedWidth e.pc) := by
  simp only [memRaises, memStage, accessing, h, if_true]

theorem retiredStatus_of_error {c : State} {e : EXMEM} {r : Error} (h : memRaises c.cfg c.dmem (some e) = some r) :
    c.retiredStatus e = .faulted r := by
  rw [State.retiredStatus, h]

theorem retiredStatus_of_none {c : State} {e : EXMEM} (h : memRaises c.cfg c.dmem (some e) = none) (hn : e.ins ≠ .halt) :
    c.retiredStatus e = c.status := by
  rw [State.retiredStatus, h]
  exact if_neg hn

/-- The ID/EX record of i with the registers of c for its operands. -/
def recordOf (f : IFID) (i : Instr) (c : State) : IDEX :=
  issueRecord f (decodedFields i) (c.readSource (source1Of i)) (c.readSource (source2Of i))

/-- The EX/MEM record of i with the registers of c for its operands and v for its result. -/
def executedOf (f : IFID) (i : Instr) (c : State) (v : Word) : EXMEM := { recordOf f i c with result := v }

/-- A state after an instruction that is no control instruction. -/
def State.retireNext (c : State) (e : EXMEM) : State := { c.retire e with pc := c.pc + 4#32 }

/-- The ALU's output of a record that is neither the halt word's nor a jump's. -/
theorem alu_of_record {f : IFID} {i : Instr} {c : State} {op : AluOp} {a b v : Word} (hc : (decodedFields i).isControl = false)
    (hop : aluOpOf (mnemonicOf i) = some op) (ha : aluOperand1 (recordOf f i c) = a) (hb : aluOperand2 (recordOf f i c) = some b)
    (h : exResult c (recordOf f i c) = .ok v) : alu c.cfg.divPolicy op a b = some v := by
  have hn : (recordOf f i c).ins ≠ .halt := fun hi => by
    have hm : mnemonicOf i = .halt := hi
    rw [hm] at hop
    cases hop
  have hj : ((recordOf f i c).isJal || (recordOf f i c).isJalr) = false := not_jump_of_not_control hc
  have hop' : aluOpOf (recordOf f i c).ins = some op := hop
  simp only [exResult, if_neg hn, exAlu, hop', ha, hb, hj] at h
  cases hv : alu c.cfg.divPolicy op a b with
  | some w =>
    rw [hv] at h
    cases h
    rfl
  | none => rw [hv] at h; cases h

/-- The flags of an integer instruction. -/
theorem flags_of_isInteger {i : Instr} (h : isInteger i = true) :
    mnemonicOf i ≠ .halt ∧ mnemonicOf i ≠ .ld ∧ mnemonicOf i ≠ .sd ∧ (decodedFields i).memRead = false ∧
      (decodedFields i).memWrite = false ∧ (decodedFields i).regWrite = true ∧ (decodedFields i).isControl = false := by
  cases i <;> simp [isInteger] at h <;> exact ⟨nofun, nofun, nofun, rfl, rfl, rfl, rfl⟩

theorem wbRegs_of_dest {m : MEMWB} {rd : RegIdx} (x : Vector Word 32) (hn : m.ins ≠ .halt) (hw : m.regWrite = true)
    (hr : m.rd = some rd) : wbRegs (some m) x = regsAfterWrite x rd m.wbValue := by
  simp [wbRegs, hn, hw, hr]

/-- A retired instruction counts in its class. -/
theorem classes_wbStats {m : MEMWB} (st : Stats) (hn : m.ins ≠ .halt) :
    (wbStats (some m) st).classes =
      (st.retired + 1, st.memCount + (if m.memRead || m.memWrite then 1 else 0),
        st.ctrlCount + (if !(m.memRead || m.memWrite) && m.isControl then 1 else 0),
        st.aluCount + (if !(m.memRead || m.memWrite) && !m.isControl then 1 else 0)) := by
  simp [wbStats, hn, Stats.classes]

/-- A record that the memory stage leaves as (dm, m) makes of c what u is. -/
theorem retireNext_architectural {c u : State} {e : EXMEM} {dm : Memory} {m : Option MEMWB}
    (hl : memLeaves c.cfg c.dmem (some e) = (dm, m))
    (hu : u.cfg = c.cfg ∧ u.pc = c.pc + 4#32 ∧ u.imem = c.imem ∧ u.bht = c.bht ∧ u.btb = c.btb ∧
      u.stats.ctrlHazards = c.stats.ctrlHazards)
    (hx : wbRegs m c.x = u.x) (hd : dm = u.dmem) (hst : (wbStats m c.stats).classes = u.stats.classes) :
    (c.retireNext e).architectural = u.architectural := by
  obtain ⟨hcfg, hpc, himem, hbht, hbtb, hch⟩ := hu
  obtain ⟨-, -, -, hwch, -⟩ := wbStats_frame m c.stats
  apply architectural_congr <;> simp only [State.retireNext, State.retire, hl]
  · exact hcfg.symm
  · exact hx
  · exact hpc.symm
  · exact himem.symm
  · exact hd
  · exact hbht.symm
  · exact hbtb.symm
  · exact hst
  · exact hwch.trans hch.symm

/-- An integer instruction's record writes the result. -/
theorem integer_leaves {f : IFID} {i : Instr} {c : State} {rd : RegIdx} {v : Word} (hi : isInteger i = true) (hrd : destOf i = some rd)
    (hx : exec i c = .next (c.afterAlu rd v)) :
    execLeaves i c (c.retireNext (executedOf f i c v)) (c.retiredStatus (executedOf f i c v)) := by
  obtain ⟨hn, hl, hs, hr, hw, hreg, hc⟩ := flags_of_isInteger hi
  have hn' : (executedOf f i c v).ins ≠ .halt := hn
  have hr' : (executedOf f i c v).memRead = false := hr
  have hw' : (executedOf f i c v).memWrite = false := hw
  have hc' : (executedOf f i c v).isControl = false := hc
  refine ⟨_, hx, retireNext_architectural (memLeaves_no_access hl hs hr hw) ⟨rfl, rfl, rfl, rfl, rfl, rfl⟩
    (wbRegs_of_dest _ hn hreg hrd) rfl ?_, (retiredStatus_of_none (memRaises_no_access hl hs hr hw) hn).symm⟩
  rw [classes_wbStats _ hn]
  simp [hr', hw', hc', Stats.classes, State.afterAlu]

/-- A memory access that raises leaves the registers and data memory, and its instruction's meaning does too. -/
theorem failing_leaves {f : IFID} {i : Instr} {c : State} {v : Word} {e : Error}
    (hl : memLeaves c.cfg c.dmem (some (executedOf f i c v)) = (c.dmem, none))
    (hr : memRaises c.cfg c.dmem (some (executedOf f i c v)) = some e) (hx : exec i c = .next (c.afterFailure e)) :
    execLeaves i c (c.retireNext (executedOf f i c v)) (c.retiredStatus (executedOf f i c v)) :=
  ⟨_, hx, retireNext_architectural hl ⟨rfl, rfl, rfl, rfl, rfl, rfl⟩ rfl rfl rfl, (retiredStatus_of_error hr).symm⟩

/-- A load's record loads and writes what it loaded. -/
theorem load_leaves {f : IFID} {i : Instr} {c : State} {n : Nat} {rd rs1 : RegIdx} {imm : BitVec 12} {v : Word}
    (hi : (i = .lb rd rs1 imm ∧ n = 1) ∨ (i = .lh rd rs1 imm ∧ n = 2) ∨ (i = .lw rd rs1 imm ∧ n = 4))
    (hv : effectiveAddr c rs1 imm = v) :
    execLeaves i c (c.retireNext (executedOf f i c v)) (c.retiredStatus (executedOf f i c v)) := by
  have hleaves : memLeaves c.cfg c.dmem (some (executedOf f i c v)) =
      match memRead c.cfg.unwrittenDataRead c.dmem v n with
      | .ok r => (c.dmem, some { executedOf f i c v with wbValue := extendLoaded n r })
      | .error _ => (c.dmem, none) := by
    obtain ⟨rfl, rfl⟩ | ⟨rfl, rfl⟩ | ⟨rfl, rfl⟩ := hi <;> exact memLeaves_load nofun nofun rfl rfl rfl
  have hraises : memRaises c.cfg c.dmem (some (executedOf f i c v)) =
      match memRead c.cfg.unwrittenDataRead c.dmem v n with
      | .ok _ => none
      | .error r => some r := by
    obtain ⟨rfl, rfl⟩ | ⟨rfl, rfl⟩ | ⟨rfl, rfl⟩ := hi <;> exact memRaises_load nofun nofun rfl rfl rfl
  have hn : (executedOf f i c v).ins ≠ .halt := by obtain ⟨rfl, rfl⟩ | ⟨rfl, rfl⟩ | ⟨rfl, rfl⟩ := hi <;> nofun
  subst hv
  cases hm : memRead c.cfg.unwrittenDataRead c.dmem (effectiveAddr c rs1 imm) n with
  | ok r =>
    rw [hm] at hleaves hraises
    refine ⟨_, (exec_load_eq hi).trans (loadOp_ok hm), retireNext_architectural hleaves ⟨rfl, rfl, rfl, rfl, rfl, rfl⟩ ?_ rfl ?_,
      (retiredStatus_of_none hraises hn).symm⟩ <;>
      obtain ⟨rfl, rfl⟩ | ⟨rfl, rfl⟩ | ⟨rfl, rfl⟩ := hi <;> rfl
  | error e =>
    rw [hm] at hleaves hraises
    exact failing_leaves hleaves hraises ((exec_load_eq hi).trans (loadOp_error hm))

/-- A store's record stores. -/
theorem store_leaves {f : IFID} {i : Instr} {c : State} {n : Nat} {rs2 rs1 : RegIdx} {imm : BitVec 12} {v : Word}
    (hi : (i = .sb rs2 rs1 imm ∧ n = 1) ∨ (i = .sh rs2 rs1 imm ∧ n = 2) ∨ (i = .sw rs2 rs1 imm ∧ n = 4))
    (hv : effectiveAddr c rs1 imm = v) :
    execLeaves i c (c.retireNext (executedOf f i c v)) (c.retiredStatus (executedOf f i c v)) := by
  have hleaves : memLeaves c.cfg c.dmem (some (executedOf f i c v)) =
      match memWrite c.dmem v n (c.readReg rs2) with
      | .ok m => (m, some { executedOf f i c v with wbValue := v })
      | .error _ => (c.dmem, none) := by
    obtain ⟨rfl, rfl⟩ | ⟨rfl, rfl⟩ | ⟨rfl, rfl⟩ := hi <;> exact memLeaves_store nofun nofun rfl rfl rfl
  have hraises : memRaises c.cfg c.dmem (some (executedOf f i c v)) =
      match memWrite c.dmem v n (c.readReg rs2) with
      | .ok _ => none
      | .error r => some r := by
    obtain ⟨rfl, rfl⟩ | ⟨rfl, rfl⟩ | ⟨rfl, rfl⟩ := hi <;> exact memRaises_store nofun nofun rfl rfl rfl
  have hn : (executedOf f i c v).ins ≠ .halt := by obtain ⟨rfl, rfl⟩ | ⟨rfl, rfl⟩ | ⟨rfl, rfl⟩ := hi <;> nofun
  have hx := (exec_store_eq (s := c) hi).1
  subst hv
  cases hm : memWrite c.dmem (effectiveAddr c rs1 imm) n (c.readReg rs2) with
  | ok m =>
    obtain ⟨ha, rfl⟩ := memWrite_cases hm
    rw [hm] at hleaves hraises
    refine ⟨_, hx.trans (storeOp_ok ha), retireNext_architectural hleaves ⟨rfl, rfl, rfl, rfl, rfl, rfl⟩ ?_ rfl ?_,
      (retiredStatus_of_none hraises hn).symm⟩ <;>
      obtain ⟨rfl, rfl⟩ | ⟨rfl, rfl⟩ | ⟨rfl, rfl⟩ := hi <;> rfl
  | error e =>
    rw [hm] at hleaves hraises
    have hfail : storeOp n rs2 rs1 imm c = .next (c.afterFailure e) := by
      rw [storeOp, hm]
      rfl
    exact failing_leaves hleaves hraises (hx.trans hfail)

/-- An instruction that is no control instruction: execute, memory and write-back of its record are its meaning. -/
theorem plain_leaves {f : IFID} {i : Instr} {c : State} {v : Word} (hc : (decodedFields i).isControl = false) (hpc : f.pc = c.pc)
    (hv : exResult c (recordOf f i c) = .ok v) :
    execLeaves i c (c.retireNext (executedOf f i c v)) (c.retiredStatus (executedOf f i c v)) := by
  cases i with
  | add | sub | sll | slt | xor | srl | sra | or | and | mul | div | rem =>
    exact integer_leaves rfl rfl (regRegOp_some (alu_of_record hc rfl rfl rfl hv))
  | addi | andi | ori => exact integer_leaves rfl rfl (regImmOp_some (alu_of_record hc rfl rfl rfl hv))
  | lb => exact load_leaves (.inl ⟨rfl, rfl⟩) (Option.some.inj (alu_of_record (op := .add) hc rfl rfl rfl hv))
  | lh => exact load_leaves (.inr (.inl ⟨rfl, rfl⟩)) (Option.some.inj (alu_of_record (op := .add) hc rfl rfl rfl hv))
  | lw => exact load_leaves (.inr (.inr ⟨rfl, rfl⟩)) (Option.some.inj (alu_of_record (op := .add) hc rfl rfl rfl hv))
  | sb => exact store_leaves (.inl ⟨rfl, rfl⟩) (Option.some.inj (alu_of_record (op := .add) hc rfl rfl rfl hv))
  | sh => exact store_leaves (.inr (.inl ⟨rfl, rfl⟩)) (Option.some.inj (alu_of_record (op := .add) hc rfl rfl rfl hv))
  | sw => exact store_leaves (.inr (.inr ⟨rfl, rfl⟩)) (Option.some.inj (alu_of_record (op := .add) hc rfl rfl rfl hv))
  | ld => exact failing_leaves (memLeaves_doubleword (.inl rfl)) (memRaises_doubleword (.inl rfl)) (by rw [exec_ld, ← hpc]; rfl)
  | sd => exact failing_leaves (memLeaves_doubleword (.inr rfl)) (memRaises_doubleword (.inr rfl)) (by rw [exec_sd, ← hpc]; rfl)
  | lui rd imm =>
    have hsum : 0#32 + upperImm imm = v := Option.some.inj (alu_of_record (op := .add) hc rfl rfl rfl hv)
    rw [BitVec.zero_add] at hsum
    exact integer_leaves rfl rfl (hsum ▸ finishAlu_eq c rd (upperImm imm))
  | auipc rd imm =>
    have hsum : f.pc + upperImm imm = v := Option.some.inj (alu_of_record (op := .add) hc rfl rfl rfl hv)
    rw [hpc] at hsum
    exact integer_leaves rfl rfl (hsum ▸ finishAlu_eq c rd (c.pc + upperImm imm))
  | beq | bne | blt | bge | jal | jalr => exact absurd hc.symm Bool.false_ne_true
  | halt => exact ⟨_, rfl, rfl, rfl⟩

/-! Control instructions. -/

theorem decide_boolWord (b : Bool) : decide (some (boolWord b) = some 1#32) = b := by cases b <;> rfl

/-- A control instruction's record passes memory as it is and counts in its class. -/
theorem afterControl_leaves {f : IFID} {i : Instr} {c : State} {x : Vector Word 32} {v target : Word} {taken : Bool}
    (hc : (decodedFields i).isControl = true) (hregs : wbRegs (some { executedOf f i c v with wbValue := v }) c.x = x)
    (hx : exec i c = .next (c.afterControl x taken target)) :
    execLeaves i c ((c.retire (executedOf f i c v)).resolvedTo taken target) (c.retiredStatus (executedOf f i c v)) := by
  have hstatus : c.retiredStatus (executedOf f i c v) = c.status := by
    cases i <;> first | rfl | exact absurd hc Bool.false_ne_true
  refine ⟨_, hx, ?_, hstatus.symm⟩
  have hleaves : memLeaves c.cfg c.dmem (some (executedOf f i c v)) = (c.dmem, some { executedOf f i c v with wbValue := v }) := by
    cases i <;> first | rfl | exact absurd hc Bool.false_ne_true
  have hstats : wbStats (some { executedOf f i c v with wbValue := v }) c.stats =
      { c.stats with retired := c.stats.retired + 1, ctrlCount := c.stats.ctrlCount + 1 } := by
    cases i <;> first | rfl | exact absurd hc Bool.false_ne_true
  simp only [State.resolvedTo, State.retire, hleaves, hstats, hregs]
  rfl

/-- A control instruction: the record's resolution, execute, memory and write-back are its meaning. -/
theorem control_leaves {f : IFID} {i : Instr} {c : State} {v : Word} {taken : Bool} {target : Word}
    (hc : (decodedFields i).isControl = true) (hpc : f.pc = c.pc) (hnext : f.nextPc = f.pc + 4#32)
    (hr : resolve c (recordOf f i c) = .ok (taken, target)) (hv : exResult c (recordOf f i c) = .ok v) :
    execLeaves i c ((c.retire (executedOf f i c v)).resolvedTo taken target) (c.retiredStatus (executedOf f i c v)) := by
  cases i with
  | beq | bne | blt | bge =>
    obtain ⟨htaken, htarget⟩ := Prod.mk.inj (StageOut.ok.inj hr)
    rw [← htaken, ← htarget]
    refine afterControl_leaves hc rfl ?_
    simp only [exec_beq, exec_bne, exec_blt, exec_bge, ← hpc]
    exact congrArg (fun b => Host.Outcome.next (c.afterControl c.x b _)) (decide_boolWord _).symm
  | jal =>
    obtain ⟨rfl, rfl⟩ := Prod.mk.inj (StageOut.ok.inj hr)
    have hlink : f.nextPc = v := StageOut.ok.inj hv
    rw [hnext, hpc] at hlink
    refine afterControl_leaves hc rfl ?_
    rw [exec_jal, ← hlink, ← hpc]
    rfl
  | jalr =>
    obtain ⟨rfl, rfl⟩ := Prod.mk.inj (StageOut.ok.inj hr)
    have hlink : f.nextPc = v := StageOut.ok.inj hv
    rw [hnext, hpc] at hlink
    refine afterControl_leaves hc rfl ?_
    rw [exec_jalr, ← hlink]
    rfl
  | add | sub | sll | slt | xor | srl | sra | or | and | mul | div | rem | addi | andi | ori | lb | lh | lw | ld | sb | sh | sw | sd
  | lui | auipc | halt => exact absurd hc Bool.false_ne_true

/-- Execute raises exactly where the meaning does: an undefined division. -/
theorem exec_of_exAlu_raise {f : IFID} {i : Instr} {c : State} {e : Error} (hpc : f.pc = c.pc)
    (h : exAlu c (recordOf f i c) = .raise e) : exec i c = .next (c.afterFailure e) := by
  obtain ⟨hins, -, rfl⟩ := exAlu_raise h
  have halu : ∀ {op}, aluOpOf (mnemonicOf i) = some op → aluOperand2 (recordOf f i c) = some (c.readSource (source2Of i)) →
      alu c.cfg.divPolicy op (aluOperand1 (recordOf f i c)) (c.readSource (source2Of i)) = none := fun hop hb => by
    have hop' : aluOpOf (recordOf f i c).ins = _ := hop
    simp only [exAlu, hop', hb] at h
    split at h
    · cases h
    · assumption
  have hpc' : (recordOf f i c).pc = c.pc := hpc
  rw [hpc']
  cases i with
  | div | rem => exact regRegOp_none (halu rfl rfl)
  | _ =>
    obtain hins | hins := hins
    · exact Mnemonic.noConfusion hins
    · exact Mnemonic.noConfusion hins

end Sys2Proof.Machine
end

section
/-! The pipeline as an in-order machine (spec/70_reset_and_hazards.md R478): what the instructions past execute leave, and how a cycle moves it. -/

namespace Sys2Proof.Machine

/-! The completed state. -/

/-- The completed state, part by part. -/
theorem completed_eq (s : State) :
    s.completed = { s with
      x := wbRegs (memLeaves s.cfg s.dmem s.exmem).2 (wbRegs s.memwb s.x)
      dmem := (memLeaves s.cfg s.dmem s.exmem).1
      stats := wbStats (memLeaves s.cfg s.dmem s.exmem).2 (wbStats s.memwb s.stats)
      pc := s.nextToExecute, ifid := none, idex := none, exmem := none, memwb := none } := by
  have hwb : (wbStage s).1 = { s with x := wbRegs s.memwb s.x, stats := wbStats s.memwb s.stats } := congrArg Prod.fst (wbStage_eq s)
  unfold State.completed
  simp only [hwb]
  split
  · rename_i t ht
    have hl := memLeaves_of_ok ht
    obtain ⟨m, w, rfl⟩ := memStage_frame ht
    simp only at hl
    simp only [hl, wbStage_eq]
  · rename_i e he
    have hl := memLeaves_of_not_ok (s := { s with x := wbRegs s.memwb s.x, stats := wbStats s.memwb s.stats }) (by simp [he])
    simp only at hl
    simp only [hl]
    rfl
  · rename_i f hf
    have hl := memLeaves_of_not_ok (s := { s with x := wbRegs s.memwb s.x, stats := wbStats s.memwb s.stats }) (by simp [hf])
    simp only at hl
    simp only [hl]
    rfl

@[simp] theorem completed_cfg (s : State) : s.completed.cfg = s.cfg := by rw [completed_eq]
@[simp] theorem completed_imem (s : State) : s.completed.imem = s.imem := by rw [completed_eq]
@[simp] theorem completed_bht (s : State) : s.completed.bht = s.bht := by rw [completed_eq]
@[simp] theorem completed_btb (s : State) : s.completed.btb = s.btb := by rw [completed_eq]
@[simp] theorem completed_pc (s : State) : s.completed.pc = s.nextToExecute := by rw [completed_eq]

theorem completed_x (s : State) : s.completed.x = wbRegs (memLeaves s.cfg s.dmem s.exmem).2 (wbRegs s.memwb s.x) := by rw [completed_eq]

theorem completed_dmem (s : State) : s.completed.dmem = (memLeaves s.cfg s.dmem s.exmem).1 := by rw [completed_eq]

theorem completed_stats (s : State) :
    s.completed.stats = wbStats (memLeaves s.cfg s.dmem s.exmem).2 (wbStats s.memwb s.stats) := by rw [completed_eq]

theorem completed_ctrlHazards (s : State) : s.completed.stats.ctrlHazards = s.stats.ctrlHazards := by
  obtain ⟨-, -, -, h1, -⟩ := wbStats_frame s.memwb s.stats
  obtain ⟨-, -, -, h2, -⟩ := wbStats_frame (memLeaves s.cfg s.dmem s.exmem).2 (wbStats s.memwb s.stats)
  rw [completed_stats, h2, h1]

/-! How a cycle moves it. -/

/-- The EX/MEM record of a cycle's end joins the instructions completed before; execute has put it there. -/
theorem Cycled.completed_step {s t : State} {p : Option (Word × Word)} (h : Cycled s t p) :
    t.completed.x = wbRegs (memLeaves s.cfg s.completed.dmem t.exmem).2 s.completed.x ∧
    t.completed.dmem = (memLeaves s.cfg s.completed.dmem t.exmem).1 ∧
    t.completed.stats.classes = (wbStats (memLeaves s.cfg s.completed.dmem t.exmem).2 s.completed.stats).classes := by
  have hm : t.memwb = (memLeaves s.cfg s.dmem s.exmem).2 := by rw [h.leaves]
  have hd : t.dmem = s.completed.dmem := by rw [completed_dmem, h.leaves]
  have hx : wbRegs t.memwb t.x = s.completed.x := by rw [completed_x, hm, h.x]
  have hst : (wbStats t.memwb t.stats).classes = s.completed.stats.classes := by
    rw [completed_stats, hm]
    exact classes_wbStats_congr h.counts _
  refine ⟨?_, ?_, ?_⟩
  · rw [completed_x, h.cfg, hd, hx]
  · rw [completed_dmem, h.cfg, hd]
  · rw [completed_stats, h.cfg, hd]
    exact classes_wbStats_congr hst _

/-- The address of the instruction execute turns to after the one in ID/EX. -/
def State.frontPc (s : State) : Word :=
  match s.ifid with
  | some f => f.pc
  | none => s.pc

theorem nextToExecute_of_bubble {s : State} (h : s.idex = none) : s.nextToExecute = s.frontPc := by
  rw [State.nextToExecute, h]
  rfl

theorem nextToExecute_of_idex {s : State} {d : IDEX} (h : s.idex = some d) : s.nextToExecute = d.pc := by
  rw [State.nextToExecute, h]

theorem Fetched.frontPc {t : State} {a : Word} (h : Fetched t a) : t.frontPc = a := by
  cases h with
  | miss _ hf hp => rw [State.frontPc, hf]; exact hp
  | hit w _ hf => rw [State.frontPc, hf]; rfl

/-- Execute turns next to where the flush sent fetch, or to the next instruction in the front end. -/
theorem Advances.nextToExecute {s t : State} {p : Option (Word × Word)} (h : Advances s t p) :
    t.nextToExecute = match p with
      | some q => q.2
      | none => s.frontPc := by
  cases h with
  | flushed pc next hf hd hp => rw [nextToExecute_of_bubble hd, State.frontPc, hf]; exact hp
  | empty hf hd _ _ ha => rw [nextToExecute_of_bubble hd, ha.frontPc, State.frontPc, hf]
  | stalled f i hf _ _ hd _ _ _ _ ha => rw [nextToExecute_of_bubble hd, ha.frontPc, State.frontPc, hf]
  | issued f i hf _ _ hd => rw [nextToExecute_of_idex hd, State.frontPc, hf]; rfl

/-- A bubble in ID/EX leaves the completed state as it is. -/
theorem Cycled.completed_of_bubble {s t : State} {p : Option (Word × Word)} (h : Cycled s t p) (hd : s.idex = none) :
    t.completed.architectural = s.completed.architectural := by
  obtain ⟨hx, hdm, hcl⟩ := h.completed_step
  have hnext := h.front.nextToExecute
  cases h.ex with
  | plain d v hd' => rw [hd] at hd'; cases hd'
  | right d f v tk tg hd' => rw [hd] at hd'; cases hd'
  | wrong d v tk tg hd' => rw [hd] at hd'; cases hd'
  | bubble _ hu =>
    have he : t.exmem = none := congrArg ExecuteOut.exmem hu
    rw [he, memLeaves_none] at hx hdm hcl
    refine architectural_congr (by simp [h.cfg]) hx ?_ (by simp [h.imem]) hdm ?_ ?_ hcl ?_
    · rw [completed_pc, completed_pc, hnext, nextToExecute_of_bubble hd]
    · rw [completed_bht, completed_bht]
      exact congrArg ExecuteOut.bht hu
    · rw [completed_btb, completed_btb]
      exact congrArg ExecuteOut.btb hu
    · rw [completed_ctrlHazards, completed_ctrlHazards]
      exact congrArg ExecuteOut.ctrlHazards hu

/-- An EX/MEM record without a resolution joins the completed state. -/
theorem Cycled.completed_retireNext {s t : State} {p : Option (Word × Word)} {e : EXMEM} (h : Cycled s t p)
    (hu : t.executeOut = { s.executeOut with exmem := some e }) (hpc : t.nextToExecute = s.nextToExecute + 4#32) :
    t.completed.architectural = (s.completed.retireNext e).architectural := by
  obtain ⟨hx, hdm, hcl⟩ := h.completed_step
  have he : t.exmem = some e := congrArg ExecuteOut.exmem hu
  obtain ⟨-, -, -, hwch, -⟩ := wbStats_frame (memLeaves s.completed.cfg s.completed.dmem (some e)).2 s.completed.stats
  rw [he] at hx hdm hcl
  rw [← completed_cfg s] at hx hdm hcl
  refine architectural_congr (by simp [h.cfg, State.retireNext, State.retire]) hx ?_ (by simp [h.imem, State.retireNext, State.retire]) hdm
    ?_ ?_ hcl ?_
  · simp only [State.retireNext, completed_pc, hpc]
  · simp only [State.retireNext, State.retire, completed_bht]
    exact congrArg ExecuteOut.bht hu
  · simp only [State.retireNext, State.retire, completed_btb]
    exact congrArg ExecuteOut.btb hu
  · rw [completed_ctrlHazards]
    exact (congrArg ExecuteOut.ctrlHazards hu).trans ((completed_ctrlHazards s).symm.trans hwch.symm)

/-- An EX/MEM record with its resolution joins the completed state. -/
theorem Cycled.completed_resolvedTo {s t : State} {p : Option (Word × Word)} {e : EXMEM} {taken : Bool} {target : Word} {mp : Nat}
    (h : Cycled s t p)
    (hu : t.executeOut =
      { exmem := some e
        bht := PMap.set s.bht s.nextToExecute.toNat taken
        btb := if taken then PMap.set s.btb s.nextToExecute.toNat target else s.btb
        ctrlHazards := s.stats.ctrlHazards + 1
        mispredicts := mp })
    (hpc : t.nextToExecute = resolvedNext s.nextToExecute taken target) :
    t.completed.architectural = ((s.completed.retire e).resolvedTo taken target).architectural := by
  obtain ⟨hx, hdm, hcl⟩ := h.completed_step
  have he : t.exmem = some e := congrArg ExecuteOut.exmem hu
  obtain ⟨-, -, -, hwch, -⟩ := wbStats_frame (memLeaves s.completed.cfg s.completed.dmem (some e)).2 s.completed.stats
  rw [he] at hx hdm hcl
  rw [← completed_cfg s] at hx hdm hcl
  refine architectural_congr (by simp [h.cfg, State.resolvedTo, State.retire]) hx ?_ (by simp [h.imem, State.resolvedTo, State.retire]) hdm
    ?_ ?_ hcl ?_
  · simp only [State.resolvedTo, State.retire, completed_pc, hpc]
  · simp only [State.resolvedTo, State.retire, completed_bht, completed_pc]
    exact congrArg ExecuteOut.bht hu
  · simp only [State.resolvedTo, State.retire, completed_btb, completed_pc]
    exact congrArg ExecuteOut.btb hu
  · rw [completed_ctrlHazards]
    refine (congrArg ExecuteOut.ctrlHazards hu).trans (congrArg (· + 1) ?_)
    exact (completed_ctrlHazards s).symm.trans hwch.symm

/-- Operands that are the registers of c make a coherent record one of `recordOf`. -/
theorem eq_recordOf {d : IDEX} {i : Instr} {c : State} (hi : d.toDecoded = decodedFields i) (h1 : d.v1 = c.readSource d.rs1)
    (h2 : d.v2 = c.readSource d.rs2) : d = recordOf d.toIFID i c := by
  obtain ⟨f, dd, v1, v2⟩ := d
  subst hi
  exact congrArg₂ (IDEX.mk f (decodedFields i)) h1 h2

theorem exAlu_congr {s t : State} (h : t.cfg = s.cfg) (d : IDEX) : exAlu t d = exAlu s d := by simp only [exAlu, h]

theorem exResult_congr {s t : State} (h : t.cfg = s.cfg) (d : IDEX) : exResult t d = exResult s d := by
  simp only [exResult, exAlu_congr h]

theorem resolve_congr {s t : State} (h : t.cfg = s.cfg) (d : IDEX) : resolve t d = resolve s d := by simp only [resolve, h]

/-- Only a halt record executes without an ALU, and it is no control instruction. -/
theorem isControl_of_halt {d : IDEX} {i : Instr} (h : d.toDecoded = decodedFields i) (hi : d.ins = .halt) : d.isControl = false := by
  have hm : mnemonicOf i = .halt := by
    rw [← hi, h]
    rfl
  obtain rfl := eq_halt_of_mnemonicOf hm
  rw [h]
  rfl

/-- Retiring a record depends on the architectural state. -/
theorem retire_congr {c c' : State} (h : c.architectural = c'.architectural) (e : EXMEM) :
    (c.retire e).architectural = (c'.retire e).architectural := by
  obtain ⟨hcfg, hx, hpc, himem, hdm, hbht, hbtb, hcl, hch⟩ := fields_of_architectural h
  obtain ⟨-, -, -, h1, -⟩ := wbStats_frame (memLeaves c.cfg c.dmem (some e)).2 c.stats
  obtain ⟨-, -, -, h2, -⟩ := wbStats_frame (memLeaves c'.cfg c'.dmem (some e)).2 c'.stats
  have hcounts := classes_wbStats_congr hcl (memLeaves c'.cfg c'.dmem (some e)).2
  refine architectural_congr hcfg ?_ hpc himem ?_ hbht hbtb ?_ (h1.trans (hch.trans h2.symm)) <;>
    simp only [State.retire, hcfg, hdm, hx, hcounts]

theorem retireNext_congr {c c' : State} (h : c.architectural = c'.architectural) (e : EXMEM) :
    (c.retireNext e).architectural = (c'.retireNext e).architectural := by
  obtain ⟨-, -, hp, -⟩ := fields_of_architectural h
  obtain ⟨hcfg, hx, -, himem, hdm, hbht, hbtb, hcl, hch⟩ := fields_of_architectural (retire_congr h e)
  exact architectural_congr hcfg hx (congrArg (· + 4#32) hp) himem hdm hbht hbtb hcl hch

theorem resolvedTo_congr {c c' : State} (h : c.architectural = c'.architectural) (taken : Bool) (target : Word) :
    (c.resolvedTo taken target).architectural = (c'.resolvedTo taken target).architectural := by
  obtain ⟨hcfg, hx, hp, himem, hdm, hbht, hbtb, hcl, hch⟩ := fields_of_architectural h
  refine architectural_congr hcfg hx ?_ himem hdm ?_ ?_ hcl (congrArg (· + 1) hch) <;> simp only [State.resolvedTo, hp, hbht, hbtb]

/-- A completed cycle runs the meaning of the instruction in ID/EX, whose operands are current, on the completed state c. -/
theorem Cycled.completed_of_idex {s t c : State} {p : Option (Word × Word)} {d : IDEX} (h : Cycled s t p) (hd : s.idex = some d)
    (hco : recordCoherent d) (hc : s.completed.architectural = c.architectural)
    (hops : d.v1 = c.readSource d.rs1 ∧ d.v2 = c.readSource d.rs2) (hseq : d.isControl = false → s.frontPc = d.pc + 4#32) :
    ∃ i e, decode d.word = some i ∧ t.exmem = some e ∧ execLeaves i c t.completed (c.retiredStatus e) := by
  obtain ⟨hlink, i, hi, hdec⟩ := hco
  have hrec := eq_recordOf hdec hops.1 hops.2
  obtain ⟨hcfg, -, hcpc, -⟩ := fields_of_architectural hc
  rw [completed_cfg] at hcfg
  have hexec : ∀ v, executedOf d.toIFID i c v = EXMEM.mk d v := fun v => by rw [executedOf, ← hrec]
  have hres : ∀ {v}, exResult s d = .ok v → exResult c (recordOf d.toIFID i c) = .ok v := fun hv => by
    rw [← hrec, exResult_congr hcfg.symm, hv]
  have hresolve : ∀ {r}, resolve s d = .ok r → resolve c (recordOf d.toIFID i c) = .ok r := fun hr => by
    rw [← hrec, resolve_congr hcfg.symm, hr]
  have hpc : s.nextToExecute = d.pc := nextToExecute_of_idex hd
  rw [completed_pc, hpc] at hcpc
  have hnext := h.front.nextToExecute
  cases h.ex with
  | bubble hd' => rw [hd] at hd'; cases hd'
  | plain d' v hd' hv hcd hu =>
    cases hd.symm.trans hd'
    have hplain : d.isControl = false := hcd.elim (isControl_of_halt hdec) id
    obtain ⟨u, hx, harch, hst⟩ := plain_leaves (by rw [← hdec]; exact hplain) hcpc (hres hv)
    rw [hexec] at harch hst
    have hstep := (h.completed_retireNext hu (by rw [hnext, hpc, hseq hplain])).trans (retireNext_congr hc _)
    exact ⟨i, _, hi, congrArg ExecuteOut.exmem hu, u, hx, hstep.trans harch, hst⟩
  | right d' f v taken target hd' hn hv hcd hr hf hp hu =>
    cases hd.symm.trans hd'
    obtain ⟨u, hx, harch, hst⟩ := control_leaves (by rw [← hdec]; exact hcd) hcpc hlink (hresolve hr) (hres hv)
    rw [hexec] at harch hst
    have hfront : s.frontPc = f.pc := by rw [State.frontPc, hf]
    have hstep := (h.completed_resolvedTo (hpc ▸ hu) (by rw [hnext, hpc, hfront, hp])).trans (resolvedTo_congr (retire_congr hc _) _ _)
    exact ⟨i, _, hi, congrArg ExecuteOut.exmem hu, u, hx, hstep.trans harch, hst⟩
  | wrong d' v taken target hd' hn hv hcd hr hp hu =>
    cases hd.symm.trans hd'
    obtain ⟨u, hx, harch, hst⟩ := control_leaves (by rw [← hdec]; exact hcd) hcpc hlink (hresolve hr) (hres hv)
    rw [hexec] at harch hst
    have hstep := (h.completed_resolvedTo (hpc ▸ hu) (by rw [hnext, hpc])).trans (resolvedTo_congr (retire_congr hc _) _ _)
    exact ⟨i, _, hi, congrArg ExecuteOut.exmem hu, u, hx, hstep.trans harch, hst⟩

theorem PathInv.frontPc {s : State} (h : PathInv s) {d : IDEX} (hd : s.idex = some d) (hc : d.isControl = false) :
    s.frontPc = d.pc + 4#32 := by
  obtain ⟨hf, hn⟩ := h.sequentialPath d hd hc
  unfold State.frontPc
  cases hfid : s.ifid with
  | some f => exact hf f hfid
  | none => exact hn hfid

/-- Settles O39: a bubble in ID/EX leaves the completed state, and an instruction there has the meaning's effect on it. -/
theorem pipelineRefinesInOrder : Obligations.PipelineRefinesInOrder := by
  unfold Obligations.PipelineRefinesInOrder
  intro s t h hpath hs hstep hf
  obtain ⟨p, hcyc⟩ := step_cycled hs hstep hf
  refine ⟨hcyc.completed_of_bubble, fun d hd => ?_⟩
  obtain ⟨i, e, hi, -, u, hu, harch, -⟩ := hcyc.completed_of_idex hd (h.idexCoherent d hd) rfl (hpath.operandsCurrent d hd) (hpath.frontPc hd)
  exact ⟨i, u, hi, by rw [completed_pc, nextToExecute_of_idex hd], hu, harch⟩

end Sys2Proof.Machine
end

section
/-! The placing of one instruction (log entry 9) and the step that runs it. -/

namespace Sys2Proof.Machine

/-- With nothing in EX/MEM and MEM/WB every operand is read from the register file. -/
theorem checkOperand_of_empty {s : State} (he : s.exmem = none) (hm : s.memwb = none) (name : Source) (src : Option RegIdx) :
    checkOperand s name src = { stall := false, hit := false, value := s.readSource src, hazards := [], fwds := [] } := by
  obtain h | ⟨r, p, rfl, hr, hp, hw, hrd⟩ | ⟨r, q, rfl, hr, hx, hq, hw, hrd⟩ | ⟨r, rfl, hr, hx, hno⟩ := checkOperand_rows s src
  · obtain rfl | rfl := h <;> rfl
  · rw [he] at hp; cases hp
  · rw [hm] at hq; cases hq
  · exact checkOperand_of_no_producer name hr hx hno

theorem recordOf_congr {c c' : State} (h : c'.x = c.x) (f : IFID) (i : Instr) : recordOf f i c' = recordOf f i c := by
  simp only [recordOf, State.readSource_congr h]

/-- Decode of an instruction behind an empty pipeline. -/
theorem idStage_of_empty {s : State} {f : IFID} {i : Instr} (hf : s.ifid = some f) (hi : decode f.word = some i) (he : s.exmem = none)
    (hm : s.memwb = none) : idStage s = .ok ({ s with idex := some (recordOf f i s) }, none) := by
  have hcheck := checkOperand_of_empty he hm
  have hstate : (hazardUnit s f.pc (decodedFields i)).state = s := by
    simp [hazardUnit, hcheck, State.countHazards, State.logEvents]
  simp only [idStage, hf, hi, hstate]
  simp only [hazardUnit, hcheck, Bool.or_self, Bool.false_eq_true, if_false]
  rfl

/-- The placed address lies, with the one after it, in the instruction partition, and is aligned. -/
theorem placeAddr_fetchable (s : State) : inDataSegment s.placeAddr = false ∧ inDataSegment (s.placeAddr + 4#32) = false ∧
    s.placeAddr.extractLsb' 0 2 = 0#2 := by
  unfold State.placeAddr
  split
  · decide
  · rename_i h
    simpa [and_assoc] using h

/-- The placed instruction stands in ID/EX of an otherwise empty pipeline, with the registers for its operands. -/
theorem withFetchWord_eq {s : State} {w : Word} {i : Instr} (hi : decode w = some i) :
    s.withFetchWord 32 w.toNat = { s with
      imem := storeInstrWord s.imem s.placeAddr w
      pc := s.placeAddr + 4#32
      ifid := none
      idex := some (recordOf (fetchRecord s.placeAddr w) i s)
      exmem := none
      memwb := none
      status := .running } := by
  have hw : BitVec.ofNat 32 (w.toNat % 2 ^ 32) = w := by rw [Nat.mod_eq_of_lt w.isLt, BitVec.ofNat_toNat, BitVec.setWidth_eq]
  have hid := idStage_of_empty (s := s.withFetched s.placeAddr w) (f := fetchRecord s.placeAddr w) rfl hi rfl rfl
  rw [State.withFetchWord, hw]
  simp only [hid]
  rfl

theorem inDataSegment_eq_false {a : Word} : inDataSegment a = false ↔ a.toNat < dataBase := by
  rw [inDataSegment, decide_eq_false_iff_not, not_le]

theorem byte_below_of_aligned {a : Word} (hin : inDataSegment a = false) (hal : a.extractLsb' 0 2 = 0#2) {k : Nat} (hk : k < 4) :
    (a + BitVec.ofNat 32 k).toNat < dataBase := by
  rw [inDataSegment_eq_false] at hin
  rw [aligned_iff] at hal
  have hbase : dataBase = 0x10000000 := rfl
  rw [BitVec.toNat_add, BitVec.toNat_ofNat]
  omega

theorem engineInv_withFetchWord {s : State} {w : Word} {i : Instr} (h : EngineInv s) (hi : decode w = some i) :
    EngineInv (s.withFetchWord 32 w.toNat) := by
  obtain ⟨hin, -, hal⟩ := placeAddr_fetchable s
  rw [withFetchWord_eq hi]
  exact { h with
    imemCanonical := storeBytes_wf h.imemCanonical _ _ _
    imemPartition := fun p hp => by
      obtain hp | ⟨k, hk, hpk⟩ := mem_storeBytes hp
      · exact h.imemPartition p hp
      · exact hpk ▸ byte_below_of_aligned hin hal hk
    ifidCoherent := by simp
    idexCoherent := fun d hd => by
      cases hd
      exact ⟨rfl, i, hi, rfl⟩
    exmemCoherent := by simp
    memwbCoherent := by simp }

/-- With nothing in IF/ID and a fetch address of the instruction partition, only memory and execute can raise. -/
theorem step_of_empty_front {q t : State} (hs : q.status = .running) (hf : q.ifid = none) (hin : inDataSegment q.pc = false)
    (h : step q = .next t) :
    (∃ r, memStage q.writtenBack = .raise r ∧ t = q.writtenBack.raise r) ∨
    (∃ u d r, memStage q.writtenBack = .ok u ∧ q.idex = some d ∧ exAlu q d = .raise r ∧ t = u.raise r) ∨ ∃ p, Cycled q t p := by
  obtain ⟨e, hm, rfl⟩ | ⟨s2, e, hm, hx, rfl⟩ | ⟨s2, ex, e, hm, hx, hi, rfl⟩ | ⟨s2, ex, id, e, hm, hx, hi, hfe, rfl⟩ |
    ⟨s2, ex, id, s5, hc, rfl⟩ := step_cases hs h
  · exact .inl ⟨e, hm, rfl⟩
  · obtain ⟨d, hd, -, hv⟩ := exStage_raise hx
    refine .inr (.inl ⟨s2, d, e, hm, ?_, ?_, rfl⟩) <;> obtain ⟨m, w, rfl⟩ := memStage_frame hm
    · exact hd
    · exact hv
  · obtain ⟨f, hf', -⟩ := idStage_raise hi
    obtain ⟨m, w, rfl⟩ := memStage_frame hm
    obtain ⟨-, ⟨hn, -⟩ | ⟨hifid, -⟩⟩ := exStage_ifid hx
    · rw [hn] at hf'; cases hf'
    · cases (hf.symm.trans hifid.symm).trans hf'
  · obtain ⟨hred, hin', -⟩ := ifStage_raise hfe
    obtain ⟨m, w, rfl⟩ := memStage_frame hm
    obtain ⟨hpc, ⟨-, hne⟩ | ⟨hifid, -⟩⟩ := exStage_ifid hx
    · exact absurd hred hne
    · obtain ha | ⟨f, hff, -⟩ := idStage_fetchAddr hi
      · rw [ha, hpc] at hin'
        exact absurd (hin.symm.trans hin') Bool.false_ne_true
      · cases (hf.symm.trans hifid.symm).trans hff
  · exact .inr (.inr (hc.cycled hs))

/-- With nothing in EX/MEM memory does not raise. -/
theorem memStage_not_raise_of_bubble {s : State} (h : s.exmem = none) (r : Error) : memStage s ≠ .raise r := by
  intro hm
  obtain ⟨e, he, -⟩ := memStage_raise hm
  rw [h] at he
  cases he

/-- Settles O60: the cycle completes and runs the record's meaning, or execute raises as the meaning does. -/
theorem placedInstructionRunsAtTheNextStep : Obligations.PlacedInstructionRunsAtTheNextStep := by
  unfold Obligations.PlacedInstructionRunsAtTheNextStep
  intro s w i h hi
  have hinv := engineInv_withFetchWord h hi
  obtain ⟨hin, hin4, hal⟩ := placeAddr_fetchable s
  have hq := withFetchWord_eq (s := s) hi
  generalize s.withFetchWord 32 w.toNat = q at hinv hq
  have hd : q.idex = some (recordOf (fetchRecord s.placeAddr w) i s) := by rw [hq]
  have hf : q.ifid = none := by rw [hq]
  have he : q.exmem = none := by rw [hq]
  have hm : q.memwb = none := by rw [hq]
  have hpc : q.pc = s.placeAddr + 4#32 := by rw [hq]
  have hrun : q.status = .running := by rw [hq]
  have hx : q.completed.x = s.x := by
    rw [completed_x, he, hm, hq]
    rfl
  have hdm : q.completed.dmem = s.dmem := by
    rw [completed_dmem, he, hq]
    rfl
  have hcpc : q.completed.pc = s.placeAddr := by
    rw [completed_pc, nextToExecute_of_idex hd]
    rfl
  have hword : q.holdsWord s.placeAddr w := by
    rw [hq]
    exact iMemReadWord_storeInstrWord s.imem s.placeAddr w hin hal
  refine ⟨hword, hcpc, hx, hdm, ?_⟩
  rw [← recordOf_congr hx] at hd
  obtain ⟨t, ht⟩ := coherentEngineAlwaysSteps q hinv
  obtain ⟨e, hraise, -⟩ | ⟨v, d, e, -, hd', hv, rfl⟩ | ⟨p, hcyc⟩ := step_of_empty_front hrun hf (hpc ▸ hin4) ht
  · exact absurd hraise (memStage_not_raise_of_bubble (s := q.writtenBack) he e)
  · cases hd.symm.trans hd'
    have hraise := exec_of_exAlu_raise (c := q.completed) (f := fetchRecord s.placeAddr w) (i := i) hcpc.symm
      ((exAlu_congr (completed_cfg q) _).trans hv)
    exact ⟨_, _, ht, hraise, .inr ⟨⟨e, rfl⟩, rfl⟩⟩
  · have hseq : q.frontPc = s.placeAddr + 4#32 := by rw [State.frontPc, hf, ← hpc]
    obtain ⟨i', e, hi', -, u, hu, harch, -⟩ := hcyc.completed_of_idex hd (hinv.idexCoherent _ hd) rfl ⟨rfl, rfl⟩ fun _ => hseq
    cases hi.symm.trans hi'
    refine ⟨t, u, ht, hu, .inl ⟨?_, harch⟩⟩
    rw [hcyc.status, hm]
    rfl

end Sys2Proof.Machine
end

section
/-! Every cycle keeps the path invariant (spec/45_pipeline.md R331, R338; spec/70_reset_and_hazards.md R478). -/

namespace Sys2Proof.Machine

/-! The operands of an issued instruction. -/

/-- The record the memory stage leaves has the fields of the one it got. -/
theorem memLeaves_some {cfg : Config} {dm : Memory} {e : Option EXMEM} {m : MEMWB} (h : (memLeaves cfg dm e).2 = some m) :
    e = some m.toEXMEM := by
  unfold memLeaves at h
  split at h
  · rename_i t ht
    obtain ⟨-, rfl⟩ | ⟨r, dm', v, hr, -, -, -, -, rfl⟩ := memStage_ok ht
    · cases h
    · cases h
      exact hr
  · cases h
  · cases h

theorem memHit_memLeaves {cfg : Config} {dm : Memory} {e : Option EXMEM} {r : RegIdx} (h : exHit e r = false) :
    memHit (memLeaves cfg dm e).2 r = false :=
  memHit_eq_false fun m hm hw hrd => by
    rw [exHit_iff.2 ⟨m.toEXMEM, memLeaves_some hm, hw, hrd⟩] at h
    cases h

/-- Write-back of a record that does not produce r leaves r. -/
theorem readReg_of_no_memHit {s t : State} {m : Option MEMWB} {r : RegIdx} (h : t.x = wbRegs m s.x) (hm : memHit m r = false) :
    t.readReg r = s.readReg r := by
  cases m with
  | none => exact State.readReg_congr h r
  | some q =>
    rw [readReg_of_wbRegs h]
    refine if_neg fun ⟨_, hw, hrd, _⟩ => ?_
    rw [memHit_iff.2 ⟨q, rfl, hw, hrd⟩] at hm
    cases hm

/-- A record that writes a register is not the halt word's, and if it loads nothing the memory stage passes it on. -/
theorem flags_of_regWrite {d : IDEX} (h : recordCoherent d) (hw : d.regWrite = true) :
    d.ins ≠ .halt ∧ (d.memRead = false → d.ins ≠ .ld ∧ d.ins ≠ .sd ∧ d.memWrite = false) := by
  obtain ⟨i, -, -, hins, -, -, hr, hmw, hrw⟩ := h.fields
  rw [hrw] at hw
  rw [hins, hr, hmw]
  cases i <;> first
    | exact absurd hw Bool.false_ne_true
    | exact ⟨nofun, fun h => absurd h.symm Bool.false_ne_true⟩
    | exact ⟨nofun, fun _ => ⟨nofun, nofun, rfl⟩⟩

/-- An operand decode does not stall on is the register as the instructions before it leave it. -/
theorem checkOperand_current {t : State} (hx : ∀ e, t.exmem = some e → recordCoherent e.toIDEX)
    (hm : ∀ m, t.memwb = some m → recordCoherent m.toIDEX) (name : Source) (src : Option RegIdx)
    (h : (checkOperand t name src).stall = false) : (checkOperand t name src).value = t.completed.readSource src := by
  have hcx : t.completed.x = wbRegs (memLeaves t.cfg t.dmem t.exmem).2 ({ t with x := wbRegs t.memwb t.x } : State).x := completed_x t
  obtain hs | ⟨r, p, rfl, hr, hp, hw, hrd⟩ | ⟨r, q, rfl, hr, hex, hq, hw, hrd⟩ | ⟨r, rfl, hr, hex, hno⟩ := checkOperand_rows t src
  · rw [checkOperand_of_none_or_zero t name hs]
    obtain rfl | rfl := hs <;> rfl
  · rw [checkOperand_of_exmem name hr hp hw hrd] at h ⊢
    split at h
    · cases h
    · rename_i hgo
      obtain ⟨-, hread⟩ : t.fwd = true ∧ p.memRead = false := by simpa using hgo
      obtain ⟨hn, hpass⟩ := flags_of_regWrite (hx p hp) hw
      obtain ⟨hl, hsd, hmw⟩ := hpass hread
      rw [if_neg hgo]
      rw [hp, memLeaves_no_access hl hsd hread hmw] at hcx
      rw [State.readSource, readReg_of_wbRegs hcx]
      exact (if_pos ⟨hn, hw, hrd, hr⟩).symm
  · rw [checkOperand_of_memwb name hr hex hq hw hrd] at h ⊢
    split at h
    · cases h
    · rename_i hgo
      obtain ⟨hn, -⟩ := flags_of_regWrite (hm q hq) hw
      rw [if_neg hgo, State.readSource, readReg_of_no_memHit hcx (memHit_memLeaves hex),
        readReg_of_wbRegs (s := t) (t := { t with x := wbRegs t.memwb t.x }) (congrArg (wbRegs · t.x) hq)]
      exact (if_pos ⟨hn, hw, hrd, hr⟩).symm
  · rw [checkOperand_of_no_producer name hr hex hno, State.readSource, readReg_of_no_memHit hcx (memHit_memLeaves hex)]
    exact (readReg_of_no_memHit (s := t) (t := { t with x := wbRegs t.memwb t.x }) rfl hno).symm

/-! The path of fetch. -/

theorem Fetched.ifid {t : State} {a : Word} {f : IFID} (h : Fetched t a) (hf : t.ifid = some f) :
    f.pc = a ∧ t.holdsWord f.pc f.word ∧ predictNext t.bht t.btb f.pc = .ok t.pc := by
  cases h with
  | miss _ hn => rw [hf] at hn; cases hn
  | hit w hw hr hp =>
    cases hf.symm.trans hr
    exact ⟨rfl, hw, hp⟩

theorem Fetched.pc_of_miss {t : State} {a : Word} (h : Fetched t a) (hf : t.ifid = none) : t.pc = a := by
  have hfront := h.frontPc
  rwa [State.frontPc, hf] at hfront

/-- The record in IF/ID after a cycle holds a word of instruction memory, and pc is its prediction. -/
theorem Advances.ifid {s t : State} {p : Option (Word × Word)} {f : IFID} (h : Advances s t p) (hf : t.ifid = some f) :
    t.holdsWord f.pc f.word ∧ predictNext t.bht t.btb f.pc = .ok t.pc := by
  cases h with
  | flushed _ _ hn => rw [hf] at hn; cases hn
  | empty _ _ _ _ ha => exact (ha.ifid hf).2
  | stalled _ _ _ _ _ _ _ _ _ _ ha => exact (ha.ifid hf).2
  | issued _ _ _ _ _ _ _ _ ha => exact (ha.ifid hf).2

/-- The record in ID/EX after a cycle is the issued one of IF/ID before it. -/
theorem Advances.idex {s t : State} {p : Option (Word × Word)} {d : IDEX} (h : Advances s t p) (hd : t.idex = some d) :
    ∃ f i, s.ifid = some f ∧ decode f.word = some i ∧ stallsOn t (decodedFields i) = false ∧
      d = issueRecord f (decodedFields i) (checkOperand t .rs1 (source1Of i)).value (checkOperand t .rs2 (source2Of i)).value ∧
      Fetched t s.pc := by
  cases h with
  | flushed _ _ _ hn => rw [hd] at hn; cases hn
  | empty _ hn => rw [hd] at hn; cases hn
  | stalled _ _ _ _ _ hn => rw [hd] at hn; cases hn
  | issued f i hf hi hst hr _ _ ha => exact ⟨f, i, hf, hi, hst, Option.some.inj (hd.symm.trans hr), ha⟩

theorem predictNext_of_no_entry {bht : PMap Bool} {btb : PMap Word} {a : Word} (h : PMap.get bht a.toNat = none) :
    predictNext bht btb a = .ok (a + 4#32) := by
  rw [predictNext, h]

/-- After an instruction that is no control instruction fetch has moved on to the next address. -/
theorem PathInv.pc_of_plain {s : State} (h : PathInv s) {f : IFID} {i : Instr} (hf : s.ifid = some f) (hi : decode f.word = some i)
    (hc : (decodedFields i).isControl = false) : s.pc = f.pc + 4#32 := by
  have hno : PMap.get s.bht f.pc.toNat = none := by
    by_contra hne
    obtain ⟨w, j, hw, hj, hcj⟩ := h.predictorEntry f.pc hne
    cases hw.symm.trans (h.ifidWord f hf)
    cases hi.symm.trans hj
    rw [hc] at hcj
    cases hcj
  have hp := h.fetchFollows f hf
  rw [predictNext_of_no_entry hno] at hp
  exact (Except.ok.inj hp).symm

/-- A direction in the predictor after a cycle was there before, or is that of the resolved control instruction. -/
theorem Executes.bht {s t : State} {p : Option (Word × Word)} {k : Nat} (h : Executes s t p) (hk : PMap.get t.bht k ≠ none) :
    PMap.get s.bht k ≠ none ∨ ∃ d, s.idex = some d ∧ d.isControl = true ∧ k = d.pc.toNat := by
  have hsame : t.bht = s.bht → PMap.get s.bht k ≠ none ∨ ∃ d, s.idex = some d ∧ d.isControl = true ∧ k = d.pc.toNat := fun hb =>
    .inl (hb ▸ hk)
  have hset : ∀ {d : IDEX} {taken}, s.idex = some d → d.isControl = true → t.bht = PMap.set s.bht d.pc.toNat taken →
      PMap.get s.bht k ≠ none ∨ ∃ d, s.idex = some d ∧ d.isControl = true ∧ k = d.pc.toNat := fun {d taken} hd hc hb => by
    by_cases he : k = d.pc.toNat
    · exact .inr ⟨d, hd, hc, he⟩
    · rw [hb, PMap.get_set_other _ _ he] at hk
      exact .inl hk
  cases h with
  | bubble hd hu => exact hsame (congrArg ExecuteOut.bht hu)
  | plain d v hd hv hc hu => exact hsame (congrArg ExecuteOut.bht hu)
  | right d f v taken target hd hn hv hc hr hf hp hu => exact hset hd hc (congrArg ExecuteOut.bht hu)
  | wrong d v taken target hd hn hv hc hr hp hu => exact hset hd hc (congrArg ExecuteOut.bht hu)

theorem Cycled.holdsWord {s t : State} {p : Option (Word × Word)} (h : Cycled s t p) {a w : Word} : t.holdsWord a w ↔ s.holdsWord a w := by
  rw [State.holdsWord, State.holdsWord, h.imem]

theorem PathInv.cycled {s t : State} {p : Option (Word × Word)} (h : EngineInv s) (ht : EngineInv t) (hpath : PathInv s)
    (hcyc : Cycled s t p) : PathInv t := by
  refine ⟨fun f hf => (hcyc.front.ifid hf).1, fun d hd => ?_, fun a ha => ?_, fun f hf => (hcyc.front.ifid hf).2, fun d hd hc => ?_,
    fun d hd => ?_⟩
  · obtain ⟨f, i, hf, -, -, rfl, -⟩ := hcyc.front.idex hd
    exact hcyc.holdsWord.2 (hpath.ifidWord f hf)
  · obtain hs | ⟨d, hd, hc, hk⟩ := hcyc.ex.bht ha
    · obtain ⟨w, i, hw, hi⟩ := hpath.predictorEntry a hs
      exact ⟨w, i, hcyc.holdsWord.2 hw, hi⟩
    · obtain rfl : a = d.pc := BitVec.eq_of_toNat_eq hk
      obtain ⟨-, i, hi, hdec⟩ := h.idexCoherent d hd
      exact ⟨d.word, i, hcyc.holdsWord.2 (hpath.idexWord d hd), hi, hdec ▸ hc⟩
  · obtain ⟨f, i, hf, hi, -, rfl, ha⟩ := hcyc.front.idex hd
    have hpc : s.pc = f.pc + 4#32 := hpath.pc_of_plain hf hi hc
    rw [hpc] at ha
    exact ⟨fun f' hf' => (ha.ifid hf').1, ha.pc_of_miss⟩
  · obtain ⟨f, i, -, -, hst, rfl, -⟩ := hcyc.front.idex hd
    obtain ⟨h1, h2⟩ := Bool.or_eq_false_iff.mp hst
    exact ⟨checkOperand_current ht.exmemCoherent ht.memwbCoherent .rs1 _ h1,
      checkOperand_current ht.exmemCoherent ht.memwbCoherent .rs2 _ h2⟩

/-- Settles O38: a cycle that stays running is a completed one. -/
theorem pathInvKept : Obligations.PathInvKept := by
  unfold Obligations.PathInvKept
  intro s t h hpath hstep hrun
  by_cases hs : s.status = .running
  · obtain ⟨p, hcyc⟩ := step_cycled hs hstep fun ⟨e, he⟩ => by rw [hrun] at he; cases he
    exact hpath.cycled h (engineInvKept s t h hstep) hcyc
  · rw [step_stopped hs] at hstep
    cases hstep
    exact hpath

end Sys2Proof.Machine
end

section
/-! Halting runs and the cycle count (spec/70_reset_and_hazards.md R480): what the front end of a run that reaches the halt word can look
like, and the ledger of its cycles. -/

namespace Sys2Proof.Machine

/-! Runs that halt. -/

/-- A run from s that halts in its last cycle, in t. -/
inductive HaltingRun : State → State → Prop
  | last {s t : State} (hs : s.status = .running) (h : step s = .next t) (ht : t.status = .halted) : HaltingRun s t
  | step {s t u : State} (hs : s.status = .running) (h : Machine.step s = .next t) (ht : t.status = .running) (hr : HaltingRun t u) :
    HaltingRun s u

theorem coreRun_of_step {M : Host.Core} {s t : M.State} (h : M.step s = .next t) (n : Nat) : M.run (n + 1) s = M.run n t := by
  rw [Host.Core.run, h]

/-- A run that answers has answered its first step. -/
theorem step_of_coreRun {M : Host.Core} {n : Nat} {s u : M.State} (h : M.run (n + 1) s = .next u) : ∃ t, M.step s = .next t := by
  rw [Host.Core.run] at h
  split at h
  · exact ⟨_, ‹_›⟩
  · cases h
  · cases h

theorem run_of_step {s t : State} (h : step s = .next t) (n : Nat) :
    Host.Core.run Sys2Proof.core (n + 1) s = Host.Core.run Sys2Proof.core n t := coreRun_of_step (M := Sys2Proof.core) h n

theorem run_stopped {s : State} (h : s.status ≠ .running) (n : Nat) : Host.Core.run Sys2Proof.core n s = .next s := by
  induction n with
  | zero => rfl
  | succ n ih => exact (run_of_step (step_stopped h) n).trans ih

theorem haltingRun_of_run {n : Nat} {s u : State} (hs : s.status = .running) (h : Host.Core.run Sys2Proof.core n s = .next u)
    (hu : u.status = .halted) : HaltingRun s u := by
  induction n generalizing s with
  | zero =>
    cases h
    rw [hs] at hu
    cases hu
  | succ n ih =>
    obtain ⟨t, ht⟩ := step_of_coreRun (M := Sys2Proof.core) h
    rw [run_of_step ht] at h
    by_cases hrun : t.status = .running
    · exact .step hs ht hrun (ih hrun h)
    · rw [run_stopped hrun n] at h
      cases h
      exact .last hs ht hu

/-! The stages a halt word passes. -/

/-- No halt word has passed execute. -/
def State.pastFree (s : State) : Prop := (∀ e, s.exmem = some e → e.ins ≠ .halt) ∧ ∀ m, s.memwb = some m → m.ins ≠ .halt

/-- The front end of a run that reaches the halt word, with the number of fetches that missed since the last flush: it fetches a program's
words, starts at a flush's target, waits for a resolution, or has nothing behind the halt word. -/
inductive Flow (s : State) : Nat → Prop
  | fetching (f : IFID) (hf : s.ifid = some f) (hd : ∀ d, s.idex = some d → d.ins ≠ .halt) (hp : s.pastFree) : Flow s 0
  | fresh (hf : s.ifid = none) (hd : s.idex = none) (hp : s.pastFree) : Flow s 0
  | resolving (d : IDEX) (hf : s.ifid = none) (hd : s.idex = some d) (hc : d.isControl = true) (hp : s.pastFree) : Flow s 1
  | haltExecutes (d : IDEX) (hf : s.ifid = none) (hd : s.idex = some d) (hi : d.ins = .halt)
      (hw : iMemReadWord s.imem s.pc = .ok none) (hp : s.pastFree) : Flow s 1
  | haltAccesses (e : EXMEM) (hf : s.ifid = none) (hd : s.idex = none) (he : s.exmem = some e) (hi : e.ins = .halt)
      (hw : iMemReadWord s.imem s.pc = .ok none) (hm : ∀ m, s.memwb = some m → m.ins ≠ .halt) : Flow s 2
  | haltWrites (m : MEMWB) (hf : s.ifid = none) (hd : s.idex = none) (he : s.exmem = none) (hm : s.memwb = some m)
      (hi : m.ins = .halt) (hw : iMemReadWord s.imem s.pc = .ok none) : Flow s 3

/-- Fetch stands where there is no word, and nothing in flight will send it elsewhere or halt the run. -/
structure Lost (s : State) : Prop where
  ifid : s.ifid = none
  idex : ∀ d, s.idex = some d → d.ins ≠ .halt ∧ d.isControl = false
  past : s.pastFree
  miss : iMemReadWord s.imem s.pc = .ok none

/-! How the stages pass records on. -/

theorem Executes.record {s t : State} {p : Option (Word × Word)} (h : Executes s t p) : t.exmem.map (·.toIDEX) = s.idex := by
  cases h with
  | bubble hd hu => rw [show t.exmem = none from congrArg ExecuteOut.exmem hu, hd]; rfl
  | plain d v hd hv hc hu => rw [show t.exmem = some _ from congrArg ExecuteOut.exmem hu, hd]; rfl
  | right d f v taken target hd hn hv hc hr hf hp hu => rw [show t.exmem = some _ from congrArg ExecuteOut.exmem hu, hd]; rfl
  | wrong d v taken target hd hn hv hc hr hp hu => rw [show t.exmem = some _ from congrArg ExecuteOut.exmem hu, hd]; rfl

theorem Cycled.pastFree {s t : State} {p : Option (Word × Word)} (h : Cycled s t p) (hd : ∀ d, s.idex = some d → d.ins ≠ .halt)
    (he : ∀ e, s.exmem = some e → e.ins ≠ .halt) : t.pastFree := by
  refine ⟨fun e ht => hd e.toIDEX ?_, fun m ht => he m.toEXMEM ?_⟩
  · rw [← h.ex.record, ht]
    rfl
  · rw [← h.access, ht]
    rfl

theorem haltIn_of_pastFree {s : State} (h : s.pastFree) : haltIn s.memwb = false :=
  Bool.eq_false_iff.2 fun hh => by
    obtain ⟨m, hm, hi⟩ := haltIn_eq_true.1 hh
    exact h.2 m hm hi

/-- Without a control instruction in ID/EX there is no flush. -/
theorem Executes.no_flush {s t : State} {p : Option (Word × Word)} (h : Executes s t p)
    (hc : ∀ d, s.idex = some d → d.isControl = false) : p = none ∧ t.stats.mispredicts = s.stats.mispredicts := by
  cases h with
  | bubble hd hu => exact ⟨rfl, congrArg ExecuteOut.mispredicts hu⟩
  | plain d v hd hv hcd hu => exact ⟨rfl, congrArg ExecuteOut.mispredicts hu⟩
  | right d f v taken target hd hn hv hcd => rw [hc d hd] at hcd; cases hcd
  | wrong d v taken target hd hn hv hcd => rw [hc d hd] at hcd; cases hcd

/-- A front end with nothing in IF/ID and no flush fetches at pc. -/
theorem Advances.of_empty {s t : State} (h : Advances s t none) (hf : s.ifid = none) :
    t.idex = none ∧ t.stats.stalls = s.stats.stalls ∧ Fetched t s.pc := by
  cases h with
  | empty _ hd hs _ ha => exact ⟨hd, hs, ha⟩
  | stalled f i hf' => rw [hf] at hf'; cases hf'
  | issued f i hf' => rw [hf] at hf'; cases hf'

theorem Fetched.of_miss {t : State} {a : Word} (h : Fetched t a) (hw : iMemReadWord t.imem a = .ok none) : t.ifid = none ∧ t.pc = a := by
  cases h with
  | miss _ hf hp => exact ⟨hf, hp⟩
  | hit w hit => rw [State.holdsWord, hw] at hit; cases hit

/-- Where nothing is in IF/ID and fetch misses, it goes on to miss. -/
theorem Cycled.of_miss {s t : State} {p : Option (Word × Word)} (h : Cycled s t p) (hf : s.ifid = none)
    (hc : ∀ d, s.idex = some d → d.isControl = false) (hw : iMemReadWord s.imem s.pc = .ok none) :
    t.ifid = none ∧ t.idex = none ∧ iMemReadWord t.imem t.pc = .ok none ∧ t.stats.stalls = s.stats.stalls ∧
      t.stats.mispredicts = s.stats.mispredicts := by
  obtain ⟨rfl, hmp⟩ := h.ex.no_flush hc
  obtain ⟨hd, hs, ha⟩ := h.front.of_empty hf
  obtain ⟨hf', hpc⟩ := ha.of_miss (by rw [h.imem, hw])
  exact ⟨hf', hd, by rw [h.imem, hpc, hw], hs, hmp⟩

theorem Lost.cycled {s t : State} {p : Option (Word × Word)} (h : Lost s) (hcyc : Cycled s t p) : Lost t := by
  obtain ⟨hf, hd, hw, -⟩ := hcyc.of_miss h.ifid (fun d hd => (h.idex d hd).2) h.miss
  exact ⟨hf, by simp [hd], hcyc.pastFree (fun d hd => (h.idex d hd).1) h.past.1, hw⟩

/-- A lost engine never halts. -/
theorem Lost.not_halting {s u : State} (h : Lost s) : ¬HaltingRun s u := by
  intro hr
  induction hr with
  | last hs hstep ht =>
    obtain ⟨p, hcyc⟩ := step_cycled hs hstep fun ⟨e, he⟩ => by rw [ht] at he; cases he
    rw [hcyc.status, haltIn_of_pastFree h.past] at ht
    cases ht
  | step hs hstep ht _ ih =>
    obtain ⟨p, hcyc⟩ := step_cycled hs hstep fun ⟨e, he⟩ => by rw [ht] at he; cases he
    exact ih (h.cycled hcyc)

end Sys2Proof.Machine
end

section
/-! The ledger of a halting run (spec/70_reset_and_hazards.md R480): every cycle retires an instruction, fills a slot of the pipeline, stalls,
pays for a flush, or misses behind a control instruction or the halt word. -/

namespace Sys2Proof.Machine

/-- 1 for a buffer that holds a record, 0 for a bubble. -/
def occupied {α : Type} (o : Option α) : Nat := if o.isSome then 1 else 0

@[simp] theorem occupied_none {α : Type} : occupied (none : Option α) = 0 := rfl
@[simp] theorem occupied_some {α : Type} (a : α) : occupied (some a) = 1 := rfl
@[simp] theorem occupied_map {α β : Type} (f : α → β) (o : Option α) : occupied (o.map f) = occupied o := by simp [occupied]

/-- The cycles of a running engine, of which p were fetches that missed since the last flush. -/
def ledger (s : State) (p : Nat) : Prop :=
  s.stats.cycles = s.stats.retired + (occupied s.ifid + occupied s.idex + occupied s.exmem + occupied s.memwb) + s.stats.stalls +
    2 * s.stats.mispredicts + p

/-- The cycle from s to t, of which the front end makes what the ledger says. -/
def frontBalance (s t : State) (p p' : Nat) : Prop :=
  occupied s.ifid + s.stats.stalls + 2 * s.stats.mispredicts + p + 1 =
    occupied t.ifid + occupied t.idex + t.stats.stalls + 2 * t.stats.mispredicts + p'

theorem retired_wbStats {m : Option MEMWB} (st : Stats) (h : ∀ q, m = some q → q.ins ≠ .halt) :
    (wbStats m st).retired = st.retired + occupied m := by
  cases m with
  | none => rfl
  | some q => simp [wbStats, h q rfl]

theorem Cycled.retired {s t : State} {p : Option (Word × Word)} (h : Cycled s t p) :
    t.stats.retired = (wbStats s.memwb s.stats).retired := congrArg Prod.fst h.counts

/-- The ledger goes on with the cycle. -/
theorem ledger_cycled {s t : State} {q : Option (Word × Word)} {p p' : Nat} (hcyc : Cycled s t q)
    (hm : ∀ m, s.memwb = some m → m.ins ≠ .halt) (hl : ledger s p) (hb : frontBalance s t p p') : ledger t p' := by
  have hret := hcyc.retired
  rw [retired_wbStats _ hm] at hret
  have hex : occupied t.exmem = occupied s.idex := by rw [← hcyc.ex.record, occupied_map]
  have hmem : occupied t.memwb = occupied s.exmem := by rw [← hcyc.access, occupied_map]
  have hcycles := hcyc.cycles
  simp only [ledger, frontBalance] at hl hb ⊢
  omega

/-! The front end's cycles. -/

/-- Decode of the halt word only. -/
theorem eq_haltWord_of_decode {w : Word} (h : decode w = some .halt) : w = haltWord := by
  obtain ⟨-, he⟩ := encodeOfDecodeIsIdentity w .halt h
  exact he.symm

/-- Behind the halt word in IF/ID fetch stands where there is no word. -/
theorem miss_after_halt {s : State} (hpath : PathInv s) (hlast : haltIsLast s.imem) {f : IFID} (hf : s.ifid = some f)
    (hi : decode f.word = some .halt) : iMemReadWord s.imem s.pc = .ok none := by
  have hw : s.holdsWord f.pc f.word := hpath.ifidWord f hf
  rw [eq_haltWord_of_decode hi] at hw
  rw [hpath.pc_of_plain hf hi rfl]
  exact hlast f.pc hw

/-- A flush empties the front end; execute has counted it. -/
theorem Cycled.of_flush {s t : State} {q : Word × Word} (h : Cycled s t (some q)) :
    t.ifid = none ∧ t.idex = none ∧ t.stats.stalls = s.stats.stalls ∧ t.stats.mispredicts = s.stats.mispredicts + 1 := by
  have hmp : t.stats.mispredicts = s.stats.mispredicts + 1 := by
    cases h.ex with
    | wrong _ _ _ _ _ _ _ _ _ _ hu => exact congrArg ExecuteOut.mispredicts hu
  cases h.front with
  | flushed _ _ hf hd _ hs => exact ⟨hf, hd, hs, hmp⟩

theorem Cycled.of_no_flush {s t : State} (h : Cycled s t none) : t.stats.mispredicts = s.stats.mispredicts := by
  cases h.ex with
  | bubble _ hu => exact congrArg ExecuteOut.mispredicts hu
  | plain _ _ _ _ _ hu => exact congrArg ExecuteOut.mispredicts hu
  | right _ _ _ _ _ _ _ _ _ _ _ _ hu => exact congrArg ExecuteOut.mispredicts hu

/-- What a cycle that keeps running makes of the front end. -/
def flowsOn (s t : State) (p : Nat) : Prop := (∃ p', Flow t p' ∧ frontBalance s t p p') ∨ Lost t

/-- A fetching front end flushes, stalls, goes on, or has issued what it had and missed. -/
theorem flowsOn_of_fetching {s t : State} {q : Option (Word × Word)} {f : IFID} (hpath : PathInv s) (hlast : haltIsLast s.imem)
    (hcyc : Cycled s t q) (hf : s.ifid = some f) (hpast : t.pastFree) : flowsOn s t 0 := by
  cases q with
  | some q =>
    obtain ⟨hfid, hid, hs, hmp⟩ := hcyc.of_flush
    exact .inl ⟨0, .fresh hfid hid hpast, by simp only [frontBalance, hf, hfid, hid, hs, hmp, occupied_none, occupied_some]; omega⟩
  | none =>
    have hmp := hcyc.of_no_flush
    cases hcyc.front with
    | empty hn => rw [hf] at hn; cases hn
    | stalled f' i hf' hi _ hid hs _ _ _ ha =>
      cases hf.symm.trans hf'
      cases ha with
      | miss hw =>
        have hword := hcyc.holdsWord.2 (hpath.ifidWord f hf)
        rw [State.holdsWord, hw] at hword
        cases hword
      | hit w _ hfid =>
        exact .inl ⟨0, .fetching _ hfid (by simp [hid]) hpast,
          by simp only [frontBalance, hf, hfid, hid, hs, hmp, occupied_none, occupied_some]; omega⟩
    | issued f' i hf' hi _ hid hs _ ha =>
      cases hf.symm.trans hf'
      have hhalt : i = .halt → iMemReadWord t.imem s.pc = .ok none := fun h => by
        subst h
        rw [hcyc.imem]
        exact miss_after_halt hpath hlast hf hi
      cases ha with
      | hit w hw hfid =>
        refine .inl ⟨0, .fetching _ hfid (fun d hd hdi => ?_) hpast,
          by simp only [frontBalance, hf, hfid, hid, hs, hmp, occupied_some]; omega⟩
        cases hid.symm.trans hd
        have hno := hhalt (eq_halt_of_mnemonicOf hdi)
        rw [State.holdsWord, hno] at hw
        cases hw
      | miss hw hfid hpc =>
        have hb : frontBalance s t 0 1 := by
          simp only [frontBalance, hf, hfid, hid, hs, hmp, occupied_none, occupied_some]
        rw [← hpc] at hw
        by_cases hi' : i = .halt
        · exact .inl ⟨1, .haltExecutes _ hfid hid (by rw [hi']; rfl) hw hpast, hb⟩
        · cases hc : (decodedFields i).isControl with
          | true => exact .inl ⟨1, .resolving _ hfid hid hc hpast, hb⟩
          | false =>
            refine .inr ⟨hfid, fun d hd => ?_, hpast, hw⟩
            cases hid.symm.trans hd
            exact ⟨fun hdi => hi' (eq_halt_of_mnemonicOf hdi), hc⟩

theorem flowsOn_of_fresh {s t : State} {q : Option (Word × Word)} (hcyc : Cycled s t q) (hf : s.ifid = none) (hd : s.idex = none)
    (hpast : t.pastFree) : flowsOn s t 0 := by
  obtain ⟨rfl, hmp⟩ := hcyc.ex.no_flush (by simp [hd])
  obtain ⟨hid, hs, ha⟩ := hcyc.front.of_empty hf
  cases ha with
  | miss hw hfid hpc => exact .inr ⟨hfid, by simp [hid], hpast, by rw [hpc, hw]⟩
  | hit w _ hfid =>
    exact .inl ⟨0, .fetching _ hfid (by simp [hid]) hpast,
      by simp only [frontBalance, hf, hfid, hid, hs, hmp, occupied_none, occupied_some]; omega⟩

/-- A resolution with nothing in IF/ID is a flush. -/
theorem flowsOn_of_resolving {s t : State} {q : Option (Word × Word)} {d : IDEX} (hcyc : Cycled s t q) (hf : s.ifid = none)
    (hd : s.idex = some d) (hn : d.ins ≠ .halt) (hc : d.isControl = true) (hpast : t.pastFree) : flowsOn s t 1 := by
  have hq : q ≠ none := by
    rintro rfl
    cases hcyc.ex with
    | bubble hd' => rw [hd] at hd'; cases hd'
    | plain d' v hd' hv hc' =>
      cases hd.symm.trans hd'
      exact absurd hc' (by simp [hn, hc])
    | right d' f v taken target hd' _ hv hc' hr hf' => rw [hf] at hf'; cases hf'
  obtain ⟨q, rfl⟩ := Option.ne_none_iff_exists'.mp hq
  obtain ⟨hfid, hid, hs, hmp⟩ := hcyc.of_flush
  exact .inl ⟨0, .fresh hfid hid hpast, by simp only [frontBalance, hf, hfid, hid, hs, hmp, occupied_none]; omega⟩

theorem Cycled.memwb_not_halt {s t : State} {q : Option (Word × Word)} (h : Cycled s t q) (hrun : t.status = .running) :
    ∀ m, s.memwb = some m → m.ins ≠ .halt := fun m hm hi => by
  rw [h.status, haltIn_eq_true.2 ⟨m, hm, hi⟩] at hrun
  cases hrun

theorem Flow.cycled {s t : State} {q : Option (Word × Word)} {p : Nat} (h : Flow s p) (hinv : EngineInv s) (hpath : PathInv s)
    (hlast : haltIsLast s.imem) (hcyc : Cycled s t q) (hrun : t.status = .running) : flowsOn s t p := by
  cases h with
  | fetching f hf hd hp => exact flowsOn_of_fetching hpath hlast hcyc hf (hcyc.pastFree hd hp.1)
  | fresh hf hd hp => exact flowsOn_of_fresh hcyc hf hd (hcyc.pastFree (by simp [hd]) hp.1)
  | resolving d hf hd hc hp =>
    have hn := not_halt_of_control (hinv.idexCoherent d hd) hc
    exact flowsOn_of_resolving hcyc hf hd hn hc (hcyc.pastFree (fun d' hd' => by cases hd.symm.trans hd'; exact hn) hp.1)
  | haltExecutes d hf hd hi hw hp =>
    obtain ⟨-, i, -, hdec⟩ := hinv.idexCoherent d hd
    obtain ⟨hfid, hid, hw', hs, hmp⟩ := hcyc.of_miss hf (fun d' hd' => by cases hd.symm.trans hd'; exact isControl_of_halt hdec hi) hw
    have hrec := hcyc.ex.record
    rw [hd, Option.map_eq_some_iff] at hrec
    obtain ⟨e, he, hed⟩ := hrec
    refine .inl ⟨2, .haltAccesses e hfid hid he (hed ▸ hi) hw' fun m hm => ?_, ?_⟩
    · refine hp.1 m.toEXMEM ?_
      rw [← hcyc.access, hm]
      rfl
    · simp only [frontBalance, hf, hfid, hid, hs, hmp, occupied_none]
  | haltAccesses e hf hd he hi hw hm =>
    obtain ⟨hfid, hid, hw', hs, hmp⟩ := hcyc.of_miss hf (by simp [hd]) hw
    have hrec := hcyc.ex.record
    rw [hd, Option.map_eq_none_iff] at hrec
    have hacc := hcyc.access
    rw [he, Option.map_eq_some_iff] at hacc
    obtain ⟨m, hm', hme⟩ := hacc
    refine .inl ⟨3, .haltWrites m hfid hid hrec hm' (hme ▸ hi) hw', ?_⟩
    simp only [frontBalance, hf, hfid, hid, hs, hmp, occupied_none]
  | haltWrites m hf hd he hm hi hw => exact absurd hi (hcyc.memwb_not_halt hrun m hm)

/-- A flow whose write-back sees the halt word has nothing else in flight. -/
theorem Flow.of_halt {s : State} {p : Nat} (h : Flow s p) (hh : haltIn s.memwb = true) :
    p = 3 ∧ s.ifid = none ∧ s.idex = none ∧ s.exmem = none ∧ iMemReadWord s.imem s.pc = .ok none := by
  obtain ⟨m, hm, hi⟩ := haltIn_eq_true.1 hh
  cases h with
  | fetching _ _ _ hp => exact absurd hi (hp.2 m hm)
  | fresh _ _ hp => exact absurd hi (hp.2 m hm)
  | resolving _ _ _ _ hp => exact absurd hi (hp.2 m hm)
  | haltExecutes _ _ _ _ _ hp => exact absurd hi (hp.2 m hm)
  | haltAccesses _ _ _ _ _ _ hno => exact absurd hi (hno m hm)
  | haltWrites _ hf hd he _ _ hw => exact ⟨rfl, hf, hd, he, hw⟩

/-- A running engine on a program whose halt words have no word after them. -/
structure Sound (s : State) : Prop where
  engine  : EngineInv s
  path    : PathInv s
  last    : haltIsLast s.imem

theorem Sound.cycled {s t : State} {p : Option (Word × Word)} (h : Sound s) (hstep : step s = .next t) (hcyc : Cycled s t p) : Sound t := by
  have ht := engineInvKept s t h.engine hstep
  exact ⟨ht, h.path.cycled h.engine ht hcyc, hcyc.imem ▸ h.last⟩

theorem HaltingRun.cycles {s u : State} {p : Nat} (h : HaltingRun s u) (hs : Sound s) (hflow : Flow s p) (hl : ledger s p) :
    u.stats.cycles = (u.stats.retired + 1) + 4 + u.stats.stalls + 2 * u.stats.mispredicts := by
  induction h generalizing p with
  | @last s t hrun hstep ht =>
    obtain ⟨q, hcyc⟩ := step_cycled hrun hstep fun ⟨e, he⟩ => by rw [ht] at he; cases he
    have hh : haltIn s.memwb = true := by
      by_contra hno
      rw [hcyc.status, Bool.eq_false_iff.2 hno] at ht
      cases ht
    obtain ⟨rfl, hf, hd, he, hw⟩ := hflow.of_halt hh
    obtain ⟨m, hm, hi⟩ := haltIn_eq_true.1 hh
    obtain ⟨-, -, -, hst, hmp⟩ := hcyc.of_miss hf (by simp [hd]) hw
    have hret : t.stats.retired = s.stats.retired := by
      rw [hcyc.retired, hm]
      simp [wbStats, hi]
    have hcycles := hcyc.cycles
    simp only [ledger, hf, hd, he, hm, occupied_none, occupied_some] at hl
    omega
  | @step s t u hrun hstep ht hr ih =>
    obtain ⟨q, hcyc⟩ := step_cycled hrun hstep fun ⟨e, he⟩ => by rw [ht] at he; cases he
    obtain ⟨p', hflow', hb⟩ | hlost := hflow.cycled hs.engine hs.path hs.last hcyc ht
    · exact ih (hs.cycled hstep hcyc) hflow' (ledger_cycled hcyc (hcyc.memwb_not_halt ht) hl hb)
    · exact absurd hr hlost.not_halting

/-- Booting fills the memories of the reset state and sets the forwarding switch. -/
theorem boot_frame (cfg : Config) (image : List (Word × Word)) (data : List (Word × Byte)) (fwd : Bool) :
    ∃ im dm, (boot cfg image data fwd).1 = { State.reset with cfg := cfg, imem := im, dmem := dm, fwd := fwd } := by
  have hfill : ∀ s : State, ∃ im dm, (s.fillMemories image data).1 = { s with imem := im, dmem := dm } := fun s => by
    unfold State.fillMemories
    split
    · exact ⟨_, s.dmem, rfl⟩
    · split
      exact ⟨_, _, rfl⟩
  obtain ⟨im, dm, h⟩ := hfill { State.reset with cfg := cfg }
  exact ⟨im, dm, congrArg (·.setForwarding fwd) h⟩

theorem engineInv_boot (cfg : Config) (image : List (Word × Word)) (data : List (Word × Byte)) (fwd : Bool) :
    EngineInv (boot cfg image data fwd).1 :=
  ((engineInv_resetKeepingConfig { State.reset with cfg := cfg }).load image data).setForwarding fwd

/-- Settles O41: the ledger of a run that starts with an empty pipeline. -/
theorem haltingRunCycleCount : Obligations.HaltingRunCycleCount := by
  unfold Obligations.HaltingRunCycleCount
  intro cfg image data fwd n s' hlast hrun hhalt
  have hinv := engineInv_boot cfg image data fwd
  obtain ⟨im, dm, hboot⟩ := boot_frame cfg image data fwd
  generalize (boot cfg image data fwd).1 = s at hlast hrun hinv hboot
  have hf : s.ifid = none := by rw [hboot]; rfl
  have hd : s.idex = none := by rw [hboot]; rfl
  have he : s.exmem = none := by rw [hboot]; rfl
  have hm : s.memwb = none := by rw [hboot]; rfl
  have hst : s.stats = Stats.zero := by rw [hboot]; rfl
  have hstatus : s.status = .running := by rw [hboot]; rfl
  have hpath : PathInv s := pathInv_of_drained hf hd (by rw [hboot]; rfl)
  have hledger : ledger s 0 := by simp [ledger, hf, hd, he, hm, hst, Stats.zero]
  exact (haltingRun_of_run hstatus hrun hhalt).cycles ⟨hinv, hpath, hlast⟩ (.fresh hf hd ⟨by simp [he], by simp [hm]⟩) hledger

end Sys2Proof.Machine
end

section
/-! The in-order machine alone decides what a halting run leaves (spec/42_control.md R290, spec/70_reset_and_hazards.md R478). -/

namespace Sys2Proof.Machine

/-! Meanings see the program state only. -/

theorem sameProgramState.readReg {c c' : State} (h : sameProgramState c c') (r : RegIdx) : c'.readReg r = c.readReg r := by
  obtain ⟨-, hx, -⟩ := h
  exact State.readReg_congr hx.symm r

/-- Two outcomes with the same program state. -/
def sameOutcome (o o' : Host.Outcome State Fault Refusal) : Prop := ∃ u u', o = .next u ∧ o' = .next u' ∧ sameProgramState u u'

theorem sameProgramState.afterAlu {c c' : State} (h : sameProgramState c c') (rd : RegIdx) (v : Word) :
    sameProgramState (c.afterAlu rd v) (c'.afterAlu rd v) := by
  obtain ⟨hc, hx, hp, hi, hd⟩ := h
  exact ⟨hc, congrArg (regsAfterWrite · rd v) hx, congrArg (· + 4#32) hp, hi, hd⟩

theorem sameProgramState.afterLoad {c c' : State} (h : sameProgramState c c') (rd : RegIdx) (v : Word) :
    sameProgramState (c.afterLoad rd v) (c'.afterLoad rd v) := by
  obtain ⟨hc, hx, hp, hi, hd⟩ := h
  exact ⟨hc, congrArg (regsAfterWrite · rd v) hx, congrArg (· + 4#32) hp, hi, hd⟩

theorem sameProgramState.afterStore {c c' : State} (h : sameProgramState c c') (m : Memory) :
    sameProgramState (c.afterStore m) (c'.afterStore m) := by
  obtain ⟨hc, hx, hp, hi, hd⟩ := h
  exact ⟨hc, hx, congrArg (· + 4#32) hp, hi, rfl⟩

theorem sameProgramState.afterFailure {c c' : State} (h : sameProgramState c c') (e e' : Error) :
    sameProgramState (c.afterFailure e) (c'.afterFailure e') := by
  obtain ⟨hc, hx, hp, hi, hd⟩ := h
  exact ⟨hc, hx, congrArg (· + 4#32) hp, hi, hd⟩

theorem sameProgramState.afterControl {c c' : State} (h : sameProgramState c c') (x : Vector Word 32) (taken : Bool) (target : Word) :
    sameProgramState (c.afterControl x taken target) (c'.afterControl x taken target) := by
  obtain ⟨hc, hx, hp, hi, hd⟩ := h
  exact ⟨hc, rfl, congrArg (fun pc => if taken then target else pc + 4#32) hp, hi, hd⟩

theorem regRegOp_same {c c' : State} (h : sameProgramState c c') (op : AluOp) (rd rs1 rs2 : RegIdx) :
    sameOutcome (regRegOp op rd rs1 rs2 c) (regRegOp op rd rs1 rs2 c') := by
  have halu : alu c'.cfg.divPolicy op (c'.readReg rs1) (c'.readReg rs2) = alu c.cfg.divPolicy op (c.readReg rs1) (c.readReg rs2) := by
    rw [← h.1, h.readReg, h.readReg]
  cases hv : alu c.cfg.divPolicy op (c.readReg rs1) (c.readReg rs2) with
  | some v => exact ⟨_, _, regRegOp_some hv, regRegOp_some (halu.trans hv), h.afterAlu rd v⟩
  | none => exact ⟨_, _, regRegOp_none hv, regRegOp_none (halu.trans hv), h.afterFailure _ _⟩

theorem regImmOp_same {c c' : State} (h : sameProgramState c c') {op : AluOp} (rd rs1 : RegIdx) (imm : BitVec 12) (hd : op ≠ .div)
    (hr : op ≠ .rem) : sameOutcome (regImmOp op rd rs1 imm c) (regImmOp op rd rs1 imm c') := by
  obtain ⟨v, hv⟩ := alu_isSome c.cfg.divPolicy (c.readReg rs1) (imm.signExtend 32) hd hr
  have hv' : alu c'.cfg.divPolicy op (c'.readReg rs1) (imm.signExtend 32) = some v := by rw [← h.1, h.readReg, hv]
  exact ⟨_, _, regImmOp_some hv, regImmOp_some hv', h.afterAlu rd v⟩

theorem loadOp_same {c c' : State} (h : sameProgramState c c') (n : Nat) (rd rs1 : RegIdx) (imm : BitVec 12) :
    sameOutcome (loadOp n rd rs1 imm c) (loadOp n rd rs1 imm c') := by
  have hread : memRead c'.cfg.unwrittenDataRead c'.dmem (effectiveAddr c' rs1 imm) n =
      memRead c.cfg.unwrittenDataRead c.dmem (effectiveAddr c rs1 imm) n := by
    obtain ⟨hc, -, -, -, hd⟩ := id h
    rw [effectiveAddr, effectiveAddr, ← hc, ← hd, h.readReg]
  cases hm : memRead c.cfg.unwrittenDataRead c.dmem (effectiveAddr c rs1 imm) n with
  | ok v => exact ⟨_, _, loadOp_ok hm, loadOp_ok (hread.trans hm), h.afterLoad rd _⟩
  | error e => exact ⟨_, _, loadOp_error hm, loadOp_error (hread.trans hm), h.afterFailure e e⟩

theorem storeOp_same {c c' : State} (h : sameProgramState c c') (n : Nat) (rs2 rs1 : RegIdx) (imm : BitVec 12) :
    sameOutcome (storeOp n rs2 rs1 imm c) (storeOp n rs2 rs1 imm c') := by
  have haddr : effectiveAddr c' rs1 imm = effectiveAddr c rs1 imm := by rw [effectiveAddr, effectiveAddr, h.readReg]
  cases hf : firstOutsideData (accessAddrs (effectiveAddr c rs1 imm) n) with
  | some b => exact ⟨_, _, storeOp_error hf, storeOp_error (haddr ▸ hf), h.afterFailure _ _⟩
  | none =>
    have hin := firstOutsideData_eq_none.mp hf
    refine ⟨_, _, storeOp_ok hin, storeOp_ok (haddr ▸ hin), ?_⟩
    obtain ⟨-, -, -, -, hd⟩ := id h
    rw [haddr, h.readReg, ← hd]
    exact h.afterStore _

/-- The meaning of an instruction on two states with the same program state. -/
theorem exec_same {c c' : State} (h : sameProgramState c c') (i : Instr) : sameOutcome (exec i c) (exec i c') := by
  obtain ⟨hc, hx, hp, hi, hd⟩ := id h
  cases i with
  | add | sub | sll | slt | xor | srl | sra | or | and | mul | div | rem =>
    simp only [exec_add, exec_sub, exec_sll, exec_slt, exec_xor, exec_srl, exec_sra, exec_or, exec_and, exec_mul, exec_div, exec_rem]
    exact regRegOp_same h _ _ _ _
  | addi | andi | ori =>
    simp only [exec_addi, exec_andi, exec_ori]
    exact regImmOp_same h _ _ _ (by decide) (by decide)
  | lui | auipc =>
    simp only [exec_lui, exec_auipc, ← hp]
    exact ⟨_, _, rfl, rfl, h.afterAlu _ _⟩
  | lb | lh | lw => exact loadOp_same h _ _ _ _
  | sb | sh | sw => exact storeOp_same h _ _ _ _
  | ld | sd => exact ⟨_, _, rfl, rfl, h.afterFailure _ _⟩
  | beq | bne | blt | bge | jal | jalr =>
    simp only [exec_beq, exec_bne, exec_blt, exec_bge, exec_jal, exec_jalr, h.readReg, ← hp, ← hx]
    exact ⟨_, _, rfl, rfl, h.afterControl _ _ _⟩
  | halt => exact ⟨_, _, rfl, rfl, hc, hx, congrArg (· + 4#32) hp, hi, hd⟩

/-! The in-order run. -/

/-- The in-order machine comes from c to a halt word, with registers x and data memory dm. -/
inductive ReachesHalt : State → Vector Word 32 → Memory → Prop
  | halt {c : State} (hw : c.holdsWord c.pc haltWord) : ReachesHalt c c.x c.dmem
  | step {c u : State} {x : Vector Word 32} {dm : Memory} {w : Word} {i : Instr} (hw : c.holdsWord c.pc w) (hi : decode w = some i)
      (hn : i ≠ .halt) (hx : exec i c = .next u) (hr : ReachesHalt u x dm) : ReachesHalt c x dm

theorem sameProgramState.holdsWord {c c' : State} (h : sameProgramState c c') {w : Word} (hw : c.holdsWord c.pc w) :
    c'.holdsWord c'.pc w := by
  obtain ⟨-, -, hp, hi, -⟩ := h
  rw [State.holdsWord, ← hp, ← hi]
  exact hw

theorem ReachesHalt.congr {c c' : State} {x : Vector Word 32} {dm : Memory} (hr : ReachesHalt c x dm) (h : sameProgramState c c') :
    ReachesHalt c' x dm := by
  induction hr generalizing c' with
  | halt hw =>
    obtain ⟨-, hx, -, -, hd⟩ := id h
    rw [hx, hd]
    exact .halt (h.holdsWord hw)
  | @step c u x dm w i hw hi hn hx hr ih =>
    obtain ⟨v, v', hv, hv', hsame⟩ := exec_same h i
    cases hx.symm.trans hv
    exact .step (h.holdsWord hw) hi hn hv' (ih hsame)

theorem ReachesHalt.deterministic {c : State} {x x' : Vector Word 32} {dm dm' : Memory} (h : ReachesHalt c x dm)
    (h' : ReachesHalt c x' dm') : x = x' ∧ dm = dm' := by
  have hclash : ∀ {c : State} {w i}, c.holdsWord c.pc haltWord → c.holdsWord c.pc w → decode w = some i → i = .halt :=
    fun hw hw' hi => by
      cases hw.symm.trans hw'
      exact Option.some.inj (hi.symm.trans (by decide))
  induction h with
  | halt hw =>
    cases h' with
    | halt => exact ⟨rfl, rfl⟩
    | step hw' hi hn => exact absurd (hclash hw hw' hi) hn
  | step hw hi hn hx _ ih =>
    cases h' with
    | halt hw' => exact absurd (hclash hw' hw hi) hn
    | step hw' hi' hn' hx' hr' =>
      cases hw.symm.trans hw'
      cases hi.symm.trans hi'
      cases hx.symm.trans hx'
      exact ih hr'

/-! The pipeline's run is the in-order one. -/

theorem sameProgramState_of_architectural {s t : State} (h : s.architectural = t.architectural) : sameProgramState s t := by
  obtain ⟨hcfg, hx, hpc, himem, hdmem, -⟩ := fields_of_architectural h
  exact ⟨hcfg, hx, hpc, himem, hdmem⟩

/-- A halt word has passed execute. -/
def State.haltPast (s : State) : Prop := (∃ e, s.exmem = some e ∧ e.ins = .halt) ∨ ∃ m, s.memwb = some m ∧ m.ins = .halt

/-- The in-order run from the completed state leaves x and dm; if the halt word has passed execute, they are there. -/
structure Answers (s : State) (x : Vector Word 32) (dm : Memory) : Prop where
  past   : s.haltPast → s.completed.x = x ∧ s.completed.dmem = dm
  future : ¬s.haltPast → ReachesHalt s.completed x dm

theorem Flow.idex_of_haltPast {s : State} {p : Nat} (h : Flow s p) (hp : s.haltPast) : s.idex = none := by
  have hno : ¬s.pastFree := fun ⟨hx, hm⟩ => by
    obtain ⟨e, he, hi⟩ | ⟨m, hme, hi⟩ := hp
    · exact hx e he hi
    · exact hm m hme hi
  cases h with
  | fetching _ _ _ hf => exact absurd hf hno
  | fresh _ hd => exact hd
  | resolving _ _ _ _ hf => exact absurd hf hno
  | haltExecutes _ _ _ _ _ hf => exact absurd hf hno
  | haltAccesses _ _ hd => exact hd
  | haltWrites _ _ hd => exact hd

/-- A halt word past execute after a cycle was in ID/EX or past execute before it. -/
theorem Cycled.haltPast {s t : State} {q : Option (Word × Word)} (h : Cycled s t q) (ht : t.haltPast) :
    (∃ d, s.idex = some d ∧ d.ins = .halt) ∨ s.haltPast := by
  obtain ⟨e, he, hi⟩ | ⟨m, hm, hi⟩ := ht
  · exact .inl ⟨e.toIDEX, by rw [← h.ex.record, he]; rfl, hi⟩
  · exact .inr (.inl ⟨m.toEXMEM, by rw [← h.access, hm]; rfl, hi⟩)

/-- The halt word stays past execute until it is written back. -/
theorem Cycled.haltPast_of_past {s t : State} {q : Option (Word × Word)} (h : Cycled s t q) (hrun : t.status = .running)
    (hs : s.haltPast) : t.haltPast := by
  obtain ⟨e, he, hi⟩ | ⟨m, hm, hi⟩ := hs
  · have hacc := h.access
    rw [he, Option.map_eq_some_iff] at hacc
    obtain ⟨m, hm, hme⟩ := hacc
    exact .inr ⟨m, hm, hme ▸ hi⟩
  · exact absurd hi (h.memwb_not_halt hrun m hm)

theorem Cycled.haltPast_of_idex {s t : State} {q : Option (Word × Word)} (h : Cycled s t q) {d : IDEX} (hd : s.idex = some d)
    (hi : d.ins = .halt) : t.haltPast := by
  have hrec := h.ex.record
  rw [hd, Option.map_eq_some_iff] at hrec
  obtain ⟨e, he, hed⟩ := hrec
  exact .inl ⟨e, he, hed ▸ hi⟩

/-- What the state after a cycle answers, the state before it does. -/
theorem Answers.of_cycle {s t : State} {q : Option (Word × Word)} {p : Nat} {x : Vector Word 32} {dm : Memory} (hs : Sound s)
    (hflow : Flow s p) (hcyc : Cycled s t q) (hrun : t.status = .running) (h : Answers t x dm) : Answers s x dm := by
  cases hd : s.idex with
  | none =>
    have hsame := sameProgramState_of_architectural (hcyc.completed_of_bubble hd)
    obtain ⟨-, hx, -, -, hdm⟩ := id hsame
    refine ⟨fun hp => ?_, fun hp => ?_⟩
    · rw [← hx, ← hdm]
      exact h.past (hcyc.haltPast_of_past hrun hp)
    · refine (h.future fun ht => ?_).congr hsame
      obtain ⟨d, hd', -⟩ | hp' := hcyc.haltPast ht
      · rw [hd] at hd'; cases hd'
      · exact hp hp'
  | some d =>
    have hno : ¬s.haltPast := fun hp => by
      rw [hflow.idex_of_haltPast hp] at hd
      cases hd
    obtain ⟨i, e, hi, -, u, hu, harch, -⟩ := hcyc.completed_of_idex hd (hs.engine.idexCoherent d hd) rfl
      (hs.path.operandsCurrent d hd) (hs.path.frontPc hd)
    have hsame := sameProgramState_of_architectural harch
    obtain ⟨-, j, hj, hdec⟩ := hs.engine.idexCoherent d hd
    cases hi.symm.trans hj
    have hword : s.completed.holdsWord s.completed.pc d.word := by
      rw [State.holdsWord, completed_pc, nextToExecute_of_idex hd, completed_imem]
      exact hs.path.idexWord d hd
    refine ⟨fun hp => absurd hp hno, fun _ => ?_⟩
    by_cases hhalt : i = .halt
    · subst hhalt
      obtain ⟨-, hx, -, -, hdm⟩ := hsame
      obtain ⟨hpx, hpd⟩ := h.past (hcyc.haltPast_of_idex hd (by rw [hdec]; rfl))
      cases hu
      rw [← hpx, ← hpd, hx, hdm]
      exact .halt (eq_haltWord_of_decode hi ▸ hword)
    · refine .step hword hi hhalt hu ((h.future fun ht => ?_).congr hsame)
      obtain ⟨d', hd', hdi⟩ | hp := hcyc.haltPast ht
      · cases hd.symm.trans hd'
        rw [hdec] at hdi
        exact hhalt (eq_halt_of_mnemonicOf hdi)
      · exact hno hp

/-- A halting run leaves what the in-order run leaves. -/
theorem HaltingRun.answers {s u : State} {p : Nat} (h : HaltingRun s u) (hs : Sound s) (hflow : Flow s p) : Answers s u.x u.dmem := by
  induction h generalizing p with
  | @last s t hrun hstep ht =>
    obtain ⟨q, hcyc⟩ := step_cycled hrun hstep fun ⟨e, he⟩ => by rw [ht] at he; cases he
    have hh : haltIn s.memwb = true := by
      by_contra hno
      rw [hcyc.status, Bool.eq_false_iff.2 hno] at ht
      cases ht
    obtain ⟨-, -, -, he, -⟩ := hflow.of_halt hh
    obtain ⟨m, hm, hi⟩ := haltIn_eq_true.1 hh
    have hleaves := hcyc.leaves
    rw [he, memLeaves_none] at hleaves
    obtain ⟨hdm, -⟩ := Prod.mk.inj hleaves
    refine ⟨fun _ => ⟨?_, ?_⟩, fun hno => absurd (.inr ⟨m, hm, hi⟩) hno⟩
    · rw [completed_x, he, hcyc.x]
      rfl
    · rw [completed_dmem, he, ← hdm]
      rfl
  | @step s t u hrun hstep ht hr ih =>
    obtain ⟨q, hcyc⟩ := step_cycled hrun hstep fun ⟨e, he⟩ => by rw [ht] at he; cases he
    obtain ⟨p', hflow', -⟩ | hlost := hflow.cycled hs.engine hs.path hs.last hcyc ht
    · exact Answers.of_cycle hs hflow hcyc ht (ih (hs.cycled hstep hcyc) hflow')
    · exact absurd hr hlost.not_halting

/-! From an empty pipeline. -/

theorem sameProgramState_completed {s : State} (h : s.drained) : sameProgramState s s.completed := by
  obtain ⟨hf, hd, he, hm⟩ := h
  refine ⟨by simp, ?_, ?_, by simp, ?_⟩
  · rw [completed_x, he, hm]
    rfl
  · rw [completed_pc, nextToExecute_of_bubble hd, State.frontPc, hf]
  · rw [completed_dmem, he]
    rfl

/-- A halting run from an empty pipeline is the in-order run from that state. -/
theorem reachesHalt_of_run {n : Nat} {s u : State} (hs : Sound s) (hdr : s.drained) (hrun : s.status = .running)
    (h : Host.Core.run Sys2Proof.core n s = .next u) (hu : u.status = .halted) : ReachesHalt s.completed u.x u.dmem := by
  obtain ⟨hf, hd, he, hm⟩ := hdr
  have hflow : Flow s 0 := .fresh hf hd ⟨by simp [he], by simp [hm]⟩
  refine ((haltingRun_of_run hrun h hu).answers hs hflow).future ?_
  simp [State.haltPast, he, hm]

theorem sameProgramState.symm {s t : State} (h : sameProgramState s t) : sameProgramState t s := by
  obtain ⟨h1, h2, h3, h4, h5⟩ := h
  exact ⟨h1.symm, h2.symm, h3.symm, h4.symm, h5.symm⟩

theorem sameProgramState.trans {s t u : State} (h : sameProgramState s t) (h' : sameProgramState t u) : sameProgramState s u := by
  obtain ⟨h1, h2, h3, h4, h5⟩ := h
  obtain ⟨k1, k2, k3, k4, k5⟩ := h'
  exact ⟨h1.trans k1, h2.trans k2, h3.trans k3, h4.trans k4, h5.trans k5⟩

/-- Settles O40: both runs are the in-order run from one program state, which is deterministic. -/
theorem predictionAndForwardingInvisible : Obligations.PredictionAndForwardingInvisible := by
  unfold Obligations.PredictionAndForwardingInvisible
  intro s t s' t' n m hse hsp hte htp hsd htd hsr htr hsame hlast hs' hsh ht' hth
  obtain ⟨-, -, -, himem, -⟩ := id hsame
  have hrun := reachesHalt_of_run ⟨hse, hsp, hlast⟩ hsd hsr hs' hsh
  have hrun' := reachesHalt_of_run ⟨hte, htp, himem ▸ hlast⟩ htd htr ht' hth
  have hcompleted := ((sameProgramState_completed hsd).symm.trans hsame).trans (sameProgramState_completed htd)
  obtain ⟨hx, hdm⟩ := (hrun.congr hcompleted).deterministic hrun'
  exact ⟨hdm, State.readReg_congr hx⟩

end Sys2Proof.Machine
end

section
/-! The five cycles of an instruction alone in the pipeline (spec/45_pipeline.md R320, R322): fetch, decode, execute, memory, write-back. -/

namespace Sys2Proof.Machine

/-! Steps of a pipeline with nothing in IF/ID whose fetch misses. -/

theorem not_inDataSegment_of_miss {m : Memory} {a : Word} (h : iMemReadWord m a = .ok none) : inDataSegment a = false := by
  by_contra hin
  rw [iMemReadWord_of_inDataSegment (by simpa using hin)] at h
  cases h

/-- Nothing in IF/ID, and no word at the fetch address. -/
structure Quiet (s : State) : Prop where
  running : s.status = .running
  ifid    : s.ifid = none
  miss    : iMemReadWord s.imem s.pc = .ok none

theorem fetchAt_of_miss {s : State} {a : Word} (h : iMemReadWord s.imem a = .ok none) :
    fetchAt s a = .ok { s with ifid := none, pc := a } := by
  rw [fetchAt, h]

theorem Quiet.step_answers {s : State} (h : Quiet s) (hd : ∀ d, s.idex = some d → recordCoherent d)
    (he : ∀ e, s.exmem = some e → recordCoherent e.toIDEX) : ∃ t, step s = .next t := by
  rw [step_running h.running, runCycle, wbStage_cleared]
  refine thenRun_answers (memStage_not_stuck (s := s.writtenBack) he) fun s2 hm => ?_
  obtain ⟨m, w, rfl⟩ := memStage_frame hm
  refine thenRun_answers (exStage_not_stuck hd) fun ex hx => ?_
  refine thenRun_answers (idStage_not_stuck _) fun id hi => thenRun_answers (fun f hf => ?_) fun s5 _ => ⟨_, rfl⟩
  obtain ⟨hpc, ⟨-, hne⟩ | ⟨hifid, hred⟩⟩ := exStage_ifid hx
  · obtain ⟨a, ha⟩ := Option.ne_none_iff_exists'.mp hne
    rw [ha] at hf
    cases hf
  · have hn : ex.1.ifid = none := hifid.trans h.ifid
    obtain ⟨-, -, -, himem, -⟩ := (exStage_same hx).1
    obtain ⟨-, rfl⟩ | ⟨f, i, hf', -⟩ | ⟨f, i, hf', -⟩ := idStage_ok hi
    · have hmiss : iMemReadWord ex.1.imem ex.1.pc = .ok none := by
        rw [himem, hpc]
        exact h.miss
      have hok := fetchAt_of_miss (s := { ex.1 with idex := none }) hmiss
      rw [hred] at hf
      cases hok.symm.trans hf
    · rw [hn] at hf'; cases hf'
    · rw [hn] at hf'; cases hf'

/-- A quiet step with bubbles before write-back is a completed cycle. -/
theorem Quiet.step_cycled {s : State} (h : Quiet s) (hd : s.idex = none) (he : s.exmem = none) : ∃ t p, step s = .next t ∧ Cycled s t p := by
  obtain ⟨t, ht⟩ := h.step_answers (by simp [hd]) (by simp [he])
  obtain ⟨r, hm, -⟩ | ⟨u, d, r, -, hd', -⟩ | ⟨p, hcyc⟩ := step_of_empty_front h.running h.ifid (not_inDataSegment_of_miss h.miss) ht
  · exact absurd hm (memStage_not_raise_of_bubble (s := s.writtenBack) he r)
  · rw [hd] at hd'; cases hd'
  · exact ⟨t, p, ht, hcyc⟩

/-- A quiet step without a flush leaves a quiet state, if write-back sees no halt word. -/
theorem Quiet.cycled {s t : State} {p : Option (Word × Word)} (h : Quiet s) (hcyc : Cycled s t p)
    (hc : ∀ d, s.idex = some d → d.isControl = false) (hh : haltIn s.memwb = false) : Quiet t ∧ t.idex = none := by
  obtain ⟨hf, hd, hw, -⟩ := hcyc.of_miss h.ifid hc h.miss
  exact ⟨⟨by rw [hcyc.status, hh]; rfl, hf, hw⟩, hd⟩

/-! Write-back, memory, execute, each with nothing behind it. -/

theorem architectural_completed {s : State} (h : s.drained) : s.completed.architectural = s.architectural := by
  obtain ⟨hf, hd, he, hm⟩ := h
  refine architectural_congr (by simp) ?_ ?_ (by simp) ?_ (by simp) (by simp) ?_ (completed_ctrlHazards s)
  · rw [completed_x, he, hm]
    rfl
  · rw [completed_pc, nextToExecute_of_bubble hd, State.frontPc, hf]
  · rw [completed_dmem, he]
    rfl
  · rw [completed_stats, he, hm]
    rfl

/-- The cycle that writes back the last instruction in flight. -/
theorem Quiet.writeBack {s : State} (h : Quiet s) (hd : s.idex = none) (he : s.exmem = none) :
    ∃ t, step s = .next t ∧ t.architectural = s.completed.architectural ∧ t.status = if haltIn s.memwb then .halted else .running := by
  obtain ⟨t, p, ht, hcyc⟩ := h.step_cycled hd he
  refine ⟨t, ht, ?_, hcyc.status⟩
  obtain ⟨hf', hd', -⟩ := hcyc.of_miss h.ifid (by simp [hd]) h.miss
  have hex := hcyc.ex.record
  have hmem := hcyc.access
  rw [hd, Option.map_eq_none_iff] at hex
  rw [he, Option.map_eq_none_iff] at hmem
  exact (architectural_completed ⟨hf', hd', hex, hmem⟩).symm.trans (hcyc.completed_of_bubble hd)

theorem memRaises_of_ok {s u : State} (h : memStage s = .ok u) : memRaises s.cfg s.dmem s.exmem = none := by
  rw [memRaises, memStage_congr (s := s) (t := accessing s.cfg s.dmem s.exmem) rfl rfl rfl h]

/-- An access that raises does so in every state with the same parameters and data memory. -/
theorem memStage_raise_congr {s t : State} {r : Error} (hc : t.cfg = s.cfg) (hd : t.dmem = s.dmem) (he : t.exmem = s.exmem)
    (h : memStage s = .raise r) : memStage t = .raise r := by
  have hst : ∀ e, memStoreAccess t e = memStoreAccess s e := fun e => by rw [memStoreAccess, memStoreAccess, hd]
  have hld : ∀ e m, memLoadAccess t e m = memLoadAccess s e m := fun e m => by rw [memLoadAccess, memLoadAccess, hc]
  cases hx : s.exmem with
  | none =>
    rw [memStage, hx] at h
    cases h
  | some e =>
    simp only [memStage, he, hx, hst, hld] at h ⊢
    split at h
    · rename_i hi
      rw [if_pos hi, h]
    · rename_i hi
      rw [if_neg hi]
      cases hm : memStoreAccess s e with
      | raise r' => rw [hm] at h; exact h
      | stuck f => rw [hm] at h; cases h
      | ok m =>
        rw [hm] at h
        simp only at h ⊢
        cases hv : memLoadAccess s e m with
        | raise r' => rw [hv] at h; exact h
        | stuck f => rw [hv] at h; cases h
        | ok v => rw [hv] at h; cases h

theorem memRaises_of_raise {s : State} {r : Error} (h : memStage s = .raise r) : memRaises s.cfg s.dmem s.exmem = some r := by
  rw [memRaises, memStage_raise_congr (s := s) (t := accessing s.cfg s.dmem s.exmem) rfl rfl rfl h]

/-- If memory raises, nothing of the record in EX/MEM reaches the completed state. -/
theorem completed_of_memory_error {s : State} {r : Error} (hq : Quiet s) (hd : s.idex = none) (h : memStage s = .raise r) :
    s.completed.architectural = s.writtenBack.architectural := by
  have hleaves := memLeaves_of_not_ok (s := s) (by simp [h])
  refine architectural_congr (by simp [State.writtenBack]) ?_ ?_ (by simp [State.writtenBack]) ?_ (by simp [State.writtenBack])
    (by simp [State.writtenBack]) ?_ ?_
  · rw [completed_x, hleaves]
    rfl
  · rw [completed_pc, nextToExecute_of_bubble hd, State.frontPc, hq.ifid]
    rfl
  · rw [completed_dmem, hleaves]
    rfl
  · rw [completed_stats, hleaves]
    rfl
  · obtain ⟨-, -, -, hch, -⟩ := wbStats_frame s.memwb s.stats
    exact (completed_ctrlHazards s).trans hch.symm

/-- The cycles of memory and write-back of the last instruction in flight. -/
theorem Quiet.access {s : State} {e : EXMEM} (h : Quiet s) (hd : s.idex = none) (he : s.exmem = some e) (hm : s.memwb = none)
    (hco : recordCoherent e.toIDEX) :
    ∃ t, Host.Core.run Sys2Proof.core 2 s = .next t ∧ t.architectural = s.completed.architectural ∧ t.status = s.retiredStatus e := by
  obtain ⟨t, ht⟩ := h.step_answers (by simp [hd]) (fun e' he' => by cases he.symm.trans he'; exact hco)
  obtain ⟨r, hraise, rfl⟩ | ⟨u, d, r, -, hd', -⟩ | ⟨p, hcyc⟩ := step_of_empty_front h.running h.ifid (not_inDataSegment_of_miss h.miss) ht
  · have hraise' : memStage s = .raise r := memStage_raise_congr (s := s.writtenBack) rfl rfl rfl hraise
    refine ⟨_, (run_of_step ht 1).trans (run_stopped (by simp [State.raise]) 1), ?_, ?_⟩
    · exact (completed_of_memory_error h hd hraise').symm
    · exact (retiredStatus_of_error (he ▸ memRaises_of_raise hraise')).symm
  · rw [hd] at hd'; cases hd'
  · obtain ⟨hquiet, hd'⟩ := h.cycled hcyc (by simp [hd]) (by rw [hm]; rfl)
    have hex := hcyc.ex.record
    rw [hd, Option.map_eq_none_iff] at hex
    obtain ⟨t', ht', harch, hst⟩ := hquiet.writeBack hd' hex
    refine ⟨t', (run_of_step ht 1).trans (run_of_step ht' 0), harch.trans (hcyc.completed_of_bubble hd), hst.trans ?_⟩
    obtain ⟨u, hu⟩ := hcyc.memory
    have hno := memRaises_of_ok hu
    have hacc := hcyc.access
    rw [he, Option.map_eq_some_iff] at hacc
    obtain ⟨m, hm', hme⟩ := hacc
    subst hme
    rw [he] at hno
    simp only [State.retiredStatus, hno, hm', haltIn, h.running, decide_eq_true_eq]

/-- With nothing past execute the completed state holds the registers, data memory and counters as they are. -/
theorem completed_of_past_empty {s : State} (he : s.exmem = none) (hm : s.memwb = none) :
    s.completed = { s with pc := s.nextToExecute, ifid := none, idex := none, exmem := none, memwb := none } := by
  rw [completed_eq]
  simp only [he, hm]
  rfl

theorem retiredStatus_congr {c c' : State} (hcfg : c.cfg = c'.cfg) (hd : c.dmem = c'.dmem) (hs : c.status = c'.status) (e : EXMEM) :
    c.retiredStatus e = c'.retiredStatus e := by
  simp only [State.retiredStatus, hcfg, hd, hs]

/-- After the cycle that executes a lone instruction nothing is behind it, and fetch has found no word. -/
theorem Quiet.of_execute {s t u : State} {d : IDEX} {p : Option (Word × Word)} (h : Quiet s) (hm : s.memwb = none) (hd : s.idex = some d)
    (hcyc : Cycled s t p) (hpc : t.completed.pc = u.pc) (hrun : d.isControl = true → u.status = .running)
    (hu : u.status = .running → iMemReadWord s.imem u.pc = .ok none) : Quiet t ∧ t.idex = none := by
  have hstatus : t.status = .running := by rw [hcyc.status, hm]; rfl
  cases p with
  | none =>
    obtain ⟨hid, -, ha⟩ := hcyc.front.of_empty h.ifid
    obtain ⟨hf, hp⟩ := ha.of_miss (by rw [hcyc.imem, h.miss])
    exact ⟨⟨hstatus, hf, by rw [hcyc.imem, hp, h.miss]⟩, hid⟩
  | some q =>
    obtain ⟨hf, hid, -⟩ := hcyc.of_flush
    have hc : d.isControl = true := by
      cases hcyc.ex with
      | wrong d' _ _ _ hd' _ _ hc =>
        cases hd.symm.trans hd'
        exact hc
    rw [completed_pc, nextToExecute_of_bubble hid, State.frontPc, hf] at hpc
    have hp : t.pc = u.pc := hpc
    exact ⟨⟨hstatus, hf, by rw [hcyc.imem, hp, hu (hrun hc)]⟩, hid⟩

/-- Write-back of a bubble does no more than clear the events. -/
theorem writtenBack_of_bubble {s : State} (h : s.memwb = none) : s.writtenBack = { s with events := [] } := by
  rw [State.writtenBack, h]
  rfl

/-- The cycles of execute, memory and write-back of an instruction alone in flight leave what its meaning leaves. -/
theorem Quiet.execute {s c u : State} {d : IDEX} {i : Instr} (h : Quiet s) (hd : s.idex = some d) (he : s.exmem = none)
    (hm : s.memwb = none) (hco : recordCoherent d) (hi : decode d.word = some i) (hc : s.completed.architectural = c.architectural)
    (hrun : c.status = .running) (hops : d.v1 = c.readSource d.rs1 ∧ d.v2 = c.readSource d.rs2) (hpc : s.pc = d.pc + 4#32)
    (hx : exec i c = .next u) (hu : u.status = .running → iMemReadWord c.imem u.pc = .ok none) :
    ∃ t, Host.Core.run Sys2Proof.core 3 s = .next t ∧ t.architectural = u.architectural ∧ t.status = u.status := by
  obtain ⟨hcfg, hcx, hcpc, himem, hdm, hbht, hbtb, hcl, hch⟩ := fields_of_architectural hc
  rw [completed_of_past_empty (by exact he) (by exact hm)] at hcfg hcx hcpc himem hdm hbht hbtb hcl hch
  simp only [nextToExecute_of_idex hd] at hcfg hcx hcpc himem hdm hbht hbtb hcl hch
  have hdec : d.toDecoded = decodedFields i := by
    obtain ⟨-, j, hj, hdec⟩ := hco
    cases hi.symm.trans hj
    exact hdec
  obtain ⟨t, ht⟩ := h.step_answers (fun d' hd' => by cases hd.symm.trans hd'; exact hco) (by simp [he])
  obtain ⟨r, hraise, -⟩ | ⟨v, d', r, hv, hd', hraise, rfl⟩ | ⟨p, hcyc⟩ :=
    step_of_empty_front h.running h.ifid (not_inDataSegment_of_miss h.miss) ht
  · exact absurd hraise (memStage_not_raise_of_bubble (s := s.writtenBack) he r)
  · cases hd.symm.trans hd'
    have hfail : exec i c = .next (c.afterFailure r) := by
      refine exec_of_exAlu_raise (f := d.toIFID) hcpc ?_
      rw [← eq_recordOf hdec hops.1 hops.2, exAlu_congr hcfg.symm, hraise]
    cases hx.symm.trans hfail
    refine ⟨_, (run_of_step ht 2).trans (run_stopped (by simp [State.raise]) 2), ?_, rfl⟩
    obtain ⟨m, e', rfl⟩ := memStage_frame hv
    have hm' : m = c.dmem := by
      have hleaves := memLeaves_of_ok hv
      simp only [State.writtenBack, he, memLeaves_none, Prod.mk.injEq] at hleaves
      exact hleaves.1.symm.trans hdm
    rw [writtenBack_of_bubble hm]
    exact architectural_congr hcfg hcx (by rw [State.afterFailure, ← hcpc]; exact hpc) himem hm' hbht hbtb hcl hch
  · obtain ⟨j, e, hj, hte, u', hx', harch, hst⟩ := hcyc.completed_of_idex hd hco hc hops fun _ => by rw [State.frontPc, h.ifid, hpc]
    cases hi.symm.trans hj
    cases hx.symm.trans hx'
    obtain ⟨-, -, htpc, -⟩ := fields_of_architectural harch
    have hstatus : d.isControl = true → u.status = .running := fun hctl => by
      rw [hdec] at hctl
      obtain ⟨x, taken, target, rfl⟩ := exec_control_cases hctl hx
      exact hrun
    obtain ⟨hquiet, hid⟩ := h.of_execute hm hd hcyc htpc hstatus (himem ▸ hu)
    have hrec := hcyc.ex.record
    rw [hte, hd] at hrec
    have hacc := hcyc.access
    rw [he, Option.map_eq_none_iff] at hacc
    have hed : e.toIDEX = d := Option.some.inj hrec
    obtain ⟨t', ht', harch', hst'⟩ := hquiet.access hid hte hacc (hed ▸ hco)
    have hleaves := hcyc.leaves
    rw [he, memLeaves_none] at hleaves
    have htd : t.dmem = c.dmem := (Prod.mk.inj hleaves).1.symm.trans hdm
    refine ⟨t', (run_of_step ht 2).trans ht', harch'.trans harch, ?_⟩
    rw [hst', hst]
    exact retiredStatus_congr (hcyc.cfg.trans hcfg) htd (hquiet.running.trans hrun.symm) e

/-- A cycle with an instruction in IF/ID alone, and no word at the fetch address, moves it to ID/EX with its operands. -/
theorem step_of_fetched {s : State} {f : IFID} {i : Instr} (hs : s.status = .running) (hf : s.ifid = some f) (hd : s.idex = none)
    (he : s.exmem = none) (hm : s.memwb = none) (hi : decode f.word = some i) (hmiss : iMemReadWord s.imem s.pc = .ok none) :
    step s = .next { s with
      ifid := none, idex := some (recordOf f i s), stats := { s.stats with cycles := s.stats.cycles + 1 }, events := [] } := by
  have hmem : memStage { s with events := [] } = .ok { s with events := [], memwb := none } := by
    rw [memStage, he]
  have hx : exStage { s with events := [], memwb := none } = .ok ({ s with events := [], memwb := none, exmem := none }, none) := by
    rw [exStage, hd]
  have hid := idStage_of_empty (s := { s with events := [], memwb := none, exmem := none }) hf hi rfl rfl
  rw [step_running hs, runCycle, wbStage_cleared, writtenBack_of_bubble hm, hmem, hm]
  simp only [StageOut.thenRun, hx, hid, ifStage, Option.getD_none, fetchAt, hmiss]
  rw [he]
  rfl

/-- The state after the fetch of a word predicted not taken. -/
def State.afterFetch (s : State) (w : Word) : State :=
  { s with
    pc := s.pc + 4#32, ifid := some (fetchRecord s.pc w), stats := { s.stats with cycles := s.stats.cycles + 1 }, events := [] }

theorem step_of_hit {s : State} {w : Word} (hs : s.status = .running) (h : s.drained) (hw : s.holdsWord s.pc w)
    (hnext : predictNext s.bht s.btb s.pc = .ok (s.pc + 4#32)) : step s = .next (s.afterFetch w) := by
  have hw' : iMemReadWord s.imem s.pc = .ok (some w) := hw
  rw [step_of_drained hs h]
  simp only [fetchAt, hw', hnext, StageOut.thenRun]
  rfl

/-- Settles O34: fetch and decode bring the word to ID/EX with nothing behind it, and three more cycles complete it. -/
theorem cyclesRunTheDecodedInstruction : Obligations.CyclesRunTheDecodedInstruction := by
  unfold Obligations.CyclesRunTheDecodedInstruction
  intro s t w i hs h hw hi hnext hmiss hx ht
  have hfetch := step_of_hit hs h hw hnext
  obtain ⟨-, hd, he, hm⟩ := h
  have hdecode := step_of_fetched (s := s.afterFetch w) hs rfl hd he hm hi hmiss
  rw [run_of_step hfetch, run_of_step hdecode]
  refine Quiet.execute (c := s) ⟨hs, rfl, hmiss⟩ rfl he hm ⟨rfl, i, hi, rfl⟩ hi ?_ hs ⟨rfl, rfl⟩ rfl hx ht
  rw [completed_of_past_empty (by exact he) (by exact hm)]
  exact architectural_congr rfl rfl rfl rfl rfl rfl rfl rfl rfl

end Sys2Proof.Machine
end
